-- ==== Sys2Proof/Word.lean ====
section
/-! DEFINITION. The widths the WFE moves (`20_memory.md` R70, `10_state.md` R24). -/

namespace Sys2Proof

/-- A 32-bit cell: a command word (R100) or a binary32 pattern (R11). -/
abbrev Word := BitVec 32

/-- A 16-bit cell: a control register (R24), a `TREE`, `RES` or `HDER` cell (R70). -/
abbrev Half := BitVec 16

/-- An 8-bit cell: a `BS`, `HBITS` or `HVAL` cell (R70). -/
abbrev Byte := BitVec 8

end Sys2Proof
end

