-- ==== Sys2Proof/Config.lean ====
section
/-! DEFINITION. What an instance fixes (`00_scope.md` R8) and the values the spec leaves open
(`93_implementation_defined.md` U1 to U4). -/

namespace Sys2Proof

namespace Config

/-- `NTREE`: entries of the wavelet tree (R8). -/
abbrev nTree : Nat := 20

/-- `NHTAB`: Huffman table slots (R8). -/
abbrev nHtab : Nat := 8

/-- `MAXBITS`: the longest code length (R8). -/
abbrev maxBits : Nat := 16

/-- `MAXSYM`: symbol values per table (R8). -/
abbrev maxSym : Nat := 256

/-- `MAXTAP`: tap slots per filter memory (R8). -/
abbrev maxTap : Nat := 16

end Config

/-- The build parameters of rule R8 that differ between instances. They stand in the state as plain data
that no step changes, so a claim about every state is a claim about every instance (log entry 2). -/
structure Params where
  /-- `PLANE_WORDS`. -/
  planeWords : Nat
  /-- `CMD_WORDS`. -/
  cmdWords : Nat
  /-- `BS_BYTES`. -/
  bsBytes : Nat
  /-- `RES_WORDS`. -/
  resWords : Nat
deriving DecidableEq, Repr

/-- The default of every parameter (R8). -/
def Params.default : Params :=
  { planeWords := 1048576, cmdWords := 256, bsBytes := 65535, resWords := 256 }

/-- The range of every parameter (R8). -/
def Params.legal (p : Params) : Bool :=
  decide (1 ≤ p.planeWords) && decide (p.planeWords ≤ 4294967295) &&
  decide (1 ≤ p.cmdWords) && decide (p.cmdWords ≤ 32768) &&
  decide (1 ≤ p.bsBytes) && decide (p.bsBytes ≤ 65535) &&
  decide (1 ≤ p.resWords) && decide (p.resWords ≤ 65535)

/-- The memories of the table under rule R70: the ten host-visible cell memories and `SCR`. -/
inductive MemId where
  | cmd | plane | lotap | hitap | tree | hbits | hval | bs | res | hder | scr
deriving DecidableEq, Repr

/-- "cells" of the table under rule R70: how many cells a memory has. -/
def MemId.cells (p : Params) : MemId → Nat
  | .cmd => p.cmdWords
  | .plane => p.planeWords
  | .lotap => Config.maxTap
  | .hitap => Config.maxTap
  | .tree => Config.nTree * 8
  | .hbits => Config.nHtab * Config.maxBits
  | .hval => Config.nHtab * Config.maxSym
  | .bs => p.bsBytes
  | .res => p.resWords
  | .hder => 512
  | .scr => p.planeWords

/-- "cell bits" of the table under rule R70: how wide a cell of a memory is. -/
def MemId.bits : MemId → Nat
  | .cmd => 32
  | .plane => 32
  | .lotap => 32
  | .hitap => 32
  | .tree => 16
  | .hbits => 8
  | .hval => 8
  | .bs => 8
  | .res => 16
  | .hder => 16
  | .scr => 32

namespace Config

/-- U1, U3: what cell `i` of memory `id`, `w` bits wide, holds while nothing has written it in the
`powerOn`-th power-on period: an arbitrary draw, fixed for that cell and period. DESIGN CHOICE (safe),
log entry 3: a free value, so nothing can be proved of it. -/
opaque unwrittenCell (powerOn : Nat) (id : MemId) (i : Nat) (w : Nat) : BitVec w

/-- U2: what a host read of derived cell `i` delivers while its table is not built: any value. `draw` is a
counter of the state that advances whenever a table may have lost its arrays. DESIGN CHOICE (safe), log
entry 4. -/
opaque staleDerived (draw : Nat) (i : Nat) : Half

/-- The two float operations, as the key of a NaN draw. -/
inductive FloatOp where
  | mul | add
deriving DecidableEq, Repr

/-- U4: the sign of the NaN that a float operation delivers. DESIGN CHOICE (safe), log entry 5. -/
opaque nanSign (op : FloatOp) (a b : Word) : Bool

/-- U4: the payload of the NaN that a float operation delivers, less one, so that every draw is a NaN
pattern and every non-zero payload is a draw. DESIGN CHOICE (safe), log entry 5. -/
opaque nanPayloadPred (op : FloatOp) (a b : Word) : Fin 8388607

end Config

end Sys2Proof
end

