-- ==== Sys2Proof/Machine/Float.lean ====
section
/-! DEFINITION. Binary32 multiply and add on bit patterns (`00_scope.md` R11): exact result, rounded once to
nearest, ties to even; subnormals kept; overflow to the infinity of the right sign; no flags, no fault. A
finite pattern stands for `(-1)^sign * magnitude * 2^-149`. -/

namespace Sys2Proof.Machine

/-- The sign bit. -/
def fsign (a : Word) : Bool := a.getLsbD 31

/-- The exponent field. -/
def fexp (a : Word) : Nat := (a.extractLsb' 23 8).toNat

/-- The fraction field. -/
def ffrac (a : Word) : Nat := (a.extractLsb' 0 23).toNat

/-- A NaN pattern. -/
def isNaN (a : Word) : Bool := decide (fexp a = 255) && decide (ffrac a ≠ 0)

/-- An infinity of either sign. -/
def isInf (a : Word) : Bool := decide (fexp a = 255) && decide (ffrac a = 0)

/-- A zero of either sign. -/
def isZero (a : Word) : Bool := decide (fexp a = 0) && decide (ffrac a = 0)

/-- A finite pattern: neither a NaN nor an infinity. -/
def isFinite (a : Word) : Bool := decide (fexp a ≠ 255)

/-- The magnitude of a finite pattern, in units of 2^-149. -/
def fmag (a : Word) : Nat :=
  if fexp a = 0 then ffrac a else (ffrac a + 2 ^ 23) * 2 ^ (fexp a - 1)

/-- The value of a finite pattern, in units of 2^-149. -/
def fval (a : Word) : Int := if fsign a then - (fmag a : Int) else fmag a

/-- The 31-bit pattern of an infinity. -/
def infPattern : Nat := 0x7F800000

/-- `n` divided by `2^sh` and rounded to nearest, ties to even. -/
def roundShift (n sh : Nat) : Nat :=
  let q := n / 2 ^ sh
  let r := n % 2 ^ sh
  if 2 ^ sh < 2 * r ∨ (2 * r = 2 ^ sh ∧ q % 2 = 1) then q + 1 else q

/-- The 31-bit pattern nearest to `n * 2^-(149 + extra)`. The quantum is `2^sh` units, so that 24 bits remain
or, below the normal range, the subnormal quantum. A pattern of that quantum is the rounded multiple plus
2^23 for each step of the quantum; past the largest finite pattern it is infinity. -/
def roundPattern (n extra : Nat) : Nat :=
  let sh := max (n.log2 - 23) extra
  min ((sh - extra) * 2 ^ 23 + roundShift n sh) infPattern

/-- A sign and a 31-bit pattern. -/
def fpack (sign : Bool) (pattern : Nat) : Word :=
  (BitVec.ofBool sign ++ BitVec.ofNat 31 pattern : BitVec (1 + 31))

/-- The NaN an operation delivers: its sign and payload are unspecified (R11, U4; log entry 5). -/
def freeNaN (op : Config.FloatOp) (a b : Word) : Word :=
  fpack (Config.nanSign op a b) (infPattern + (Config.nanPayloadPred op a b).val + 1)

/-- `fmul(a, b)` (R11). -/
def fmul (a b : Word) : Word :=
  let sign := fsign a != fsign b
  if isNaN a || isNaN b then freeNaN .mul a b
  else if isInf a || isInf b then
    if isZero a || isZero b then freeNaN .mul a b else fpack sign infPattern
  else fpack sign (roundPattern (fmag a * fmag b) 149)

/-- `fadd(a, b)` (R11). An exact zero sum is `+0.0` unless both operands are negative. -/
def fadd (a b : Word) : Word :=
  if isNaN a || isNaN b then freeNaN .add a b
  else if isInf a then
    if isInf b && (fsign a != fsign b) then freeNaN .add a b else a
  else if isInf b then b
  else
    let v := fval a + fval b
    let sign := if v = 0 then fsign a && fsign b else decide (v < 0)
    fpack sign (roundPattern v.natAbs 0)

/-- `fneg(a)` flips the sign bit and nothing else (R11). -/
def fneg (a : Word) : Word := a ^^^ 0x80000000#32

end Sys2Proof.Machine
end

