-- ==== Sys2Proof/Syntax.lean ====
section
/-! DEFINITION. The fourteen commands (`30_encoding.md` R102). -/

namespace Sys2Proof

/-- The registers `SETR` may write (R103 (g), R127). -/
inductive WReg where
  | cpstart | nnodes | width | height | lsz | hsz | bsptr | bsend | hdef | resptr
deriving DecidableEq, Repr

/-- The commands of `opcode_table.json`, one constructor per row. The 8-bit `arg` of format C is kept as the
word holds it (R101); its legal range is `Instr.wellFormed`. -/
inductive Instr where
  /-- `NOP` (R125). -/
  | nop
  /-- `HALT` (R126). -/
  | halt
  /-- `SETR reg, imm16` (R127). -/
  | setr (reg : WReg) (imm : BitVec 16)
  /-- `FROW node` (R150). -/
  | frow (node : BitVec 8)
  /-- `FCOL node` (R151). -/
  | fcol (node : BitVec 8)
  /-- `ICOL node` (R180). -/
  | icol (node : BitVec 8)
  /-- `IROW node` (R181). -/
  | irow (node : BitVec 8)
  /-- `DECOMP` (R152). -/
  | decomp
  /-- `RECON` (R182). -/
  | recon
  /-- `BSINIT` (R220). -/
  | bsinit
  /-- `HBUILD id` (R221). -/
  | hbuild (id : BitVec 8)
  /-- `HSEL id` (R222). -/
  | hsel (id : BitVec 8)
  /-- `HDEC` (R223). -/
  | hdec
  /-- `GETB n` (R224). -/
  | getb (n : BitVec 8)
deriving DecidableEq, Repr

end Sys2Proof
end

