-- ==== Sys2Proof/WellFormed.lean ====
section
/-! DEFINITION. The operand ranges of `30_encoding.md` R101, R103. -/

namespace Sys2Proof

/-- A tree node number is legal (R103 (d)). -/
def nodeLegal (arg : BitVec 8) : Bool := decide (arg.toNat < Config.nTree)

/-- A Huffman table id is legal (R103 (e)). -/
def tableLegal (arg : BitVec 8) : Bool := decide (arg.toNat < Config.nHtab)

/-- A bit count is legal (R103 (f)). -/
def countLegal (arg : BitVec 8) : Bool := decide (1 ≤ arg.toNat) && decide (arg.toNat ≤ 16)

/-- A command whose operands some legal word carries (R101, R103). Which registers `SETR` may name is
already in the type `WReg`. -/
def Instr.wellFormed : Instr → Bool
  | .nop => true
  | .halt => true
  | .setr _ _ => true
  | .frow node => nodeLegal node
  | .fcol node => nodeLegal node
  | .icol node => nodeLegal node
  | .irow node => nodeLegal node
  | .decomp => true
  | .recon => true
  | .bsinit => true
  | .hbuild id => tableLegal id
  | .hsel id => tableLegal id
  | .hdec => true
  | .getb n => countLegal n

end Sys2Proof
end

