-- ==== Sys2Proof/Decode.lean ====
section
/-! DEFINITION. The decoder and the encoder of `30_encoding.md` R100 to R104. One command is one 32-bit
cell of `CMD` (R74, R100): there are no bytes to assemble. -/

namespace Sys2Proof

/-- Why a word is illegal: the cases (a) to (g) of rule R103. -/
inductive DecodeError where
  /-- (a) `w[31:24]` is no defined `op`. -/
  | unknownOp
  /-- (b) format C with `w[23:8] != 0`. -/
  | zeroField
  /-- (c) no operand is taken and `w[7:0] != 0`. -/
  | argNotZero
  /-- (d) a node number above 19. -/
  | nodeRange
  /-- (e) a table id above 7. -/
  | tableRange
  /-- (f) a bit count outside 1..16. -/
  | countRange
  /-- (g) `SETR` of a register that is not writable. -/
  | regNotWritable
deriving DecidableEq, Repr

/-- `op = w[31:24]` (R100). -/
def opField (w : Word) : BitVec 8 := w.extractLsb' 24 8

/-- `zero = w[23:8]` of format C (R100). -/
def zeroField (w : Word) : BitVec 16 := w.extractLsb' 8 16

/-- `arg = w[7:0]` of format C (R100). -/
def argField (w : Word) : BitVec 8 := w.extractLsb' 0 8

/-- `reg = w[23:16]` of format R (R100). -/
def regField (w : Word) : BitVec 8 := w.extractLsb' 16 8

/-- `imm16 = w[15:0]` of format R (R100). -/
def immField (w : Word) : BitVec 16 := w.extractLsb' 0 16

/-- `w[31:16]`, what `E_ILLEGAL` records (R103, R254). -/
def illegalInfo (w : Word) : Half := w.extractLsb' 16 16

/-- The index of a writable register (R24). -/
def WReg.index : WReg → BitVec 8
  | .cpstart => 0x06
  | .nnodes => 0x07
  | .width => 0x08
  | .height => 0x09
  | .lsz => 0x0A
  | .hsz => 0x0B
  | .bsptr => 0x0C
  | .bsend => 0x0D
  | .hdef => 0x11
  | .resptr => 0x17

/-- The writable register at an index (R103 (g)). -/
def WReg.ofIndex? (i : Nat) : Option WReg :=
  match i with
  | 0x06 => some .cpstart
  | 0x07 => some .nnodes
  | 0x08 => some .width
  | 0x09 => some .height
  | 0x0A => some .lsz
  | 0x0B => some .hsz
  | 0x0C => some .bsptr
  | 0x0D => some .bsend
  | 0x11 => some .hdef
  | 0x17 => some .resptr
  | _ => none

/-- A format C word of a command without an operand (R103 (b), (c)). -/
def decodeNone (w : Word) (i : Instr) : Except DecodeError Instr :=
  if zeroField w ≠ 0 then .error .zeroField
  else if argField w ≠ 0 then .error .argNotZero
  else .ok i

/-- A format C word of a command with an operand that must be `legal` (R103 (b), (d) to (f)). -/
def decodeArg (w : Word) (legal : BitVec 8 → Bool) (e : DecodeError) (mk : BitVec 8 → Instr) :
    Except DecodeError Instr :=
  if zeroField w ≠ 0 then .error .zeroField
  else if legal (argField w) then .ok (mk (argField w))
  else .error e

/-- A format R word (R100, R103 (g)). -/
def decodeSetr (w : Word) : Except DecodeError Instr :=
  match WReg.ofIndex? (regField w).toNat with
  | some r => .ok (.setr r (immField w))
  | none => .error .regNotWritable

/-- Decode of a fetched word: total, a command with its operands or illegal by name (R102, R103). -/
def decode (w : Word) : Except DecodeError Instr :=
  match (opField w).toNat with
  | 0x00 => decodeNone w .nop
  | 0x01 => decodeNone w .halt
  | 0x02 => decodeSetr w
  | 0x10 => decodeArg w nodeLegal .nodeRange .frow
  | 0x11 => decodeArg w nodeLegal .nodeRange .fcol
  | 0x12 => decodeArg w nodeLegal .nodeRange .icol
  | 0x13 => decodeArg w nodeLegal .nodeRange .irow
  | 0x14 => decodeNone w .decomp
  | 0x15 => decodeNone w .recon
  | 0x20 => decodeNone w .bsinit
  | 0x21 => decodeArg w tableLegal .tableRange .hbuild
  | 0x22 => decodeArg w tableLegal .tableRange .hsel
  | 0x23 => decodeNone w .hdec
  | 0x24 => decodeArg w countLegal .countRange .getb
  | _ => .error .unknownOp

/-- The `op` byte of a command (R102). -/
def Instr.op : Instr → BitVec 8
  | .nop => 0x00
  | .halt => 0x01
  | .setr _ _ => 0x02
  | .frow _ => 0x10
  | .fcol _ => 0x11
  | .icol _ => 0x12
  | .irow _ => 0x13
  | .decomp => 0x14
  | .recon => 0x15
  | .bsinit => 0x20
  | .hbuild _ => 0x21
  | .hsel _ => 0x22
  | .hdec => 0x23
  | .getb _ => 0x24

/-- Format C (R100). -/
def formatC (op arg : BitVec 8) : Word := (op ++ (0x0000#16 ++ arg) : BitVec (8 + (16 + 8)))

/-- Format R (R100). -/
def formatR (op reg : BitVec 8) (imm : BitVec 16) : Word := (op ++ (reg ++ imm) : BitVec (8 + (8 + 16)))

/-- The word of a command (R100, R102). -/
def encode (i : Instr) : Word :=
  match i with
  | .nop => formatC i.op 0
  | .halt => formatC i.op 0
  | .setr reg imm => formatR i.op reg.index imm
  | .frow node => formatC i.op node
  | .fcol node => formatC i.op node
  | .icol node => formatC i.op node
  | .irow node => formatC i.op node
  | .decomp => formatC i.op 0
  | .recon => formatC i.op 0
  | .bsinit => formatC i.op 0
  | .hbuild id => formatC i.op id
  | .hsel id => formatC i.op id
  | .hdec => formatC i.op 0
  | .getb n => formatC i.op n

/-- The word cell of a table row's number: bit 0 is the least significant bit of the word, every bit from
`nbits` on is 0. -/
def tableWord (nbits w : Nat) : Word := BitVec.ofNat 32 (w % 2 ^ nbits)

/-- The host's question: what this decoder reads from a table row's number. -/
def decodeTableWord (nbits w : Nat) : Option Instr :=
  match decode (tableWord nbits w) with
  | .ok i => some i
  | .error _ => none

end Sys2Proof
end

