-- ==== Sys2Proof/Machine/State.lean ====
section
/-! DEFINITION. The state of one WFE instance (`10_state.md`, `20_memory.md`) and its reset value. -/

namespace Sys2Proof.Machine

/-- A step never stops with a fault of the model's own: rule R253 gives every fault of the WFE an entry
(`ERR`, `ERRINFO`, `STATE <- FAULT`), which is a next state, so this type has no constructor. -/
inductive Fault where
deriving DecidableEq, Repr

/-- Why a step has no meaning. -/
inductive Refusal where
  /-- An arm of `exec` without a meaning; no arm raises it. Safe: a refused step proves nothing. -/
  | notModelled (mnemonic : String)
deriving DecidableEq, Repr

/-- `STATUS.STATE` (R27). -/
inductive RunState where
  /-- 0: after reset, no run yet. -/
  | idle
  /-- 1: a run is in progress. -/
  | run
  /-- 2: the last run ended at a `HALT`. -/
  | halted
  /-- 3: the last run ended at a fault. -/
  | fault
deriving DecidableEq, Repr

/-- One event at the host port or on the reset line, waiting to happen (R20, R70, R280). -/
inductive HostEvent where
  /-- `MemRead(space, index, n)`, `n` the cell width of the space. -/
  | read (space index : Nat)
  /-- `MemWrite(space, index, n, v)`; the low `n` bits of `value` are `v`. -/
  | write (space index : Nat) (value : Word)
  /-- The host leaves the next step to the sequencer (log entry 7). -/
  | engineTurn
  /-- Power-on or the platform's reset line (R280). -/
  | hardReset
deriving DecidableEq, Repr

/-- A memory: its written cells as pairs of cell index and value, indexes strictly rising. A cell that is
not listed is unwritten: it reads as no value (`Memory.lookup`, U1). -/
abbrev Memory (w : Nat) := List (Nat × BitVec w)

/-- The control registers of rule R24, each at the width of its fields; the bits above a field read 0
because they do not exist. `ID` is a constant and `CTRL` holds nothing (R25, R26), so neither is here. -/
structure Regs where
  /-- `STATUS.STATE` (R27). -/
  state : RunState
  /-- `STATUS.MKF`, marker found (R28). -/
  mkf : Bool
  /-- `STATUS.SYMV`, symbol valid (R28). -/
  symv : Bool
  /-- `STATUS.BITV`, bits valid (R28). -/
  bitv : Bool
  /-- `STATUS.WARN`, compliance warning (R28). -/
  warn : Bool
  /-- `STATUS.HOSTERR` (R29). -/
  hosterr : Bool
  /-- `ERR[7:0]` (R251). -/
  err : BitVec 8
  /-- `ERRINFO` (R251). -/
  errinfo : Half
  /-- `CP`, the command pointer (R23). -/
  cp : Half
  /-- `CPSTART` (R24, R120). -/
  cpstart : Half
  /-- `NNODES` (R31). -/
  nnodes : BitVec 5
  /-- `WIDTH` (R32). -/
  width : Half
  /-- `HEIGHT` (R32). -/
  height : Half
  /-- `LSZ` (R30). -/
  lsz : BitVec 5
  /-- `HSZ` (R30). -/
  hsz : BitVec 5
  /-- `BSPTR` (R33). -/
  bsptr : Half
  /-- `BSEND` (R33). -/
  bsend : Half
  /-- `BITCNT`, 0 to 8 (R34). -/
  bitcnt : BitVec 4
  /-- `BITBUF` (R34). -/
  bitbuf : Byte
  /-- `MARKER` (R35). -/
  marker : Half
  /-- `HDEF` (R36). -/
  hdef : BitVec 8
  /-- `HBUILT` (R37). -/
  hbuilt : BitVec 8
  /-- `HWARN` (R38). -/
  hwarn : BitVec 8
  /-- `HSELR.ID` (R39). -/
  hselId : BitVec 3
  /-- `HSELR.VALID` (R39). -/
  hselValid : Bool
  /-- `SYM`, the last decoded symbol (R24). -/
  sym : Byte
  /-- `BITS`, the last raw bits (R24). -/
  bits : Half
  /-- `RESPTR` (R46). -/
  resptr : Half
deriving DecidableEq, Repr

/-- The reset column of the table under rule R24 (R48). -/
def Regs.reset : Regs :=
  { state := .idle, mkf := false, symv := false, bitv := false, warn := false, hosterr := false
    err := 0, errinfo := 0, cp := 0, cpstart := 0, nnodes := 20, width := 0, height := 0, lsz := 0, hsz := 0
    bsptr := 0, bsend := 0, bitcnt := 0, bitbuf := 0, marker := 0, hdef := 0, hbuilt := 0, hwarn := 0
    hselId := 0, hselValid := false, sym := 0, bits := 0, resptr := 0 }

/-- One WFE instance with the host events that wait at its port. -/
structure State where
  /-- The parameters of rule R8; no step changes them. -/
  params : Params
  /-- The control registers (R24). -/
  regs : Regs
  /-- `CMD` (R45). -/
  cmd : Memory 32
  /-- `PLANE` (R44). -/
  plane : Memory 32
  /-- `LOTAP` (R41). -/
  lotap : Memory 32
  /-- `HITAP` (R41). -/
  hitap : Memory 32
  /-- `TREE`, cell `node * 8 + field` (R40, R70). -/
  tree : Memory 16
  /-- `HBITS`, cell `t * 16 + (l - 1)` (R42, R70). -/
  hbits : Memory 8
  /-- `HVAL`, cell `t * 256 + j` (R42, R70). -/
  hval : Memory 8
  /-- `BS` (R45). -/
  bs : Memory 8
  /-- `RES` (R46). -/
  res : Memory 16
  /-- `MINCODE`, `MAXCODE`, `VALPTR` as cells `t * 64 + arr * 16 + (l - 1)` (R43, R70). -/
  hder : Memory 16
  /-- `SCR`, the scratch plane (R44). -/
  scr : Memory 32
  /-- The model's own: which power-on period this is, the key of the unwritten cells' draws (U1, U3). -/
  powerOn : Nat
  /-- The model's own: the key of the unbuilt derived arrays' draws (U2). -/
  staleDraw : Nat
  /-- The model's own: the host events still to come, the next one first. -/
  pending : List HostEvent
  /-- The model's own: what the host's last read delivered. -/
  hostData : Word
deriving DecidableEq, Repr

/-- The machine after a hard reset, for any parameters: every register at its reset value, every memory
unspecified, that is, unwritten (R48, R280). -/
def State.resetWith (p : Params) : State :=
  { params := p, regs := Regs.reset
    cmd := [], plane := [], lotap := [], hitap := [], tree := [], hbits := [], hval := [], bs := [], res := []
    hder := [], scr := []
    powerOn := 0, staleDraw := 0, pending := [], hostData := 0 }

/-- The machine after a hard reset with the default parameters (R8, R48, R280). -/
def State.reset : State := State.resetWith Params.default

end Sys2Proof.Machine
end

