-- ==== Sys2Proof/Machine/Ops.lean ====
section
/-! DEFINITION. The named operations over memories and registers, and taking a fault
(`20_memory.md` R70 to R77, `60_exceptions.md` R251, R253). -/

namespace Sys2Proof.Machine

/-- What a memory holds at a cell; no value where nothing has written it. -/
def Memory.lookup {w : Nat} : Memory w → Nat → Option (BitVec w)
  | [], _ => none
  | (j, u) :: rest, i => if i = j then some u else Memory.lookup rest i

/-- Write one cell, keeping the indexes strictly rising. -/
def Memory.store {w : Nat} : Memory w → Nat → BitVec w → Memory w
  | [], i, v => [(i, v)]
  | (j, u) :: rest, i, v =>
    if i < j then (i, v) :: (j, u) :: rest
    else if i = j then (i, v) :: rest
    else (j, u) :: Memory.store rest i v

/-- Write a list of cells, in the order given. -/
def Memory.storeAll {w : Nat} (m : Memory w) : List (Nat × BitVec w) → Memory w
  | [] => m
  | (i, v) :: rest => Memory.storeAll (Memory.store m i v) rest

/-- Every listed index is above `lo` and they rise strictly. -/
def Memory.risesAbove {w : Nat} : Nat → Memory w → Bool
  | _, [] => true
  | lo, (j, _) :: rest => decide (lo < j) && Memory.risesAbove j rest

/-- The one canonical form: listed indexes strictly rising. A listed cell has a value and an unlisted one has
none, so no entry equals what an unlisted cell reads as. -/
def Memory.wf {w : Nat} : Memory w → Bool
  | [] => true
  | (j, _) :: rest => Memory.risesAbove j rest

/-- Every listed index is a cell of a memory of `n` cells (R70, R71). -/
def Memory.within {w : Nat} (n : Nat) : Memory w → Bool
  | [] => true
  | (j, _) :: rest => decide (j < n) && Memory.within n rest

/-- What a command or the host reads at a cell: what was written, else the cell's draw (U1, U3). -/
def State.cell {w : Nat} (s : State) (id : MemId) (m : Memory w) (i : Nat) : BitVec w :=
  (m.lookup i).getD (Config.unwrittenCell s.powerOn id i w)

/-- `PLANE[i]` (R12). -/
def State.planeAt (s : State) (i : Nat) : Word := s.cell .plane s.plane i

/-- `SCR[i]` (R12). -/
def State.scrAt (s : State) (i : Nat) : Word := s.cell .scr s.scr i

/-- `LOTAP[i]` (R12). -/
def State.lotapAt (s : State) (i : Nat) : Word := s.cell .lotap s.lotap i

/-- `HITAP[i]` (R12). -/
def State.hitapAt (s : State) (i : Nat) : Word := s.cell .hitap s.hitap i

/-- Cell `field` of tree entry `n` as it is stored (R40, R70). -/
def State.treeAt (s : State) (n field : Nat) : Half := s.cell .tree s.tree (n * 8 + field)

/-- `BS[i]` (R12). -/
def State.bsAt (s : State) (i : Nat) : Byte := s.cell .bs s.bs i

/-- `RES[i]` (R12). -/
def State.resAt (s : State) (i : Nat) : Half := s.cell .res s.res i

/-- `CMD[i]` (R12). -/
def State.cmdAt (s : State) (i : Nat) : Word := s.cell .cmd s.cmd i

/-- The cell index of `HBITS[t][l]` (R70). -/
def hbitsIndex (t l : Nat) : Nat := t * 16 + (l - 1)

/-- The cell index of `HVAL[t][j]` (R70). -/
def hvalIndex (t j : Nat) : Nat := t * 256 + j

/-- The derived arrays, in the order of their `arr` numbers (R70). -/
inductive DerivedArray where
  | mincode | maxcode | valptr
deriving DecidableEq, Repr

/-- The `arr` number of a derived array (R70). -/
def DerivedArray.number : DerivedArray → Nat
  | .mincode => 0
  | .maxcode => 1
  | .valptr => 2

/-- The cell index of `MINCODE[t][l]`, `MAXCODE[t][l]` or `VALPTR[t][l]` (R70). -/
def hderIndex (t : Nat) (arr : DerivedArray) (l : Nat) : Nat := t * 64 + arr.number * 16 + (l - 1)

/-- `HBITS[t][l]` (R12). -/
def State.hbitsAt (s : State) (t l : Nat) : Byte := s.cell .hbits s.hbits (hbitsIndex t l)

/-- `HVAL[t][j]` (R12). -/
def State.hvalAt (s : State) (t j : Nat) : Byte := s.cell .hval s.hval (hvalIndex t j)

/-- `MINCODE[t][l]` (R12). -/
def State.mincodeAt (s : State) (t l : Nat) : Half := s.cell .hder s.hder (hderIndex t .mincode l)

/-- `MAXCODE[t][l]` (R12). -/
def State.maxcodeAt (s : State) (t l : Nat) : Half := s.cell .hder s.hder (hderIndex t .maxcode l)

/-- `VALPTR[t][l]` (R12). -/
def State.valptrAt (s : State) (t l : Nat) : Half := s.cell .hder s.hder (hderIndex t .valptr l)

/-- The bit of one table in an 8-bit table mask (R36 to R38). -/
def tableBit (t : Nat) : BitVec 8 := 1#8 <<< t

/-- A mask with the bit of table `t` set. -/
def setTableBit (m : BitVec 8) (t : Nat) : BitVec 8 := m ||| tableBit t

/-- A mask with the bit of table `t` cleared. -/
def clearTableBit (m : BitVec 8) (t : Nat) : BitVec 8 := m &&& ~~~ (tableBit t)

/-- `HBUILT <- HBUILT and mask`: the tables outside `mask` may have lost their arrays, so what they read as
is drawn anew (R36, R37, U2). -/
def State.unbuild (s : State) (mask : BitVec 8) : State :=
  { s with regs.hbuilt := s.regs.hbuilt &&& mask, staleDraw := s.staleDraw + 1 }

/-- Append one entry to the results: `RES[RESPTR] <- v; RESPTR <- RESPTR + 1` (R46). -/
def State.appendResult (s : State) (v : Half) : State :=
  { s with res := s.res.store s.regs.resptr.toNat v, regs.resptr := s.regs.resptr + 1 }

/-- A register write through `SETR` or by the host (R24, R36, R127): the value is masked to the field. -/
def State.writeReg (s : State) (reg : WReg) (v : Half) : State :=
  match reg with
  | .cpstart => { s with regs.cpstart := v }
  | .nnodes => { s with regs.nnodes := v.setWidth 5 }
  | .width => { s with regs.width := v }
  | .height => { s with regs.height := v }
  | .lsz => { s with regs.lsz := v.setWidth 5 }
  | .hsz => { s with regs.hsz := v.setWidth 5 }
  | .bsptr => { s with regs.bsptr := v }
  | .bsend => { s with regs.bsend := v }
  | .hdef => { s.unbuild (v.setWidth 8) with regs.hdef := v.setWidth 8 }
  | .resptr => { s with regs.resptr := v }

/-- The value of a writable register, zero-extended (R24). -/
def Regs.readW (r : Regs) : WReg → Half
  | .cpstart => r.cpstart
  | .nnodes => r.nnodes.setWidth 16
  | .width => r.width
  | .height => r.height
  | .lsz => r.lsz.setWidth 16
  | .hsz => r.hsz.setWidth 16
  | .bsptr => r.bsptr
  | .bsend => r.bsend
  | .hdef => r.hdef.setWidth 16
  | .resptr => r.resptr

/-- The fault causes of rule R251. -/
inductive ErrCode where
  | illegal | fetch | cfg | geom | bounds | undef | htable | hcode
deriving DecidableEq, Repr

/-- The fault code that `ERR` records (R251). -/
def ErrCode.code : ErrCode → BitVec 8
  | .illegal => 1
  | .fetch => 2
  | .cfg => 3
  | .geom => 4
  | .bounds => 5
  | .undef => 6
  | .htable => 7
  | .hcode => 8

/-- Fault entry, `raise E_X(info)`: it writes `ERR`, `ERRINFO` and `STATE` and nothing else (R253). There is
no return from a fault; the way out is a reset (R259). -/
def State.raise (s : State) (e : ErrCode) (info : Half) : State :=
  { s with regs.err := e.code, regs.errinfo := info, regs.state := .fault }

/-- How the execution of a command ends: done, or at a `raise` with the effects made so far (R253). -/
inductive CmdResult where
  | done (s : State)
  | raised (s : State) (e : ErrCode) (info : Half)
deriving DecidableEq, Repr

/-- Go on after a part of a command that is done; a raised fault ends the command (R253). -/
def CmdResult.andThen (r : CmdResult) (k : State → CmdResult) : CmdResult :=
  match r with
  | .done s => k s
  | .raised s e info => .raised s e info

/-- `CP <- CP + 1`, the end of a step whose command is not `HALT` (R23, R121). -/
def State.advance (s : State) : State := { s with regs.cp := s.regs.cp + 1 }

/-- The end of a step of a command other than `HALT` (R121). -/
def finish (r : CmdResult) : Host.Outcome State Fault Refusal :=
  match r with
  | .done s => .next s.advance
  | .raised s e info => .next (s.raise e info)

/-- What a sequencer step comes to before its command executes. -/
inductive Fetched where
  /-- The sequencer is not running, or the step ended at fetch or decode: this is the next state. -/
  | stop (s : State)
  /-- This command is to be executed. -/
  | command (i : Instr)
deriving DecidableEq, Repr

/-- Fetch and decode (R121, R122, R254, R255, R259): outside `RUN` nothing happens; past the end of `CMD`
the step raises `E_FETCH`; an illegal word raises `E_ILLEGAL`. -/
def State.fetchDecode (s : State) : Fetched :=
  if s.regs.state ≠ .run then .stop s
  else if s.params.cmdWords ≤ s.regs.cp.toNat then .stop (s.raise .fetch s.regs.cp)
  else
    let w := s.cmdAt s.regs.cp.toNat
    match decode w with
    | .ok i => .command i
    | .error _ => .stop (s.raise .illegal (illegalInfo w))

end Sys2Proof.Machine
end

