-- ==== Sys2Proof/Machine/Operands.lean ====
section
/-! DEFINITION. The operand forms of `30_encoding.md` R101: a tree node, a table id, a bit count. Decode has
rejected every illegal operand (R103 (d) to (f)); the meanings are total, so an illegal operand raises here
the fault that decode raises for its word (R254). -/

namespace Sys2Proof.Machine

/-- The fault of a format C word whose operand is illegal: `ERRINFO = w[31:16]`, `op` and a zero byte
(R103, R254). -/
def illegalOperand (op : BitVec 8) (s : State) : CmdResult :=
  .raised s .illegal (op ++ 0#8 : BitVec (8 + 8))

/-- A command on a tree node, 0 to 19 (R101). -/
def withNode (op arg : BitVec 8) (s : State) (k : Nat → State → CmdResult) : CmdResult :=
  if nodeLegal arg then k arg.toNat s else illegalOperand op s

/-- A command on a Huffman table, 0 to 7 (R101). -/
def withTable (op arg : BitVec 8) (s : State) (k : Nat → State → CmdResult) : CmdResult :=
  if tableLegal arg then k arg.toNat s else illegalOperand op s

/-- A command with a bit count, 1 to 16 (R101). -/
def withCount (op arg : BitVec 8) (s : State) (k : Nat → State → CmdResult) : CmdResult :=
  if countLegal arg then k arg.toNat s else illegalOperand op s

/-- `fieldmask(reg)`, the bits of a written value that the register keeps (R127). -/
def fieldMask : WReg → Half
  | .nnodes => 0x001F
  | .lsz => 0x001F
  | .hsz => 0x001F
  | .hdef => 0x00FF
  | .cpstart => 0xFFFF
  | .width => 0xFFFF
  | .height => 0xFFFF
  | .bsptr => 0xFFFF
  | .bsend => 0xFFFF
  | .resptr => 0xFFFF

/-- A tree entry as the filter commands read it (R40, R141): of a flag cell only bit 0 is used. -/
structure Node where
  x0 : Nat
  y0 : Nat
  lx : Nat
  ly : Nat
  irw : Bool
  icl : Bool
deriving DecidableEq, Repr

/-- `TREE[n]` (R12, R40). -/
def State.node (s : State) (n : Nat) : Node :=
  { x0 := (s.treeAt n 0).toNat, y0 := (s.treeAt n 1).toNat
    lx := (s.treeAt n 2).toNat, ly := (s.treeAt n 3).toNat
    irw := (s.treeAt n 4).getLsbD 0, icl := (s.treeAt n 5).getLsbD 0 }

/-- The filter bank in use: the taps `0 .. LSZ-1` and `0 .. HSZ-1` as they stand in the tap memories. -/
structure Bank where
  lo : List Word
  hi : List Word
deriving DecidableEq, Repr

/-- The taps in use (R30, R140). -/
def State.bank (s : State) : Bank :=
  { lo := (List.range s.regs.lsz.toNat).map s.lotapAt
    hi := (List.range s.regs.hsz.toNat).map s.hitapAt }

end Sys2Proof.Machine
end

