-- ==== Sys2Proof/Machine/Line.lean ====
section
/-! DEFINITION. One line of a filter pass (`41_filter_analysis.md` R142 to R147, `42_filter_synthesis.md`
R171 to R176): boundary extension, sign rule, forward and inverse line functions, placement, acceptance. -/

namespace Sys2Proof.Machine

/-- `llen`, the length of the lowpass half (R13). -/
def llen (n : Nat) : Nat := (n + 1) / 2

/-- `hlen`, the length of the highpass half (R13). -/
def hlen (n : Nat) : Nat := n / 2

/-- The type of a left end: W whole-sample, H half-sample (R142). -/
inductive LeftEnd where
  | W | H
deriving DecidableEq, Repr

/-- The type of a right end: W, H, or Z, whose mirror point is a zero sample (R142). -/
inductive RightEnd where
  | W | H | Z
deriving DecidableEq, Repr

/-- How a sequence is extended: its end types and whether reflected samples change sign (R142). -/
structure Extension where
  left : LeftEnd
  right : RightEnd
  anti : Bool
deriving DecidableEq, Repr

/-- `wlo` of `window(n, Lt, Rt)` (R142). -/
def windowLo (n : Nat) (e : Extension) : Int :=
  match e.left with
  | .W => - ((n : Int) - 1)
  | .H => - (n : Int)

/-- `whi` of `window(n, Lt, Rt)` (R142). -/
def windowHi (n : Nat) (e : Extension) : Int :=
  match e.right with
  | .W => 2 * (n : Int) - 2
  | .H => 2 * (n : Int) - 1
  | .Z => 2 * (n : Int)

/-- `seq[j]`; inside the window of R142 the index is one of the sequence's. -/
def sampleAt (seq : List Word) (j : Int) : Word := seq.getD j.toNat 0

/-- A reflected sample (R142). -/
def reflected (seq : List Word) (anti : Bool) (j : Int) : Word :=
  if anti then fneg (sampleAt seq j) else sampleAt seq j

/-- `ext(seq, n, Lt, Rt, anti, k)` with `n` the length of `seq` (R142). -/
def ext (seq : List Word) (e : Extension) (k : Int) : Word :=
  let n : Int := seq.length
  if 0 ≤ k ∧ k ≤ n - 1 then sampleAt seq k
  else if k < 0 then
    match e.left with
    | .W => reflected seq e.anti (-k)
    | .H => reflected seq e.anti (-1 - k)
  else
    match e.right with
    | .W => reflected seq e.anti (2 * (n - 1) - k)
    | .H => reflected seq e.anti (2 * n - 1 - k)
    | .Z => if k = n then 0x00000000#32 else reflected seq e.anti (2 * n - k)

/-- The filter parity: odd when the tap count is (R30, R140). -/
def Bank.odd (b : Bank) : Bool := b.lo.length % 2 == 1

/-- `hi_eff`, the sign rule for the highpass taps (R143). -/
def Bank.hiEff (b : Bank) : List Word := if b.odd then b.hi else b.hi.map fneg

/-- The extension of the input line of the forward pass (R144). -/
def inputExt (odd : Bool) : Extension := if odd then ⟨.W, .W, false⟩ else ⟨.H, .H, false⟩

/-- The extension of the lowpass half (R173). -/
def lowExt (odd : Bool) (n : Nat) : Extension :=
  if odd then
    if n % 2 = 0 then ⟨.W, .H, false⟩ else ⟨.W, .W, false⟩
  else
    if n % 2 = 0 then ⟨.H, .H, false⟩ else ⟨.H, .W, false⟩

/-- The extension of the highpass half (R173). -/
def highExt (odd : Bool) (n : Nat) : Extension :=
  if odd then
    if n % 2 = 0 then ⟨.H, .W, false⟩ else ⟨.H, .H, false⟩
  else
    if n % 2 = 0 then ⟨.H, .H, true⟩ else ⟨.H, .Z, true⟩

/-- A sum of terms in the order given, each partial sum rounded (R11, R145, R175). The lists of terms of R145
and R175 are never empty. -/
def sumChain : List Word → Word
  | [] => 0
  | t :: ts => ts.foldl fadd t

/-- The index under tap 0 of lowpass output `k` (R145). -/
def lowStart (odd : Bool) (L k : Nat) : Int :=
  if odd then 2 * (k : Int) - ((L : Int) - 1) / 2 else 2 * (k : Int) - (L : Int) / 2 + 1

/-- The index under tap 0 of highpass output `k` (R145). -/
def highStart (odd : Bool) (H k : Nat) : Int :=
  if odd then 2 * (k : Int) - ((H : Int) - 1) / 2 + 1 else 2 * (k : Int) - (H : Int) / 2 + 1

/-- The inner product of taps with consecutive samples from index `e` on, in ascending tap order (R145). -/
def correlate (sample : Int → Word) (taps : List Word) (e : Int) : Word :=
  sumChain (taps.zipIdx.map fun ti => fmul (sample (e + ti.2)) ti.1)

/-- `ana_line(x, N)`, the forward line function: the lowpass and the highpass half (R145). -/
def anaLine (b : Bank) (x : List Word) : List Word × List Word :=
  let xe := ext x (inputExt b.odd)
  ((List.range (llen x.length)).map fun k => correlate xe b.lo (lowStart b.odd b.lo.length k),
   (List.range (hlen x.length)).map fun k => correlate xe b.hiEff (highStart b.odd b.hi.length k))

/-- The cells of a line from its halves (R146). -/
def place (inv : Bool) (halves : List Word × List Word) : List Word :=
  if inv then halves.2 ++ halves.1 else halves.1 ++ halves.2

/-- The halves of a line from its cells (R146, R171). -/
def unplace (inv : Bool) (c : List Word) : List Word × List Word :=
  if inv then (c.drop (hlen c.length), c.take (hlen c.length))
  else (c.take (llen c.length), c.drop (llen c.length))

/-- `FL` (R172). -/
def synFL (L : Nat) : Nat := L / 2

/-- `CH` (R172). -/
def synCH (H : Nat) : Nat := (H + 1) / 2

/-- The contributions of one half to output `n`, in ascending tap order: tap `i` meets sample
`(i - shift + n) / 2` where that is an integer (R175). -/
def synTerms (sample : Int → Word) (taps : List Word) (shift n : Nat) : List Word :=
  taps.zipIdx.filterMap fun ti =>
    let q : Int := (ti.2 : Int) - shift + n
    if q % 2 = 0 then some (fmul (sample (q / 2)) ti.1) else none

/-- `syn_line(a, d, N)`, the inverse line function: all lowpass terms, then all highpass terms (R175). -/
def synLine (b : Bank) (n : Nat) (halves : List Word × List Word) : List Word :=
  let ae := ext halves.1 (lowExt b.odd n)
  let de := ext halves.2 (highExt b.odd n)
  (List.range n).map fun j =>
    sumChain (synTerms ae b.lo (synFL b.lo.length) j ++ synTerms de b.hiEff (synCH b.hi.length) j)

/-- One line of the forward pass, cells to cells (R145, R146). -/
def forwardLine (b : Bank) (inv : Bool) (x : List Word) : List Word := place inv (anaLine b x)

/-- One line of the inverse pass, cells to cells (R171, R175). -/
def inverseLine (b : Bank) (inv : Bool) (c : List Word) : List Word := synLine b c.length (unplace inv c)

/-- `ana_ok(N)` for the tap counts `L` and `H` of one parity (R147). -/
def anaOk (L H N : Nat) : Bool :=
  if N < 2 then false
  else if L % 2 = 1 then
    let lmin : Int := - (((L : Int) - 1) / 2)
    let lmax : Int := 2 * ((llen N : Int) - 1) + ((L : Int) - 1) / 2
    let hmin : Int := - (((H : Int) - 1) / 2) + 1
    let hmax : Int := 2 * ((hlen N : Int) - 1) + ((H : Int) - 1) / 2 + 1
    decide (- ((N : Int) - 1) ≤ min lmin hmin) && decide (max lmax hmax ≤ 2 * (N : Int) - 2)
  else
    let lmin : Int := - ((L : Int) / 2) + 1
    let lmax : Int := 2 * ((llen N : Int) - 1) + (L : Int) / 2
    let hmin : Int := - ((H : Int) / 2) + 1
    let hmax : Int := 2 * ((hlen N : Int) - 1) + (H : Int) / 2
    decide (- (N : Int) ≤ min lmin hmin) && decide (max lmax hmax ≤ 2 * (N : Int) - 1)

/-- `syn_ok(N)` for the tap counts `L` and `H` of one parity (R176). -/
def synOk (L H N : Nat) : Bool :=
  if N < 2 then false
  else
    let odd := L % 2 == 1
    let amin : Int := - ((synFL L : Int) / 2)
    let amax : Int := ((L : Int) - 1 - synFL L + N - 1) / 2
    let dmin : Int := - ((synCH H : Int) / 2)
    let dmax : Int := ((H : Int) - 1 - synCH H + N - 1) / 2
    decide (windowLo (llen N) (lowExt odd N) ≤ amin) && decide (amax ≤ windowHi (llen N) (lowExt odd N)) &&
    decide (windowLo (hlen N) (highExt odd N) ≤ dmin) && decide (dmax ≤ windowHi (hlen N) (highExt odd N))

end Sys2Proof.Machine
end

