-- ==== Sys2Proof/Machine/Pass.lean ====
section
/-! DEFINITION. A row or column pass over one tree node: the checks every filter command makes
(`41_filter_analysis.md` R140, R141) and the four passes (R150, R151, R180, R181). -/

namespace Sys2Proof.Machine

/-- What a failed check raises: the fault and its `ERRINFO`. -/
abbrev Raise := ErrCode × Half

/-- `check_cfg()`: the first failing test gives `E_CFG` with its sub-code (R140, R256). -/
def State.checkCfg (s : State) : Option Raise :=
  let L := s.regs.lsz.toNat
  let H := s.regs.hsz.toNat
  if L < 2 ∨ 16 < L then some (.cfg, 1)
  else if H < 2 ∨ 16 < H then some (.cfg, 2)
  else if L % 2 ≠ H % 2 then some (.cfg, 3)
  else if s.regs.width = 0 ∨ s.regs.height = 0 then some (.cfg, 4)
  else if s.params.planeWords < s.regs.width.toNat * s.regs.height.toNat then some (.cfg, 5)
  else none

/-- `check_node(n)`: an empty node or one that reaches outside the plane gives `E_GEOM(n)` (R141, R257). -/
def State.checkNode (s : State) (n : Nat) : Option Raise :=
  let e := s.node n
  if e.lx = 0 ∨ e.ly = 0 then some (.geom, BitVec.ofNat 16 n)
  else if s.regs.width.toNat < e.x0 + e.lx then some (.geom, BitVec.ofNat 16 n)
  else if s.regs.height.toNat < e.y0 + e.ly then some (.geom, BitVec.ofNat 16 n)
  else none

/-- The line-length predicate of a pass, `E_GEOM(n)` where it fails (R147, R176, R257). -/
def checkLength (n : Nat) (ok : Bool) : Option Raise :=
  if ok then none else some (.geom, BitVec.ofNat 16 n)

/-- The first check that fails, in the order given (R261). -/
def firstRaise : List (Option Raise) → Option Raise
  | [] => none
  | some r :: _ => some r
  | none :: rest => firstRaise rest

/-- The four passes. -/
inductive Pass where
  /-- forward row pass, `PLANE` to `SCR` (R150) -/
  | frow
  /-- forward column pass, `SCR` to `PLANE` (R151) -/
  | fcol
  /-- inverse column pass, `PLANE` to `SCR` (R180) -/
  | icol
  /-- inverse row pass, `SCR` to `PLANE` (R181) -/
  | irow
deriving DecidableEq, Repr

/-- A pass runs along rows: its lines are the region's rows. -/
def Pass.alongRows : Pass → Bool
  | .frow => true
  | .fcol => false
  | .icol => false
  | .irow => true

/-- A pass is a forward one. -/
def Pass.forward : Pass → Bool
  | .frow => true
  | .fcol => true
  | .icol => false
  | .irow => false

/-- A pass reads `PLANE` and writes `SCR`; the others read `SCR` and write `PLANE`. -/
def Pass.fromPlane : Pass → Bool
  | .frow => true
  | .fcol => false
  | .icol => true
  | .irow => false

/-- `N`, the length of a line of the pass. -/
def Pass.lineLength (p : Pass) (e : Node) : Nat := if p.alongRows then e.lx else e.ly

/-- How many lines the pass has. -/
def Pass.lineCount (p : Pass) (e : Node) : Nat := if p.alongRows then e.ly else e.lx

/-- The inversion flag of the pass's direction (R146). -/
def Pass.inverted (p : Pass) (e : Node) : Bool := if p.alongRows then e.irw else e.icl

/-- The plane index of sample `(x, y)` (R32). -/
def planeIndex (width x y : Nat) : Nat := y * width + x

/-- The plane index of cell `j` of line `m` of the region. -/
def Pass.cellIndex (p : Pass) (width : Nat) (e : Node) (m j : Nat) : Nat :=
  if p.alongRows then planeIndex width (e.x0 + j) (e.y0 + m) else planeIndex width (e.x0 + m) (e.y0 + j)

/-- The acceptance of a line length (R147, R176). -/
def Pass.accepts (p : Pass) (L H N : Nat) : Bool := if p.forward then anaOk L H N else synOk L H N

/-- One line of the pass, cells to cells. -/
def Pass.line (p : Pass) (b : Bank) (inv : Bool) (c : List Word) : List Word :=
  if p.forward then forwardLine b inv c else inverseLine b inv c

/-- What a pass reads at a plane index. -/
def Pass.source (p : Pass) (s : State) (i : Nat) : Word := if p.fromPlane then s.planeAt i else s.scrAt i

/-- The cells of line `m` before the pass. -/
def Pass.input (p : Pass) (s : State) (e : Node) (m : Nat) : List Word :=
  (List.range (p.lineLength e)).map fun j => p.source s (p.cellIndex s.regs.width.toNat e m j)

/-- The cells of line `m` that the pass writes. -/
def Pass.output (p : Pass) (s : State) (e : Node) (m : Nat) : List Word :=
  p.line s.bank (p.inverted e) (p.input s e m)

/-- What the pass writes for line `m`: plane indexes with values, in ascending cell order. -/
def Pass.lineWrites (p : Pass) (s : State) (e : Node) (m : Nat) : List (Nat × Word) :=
  ((List.range (p.lineLength e)).map fun j => p.cellIndex s.regs.width.toNat e m j).zip (p.output s e m)

/-- Everything the pass writes, line by line. The memory it writes is not the one it reads, so every line may
be computed from the state before the pass (D7). -/
def Pass.writes (p : Pass) (s : State) (e : Node) : List (Nat × Word) :=
  (List.range (p.lineCount e)).flatMap fun m => p.lineWrites s e m

/-- The state after the writes of a pass: only `SCR` or only `PLANE` changes. -/
def Pass.apply (p : Pass) (s : State) (e : Node) : State :=
  if p.fromPlane then { s with scr := s.scr.storeAll (p.writes s e) }
  else { s with plane := s.plane.storeAll (p.writes s e) }

/-- The checks of a pass over node `n`, in their order: configuration, node, line length (R150, R261). -/
def Pass.check (p : Pass) (n : Nat) (s : State) : Option Raise :=
  firstRaise [s.checkCfg, s.checkNode n,
    checkLength n (p.accepts s.regs.lsz.toNat s.regs.hsz.toNat (p.lineLength (s.node n)))]

/-- A pass over tree node `n`: every check precedes the first write (R150, R151, R180, R181). -/
def Pass.run (p : Pass) (n : Nat) (s : State) : CmdResult :=
  match p.check n s with
  | some (e, info) => .raised s e info
  | none => .done (p.apply s (s.node n))

/-- `first n ; second n` for each node of the list, ended by the first fault (R152, R182). -/
def runNodes (first second : Pass) : List Nat → State → CmdResult
  | [], s => .done s
  | n :: rest, s => ((first.run n s).andThen (second.run n)).andThen (runNodes first second rest)

/-- The whole-tree commands' own check, `NNODES > 20` (R31, R152, R182). -/
def wholeTree (s : State) (k : State → CmdResult) : CmdResult :=
  if Config.nTree < s.regs.nnodes.toNat then .raised s .cfg 6 else k s

end Sys2Proof.Machine
end

