-- ==== Sys2Proof/Machine/Analysis.lean ====
section
/-! DEFINITION. The forward filter commands (`41_filter_analysis.md` R150 to R152). -/

namespace Sys2Proof.Machine

/-- `FROW node` (R150). -/
def execFrow (node : BitVec 8) (s : State) : Host.Outcome State Fault Refusal :=
  finish (withNode 0x10 node s (Pass.run .frow))

/-- `FCOL node` (R151). -/
def execFcol (node : BitVec 8) (s : State) : Host.Outcome State Fault Refusal :=
  finish (withNode 0x11 node s (Pass.run .fcol))

/-- `DECOMP`: `FROW n ; FCOL n` for `n` ascending from 0 (R152). -/
def execDecomp (s : State) : Host.Outcome State Fault Refusal :=
  finish (wholeTree s (runNodes .frow .fcol (List.range s.regs.nnodes.toNat)))

end Sys2Proof.Machine
end

