-- ==== Sys2Proof/Machine/Flags.lean ====
section
/-! DEFINITION. The flags of `STATUS` and the per-table flags (`10_state.md` R27, R28, R36 to R39). -/

namespace Sys2Proof.Machine

/-- The two bits of `STATUS.STATE` (R27). -/
def RunState.bits : RunState → BitVec 2
  | .idle => 0
  | .run => 1
  | .halted => 2
  | .fault => 3

/-- `STATUS` read whole: bits 15:7 read 0 (R24, R27, R28). -/
def Regs.statusWord (r : Regs) : Half :=
  (0#9 ++ (BitVec.ofBool r.hosterr ++ (BitVec.ofBool r.warn ++ (BitVec.ofBool r.bitv ++
    (BitVec.ofBool r.symv ++ (BitVec.ofBool r.mkf ++ r.state.bits))))) : BitVec (9 + (1 + (1 + (1 + (1 + (1 + 2)))))))

/-- `HSELR` read whole: `ID` in bits 2:0, `VALID` in bit 8, the others 0 (R24, R39). -/
def Regs.hselrWord (r : Regs) : Half :=
  (0#7 ++ (BitVec.ofBool r.hselValid ++ (0#5 ++ r.hselId)) : BitVec (7 + (1 + (5 + 3))))

/-- The bit reader met a marker with this second byte: `MARKER <- 0xFF00 + b2; MKF <- 1` (R28, R35, R210). -/
def State.setMarker (s : State) (b2 : Byte) : State :=
  { s with regs.marker := (0xFF#8 ++ b2 : BitVec (8 + 8)), regs.mkf := true }

/-- `BSINIT`'s clearing of the accumulator, `MARKER` and `MKF` (R28, R220). -/
def State.clearReader (s : State) : State :=
  { s with regs.bitcnt := 0, regs.bitbuf := 0, regs.marker := 0, regs.mkf := false }

/-- `SYMV <- 0`, the start of an `HDEC` past its table check (R28, R223). -/
def State.clearSymv (s : State) : State := { s with regs.symv := false }

/-- `BITV <- 0`, the start of a `GETB` (R28, R224). -/
def State.clearBitv (s : State) : State := { s with regs.bitv := false }

/-- `HDEC` delivers a symbol: `SYM`, `SYMV` and the append to `RES` (R28, R46, R223). -/
def State.deliverSymbol (s : State) (v : Byte) : State :=
  State.appendResult { s with regs.sym := v, regs.symv := true } (v.setWidth 16)

/-- `GETB` delivers its bits: `BITS`, `BITV` and the append to `RES` (R28, R46, R224). -/
def State.deliverBits (s : State) (v : Half) : State :=
  State.appendResult { s with regs.bits := v, regs.bitv := true } v

/-- The flags a successful `HBUILD t` writes: `HWARN[t] <- allones`, `WARN` set if all ones, `HBUILT[t] <- 1`
(R28, R37, R38, R221). -/
def State.markBuilt (s : State) (t : Nat) (allones : Bool) : State :=
  { s with
    regs.hwarn := if allones then setTableBit s.regs.hwarn t else clearTableBit s.regs.hwarn t
    regs.warn := s.regs.warn || allones
    regs.hbuilt := setTableBit s.regs.hbuilt t }

/-- `HSELR.ID <- t; HSELR.VALID <- 1` (R39, R222). -/
def State.select (s : State) (t : Nat) : State :=
  { s with regs.hselId := BitVec.ofNat 3 t, regs.hselValid := true }

/-- `HOSTERR <- 1` (R28, R29). -/
def State.setHosterr (s : State) : State := { s with regs.hosterr := true }

end Sys2Proof.Machine
end

