-- ==== Sys2Proof/Machine/BitReader.lean ====
section
/-! DEFINITION. The bit reader (`43_huffman_decoder.md` R210, R211). -/

namespace Sys2Proof.Machine

/-- `GetByte()`: a byte, or `E_BOUNDS` with the index that could not be read (R33, R210). -/
inductive ByteResult where
  | byte (b : Byte) (s : State)
  | bounds (s : State) (info : Half)
deriving DecidableEq, Repr

/-- `NextBit()`: a bit, a marker, or `E_BOUNDS` (R210). -/
inductive BitResult where
  | bit (b : Bool) (s : State)
  | marker (s : State)
  | bounds (s : State) (info : Half)
deriving DecidableEq, Repr

/-- `GetByte()` (R33, R210). -/
def State.getByte (s : State) : ByteResult :=
  let p := s.regs.bsptr
  if s.regs.bsend.toNat ≤ p.toNat ∨ s.params.bsBytes ≤ p.toNat then .bounds s p
  else .byte (s.bsAt p.toNat) { s with regs.bsptr := p + 1 }

/-- The next bit of a non-empty accumulator: `BITCNT <- BITCNT - 1`, deliver `BITBUF[BITCNT]` (R34, R210). -/
def State.takeBit (s : State) : BitResult :=
  let cnt := s.regs.bitcnt - 1
  .bit (s.regs.bitbuf.getLsbD cnt.toNat) { s with regs.bitcnt := cnt }

/-- A data byte enters the accumulator: `BITBUF <- b; BITCNT <- 8` (R210). -/
def State.loadByte (s : State) (b : Byte) : State := { s with regs.bitbuf := b, regs.bitcnt := 8 }

/-- `NextBit()` (R210): bit 7 of a byte first; an all-ones byte is data when a zero byte follows, which is
dropped, and a marker when another byte follows. -/
def State.nextBit (s : State) : BitResult :=
  if s.regs.bitcnt = 0 then
    match s.getByte with
    | .bounds s1 info => .bounds s1 info
    | .byte b s1 =>
      if b = 0xFF#8 then
        match s1.getByte with
        | .bounds s2 info => .bounds s2 info
        | .byte b2 s2 =>
          if b2 = 0x00#8 then (s2.loadByte b).takeBit
          else .marker (s2.setMarker b2)
      else (s1.loadByte b).takeBit
  else s.takeBit

/-- Reading several bits: all of them as a number, first bit most significant, or stopped. -/
inductive BitsResult where
  | value (v : Nat) (s : State)
  | marker (s : State)
  | bounds (s : State) (info : Half)
deriving DecidableEq, Repr

/-- `n` more bits after those accumulated in `v` (R224). -/
def State.readBits (s : State) : Nat → Nat → BitsResult
  | 0, v => .value v s
  | n + 1, v =>
    match s.nextBit with
    | .bit b s1 => s1.readBits n (2 * v + b.toNat)
    | .marker s1 => .marker s1
    | .bounds s1 info => .bounds s1 info

end Sys2Proof.Machine
end

