-- ==== Sys2Proof/Machine/Huffman.lean ====
section
/-! DEFINITION. The canonical code of a table (`43_huffman_decoder.md` R215), its reconstruction (R221) and
the code-to-symbol lookup (R223). -/

namespace Sys2Proof.Machine

/-- `n_l = HBITS[t][l]` as a number (R215). -/
def State.count (s : State) (t l : Nat) : Nat := (s.hbitsAt t l).toNat

/-- `n_1 + ... + n_l` (R215). -/
def countsUpTo (n : Nat → Nat) : Nat → Nat
  | 0 => 0
  | l + 1 => countsUpTo n l + n (l + 1)

/-- The first code of length `l`, that is, the running value of rule R221's loop before length `l`. -/
def firstCode (n : Nat → Nat) : Nat → Nat
  | 0 => 0
  | l + 1 => 2 * (firstCode n l + (if l = 0 then 0 else n l))

/-- `first_l + n_l <= 2^l` for every length up to `k` (R215). -/
def codesFit (n : Nat → Nat) : Nat → Bool
  | 0 => true
  | l + 1 => codesFit n l && decide (firstCode n (l + 1) + n (l + 1) ≤ 2 ^ (l + 1))

/-- The table is valid (R215). -/
def tableValid (n : Nat → Nat) : Bool :=
  decide (countsUpTo n Config.maxBits ≤ Config.maxSym) && codesFit n Config.maxBits

/-- The length of the `j`-th symbol's code: the least `l` of `1 .. 16` with `j < n_1 + ... + n_l`; 0 for an
index past the last symbol, which has no code (R215). -/
def codeSize (n : Nat → Nat) (j : Nat) : Nat :=
  (((List.range Config.maxBits).map (· + 1)).find? fun l => decide (j < countsUpTo n l)).getD 0

/-- `code(j)`, the code of the `j`-th symbol (R215). -/
def codeOf (n : Nat → Nat) : Nat → Nat
  | 0 => 0
  | j + 1 => (codeOf n j + 1) * 2 ^ (codeSize n (j + 1) - codeSize n j)

/-- `MINCODE`, `MAXCODE` and `VALPTR` at length `l` as rule R221 fills them; a length without codes holds the
filler. -/
def derivedOf (n : Nat → Nat) (l : Nat) : Nat × Nat × Nat :=
  if n l = 0 then (0, 0xFFFF, 0) else (firstCode n l, firstCode n l + n l - 1, countsUpTo n (l - 1))

/-- Some length's last code is all ones (R38, R221). -/
def hasAllOnes (n : Nat → Nat) : Bool :=
  ((List.range Config.maxBits).map (· + 1)).any fun l => decide (n l ≠ 0) && decide (firstCode n l + n l = 2 ^ l)

/-- A write of one length's three derived values (R43, R70). -/
def derivedWrites (t l : Nat) (mincode maxcode valptr : Nat) : List (Nat × Half) :=
  [(hderIndex t .valptr l, BitVec.ofNat 16 valptr), (hderIndex t .mincode l, BitVec.ofNat 16 mincode),
   (hderIndex t .maxcode l, BitVec.ofNat 16 maxcode)]

/-- Where the reconstruction loop of rule R221 ends: all lengths done, or stopped at a length with more codes
than fit. -/
inductive BuildResult where
  | built (m : Memory 16) (allones : Bool)
  | overflow (m : Memory 16)
deriving DecidableEq, Repr

/-- The loop of rule R221 over the lengths `l .. l + k - 1`: `n` the counts, `m` the derived arrays, then the
running `code`, `p` and `allones`. -/
def buildLoop (t : Nat) (n : Nat → Nat) : (k l : Nat) → Memory 16 → (code p : Nat) → Bool → BuildResult
  | 0, _, m, _, _, allones => .built m allones
  | k + 1, l, m, code, p, allones =>
    if n l = 0 then
      buildLoop t n k (l + 1) (m.storeAll (derivedWrites t l 0 0xFFFF 0)) (code * 2) p allones
    else if 2 ^ l < code + n l then .overflow m
    else
      buildLoop t n k (l + 1) (m.storeAll (derivedWrites t l code (code + n l - 1) p)) ((code + n l) * 2) (p + n l)
        (allones || decide (code + n l - 1 = 2 ^ l - 1))

/-- The match test of rule R223 at length `l`: the code is one of table `t`'s codes of that length. -/
def State.codeMatches (s : State) (t l code : Nat) : Bool :=
  decide (s.hbitsAt t l ≠ 0) && decide ((s.mincodeAt t l).toNat ≤ code) && decide (code ≤ (s.maxcodeAt t l).toNat)

/-- `HVAL[t][VALPTR[t][l] + code - MINCODE[t][l]]` (R223). -/
def State.symbolOf (s : State) (t l code : Nat) : Byte :=
  s.hvalAt t ((s.valptrAt t l).toNat + code - (s.mincodeAt t l).toNat)

/-- The loop of rule R223 over the lengths `l .. l + k - 1`, with the bits read so far in `code`. -/
def State.decodeLoop (s : State) (t : Nat) : (k l code : Nat) → CmdResult
  | 0, _, code => .raised s .hcode (BitVec.ofNat 16 code)
  | k + 1, l, code =>
    match s.nextBit with
    | .marker s1 => .done s1
    | .bounds s1 info => .raised s1 .bounds info
    | .bit b s1 =>
      let code' := 2 * code + b.toNat
      if s1.codeMatches t l code' then .done (s1.deliverSymbol (s1.symbolOf t l code'))
      else s1.decodeLoop t k (l + 1) code'

end Sys2Proof.Machine
end

