-- ==== Sys2Proof/Machine/HuffmanCommands.lean ====
section
/-! DEFINITION. The Huffman decoder's commands (`43_huffman_decoder.md` R220 to R224). -/

namespace Sys2Proof.Machine

/-- `BSINIT` (R220). -/
def execBsinit (s : State) : Host.Outcome State Fault Refusal := finish (.done s.clearReader)

/-- The body of `HBUILD t` (R221). -/
def hbuildTable (t : Nat) (s : State) : CmdResult :=
  if s.regs.hdef.getLsbD t = false then .raised s .undef (BitVec.ofNat 16 t)
  else
    let s1 := s.unbuild (~~~ (tableBit t))
    if Config.maxSym < countsUpTo (s.count t) Config.maxBits then .raised s1 .htable (BitVec.ofNat 16 t)
    else
      match buildLoop t (s.count t) Config.maxBits 1 s.hder 0 0 false with
      | .overflow m => .raised { s1 with hder := m } .htable (BitVec.ofNat 16 t)
      | .built m allones => .done (State.markBuilt { s1 with hder := m } t allones)

/-- `HBUILD id` (R221). -/
def execHbuild (id : BitVec 8) (s : State) : Host.Outcome State Fault Refusal :=
  finish (withTable 0x21 id s hbuildTable)

/-- The body of `HSEL t` (R222). -/
def hselTable (t : Nat) (s : State) : CmdResult :=
  if s.regs.hbuilt.getLsbD t then .done (s.select t) else .raised s .undef (BitVec.ofNat 16 t)

/-- `HSEL id` (R222). -/
def execHsel (id : BitVec 8) (s : State) : Host.Outcome State Fault Refusal :=
  finish (withTable 0x22 id s hselTable)

/-- The checks `HDEC` and `GETB` make before they read a bit: at a marker nothing happens; a full `RES` is
`E_BOUNDS` (R46, R211, R223, R224). -/
def readerReady (s : State) (k : State → CmdResult) : CmdResult :=
  if s.regs.mkf then .done s
  else if s.params.resWords ≤ s.regs.resptr.toNat then .raised s .bounds s.regs.resptr
  else k s

/-- `HDEC` (R223). -/
def execHdec (s : State) : Host.Outcome State Fault Refusal :=
  let t := s.regs.hselId.toNat
  finish
    (if s.regs.hselValid = false then .raised s .undef 0xFFFF
     else if s.regs.hbuilt.getLsbD t = false then .raised s .undef (BitVec.ofNat 16 t)
     else readerReady s.clearSymv fun s1 => s1.decodeLoop t Config.maxBits 1 0)

/-- The body of `GETB n` (R224). -/
def getbCount (n : Nat) (s : State) : CmdResult :=
  readerReady s.clearBitv fun s1 =>
    match s1.readBits n 0 with
    | .value v s2 => .done (s2.deliverBits (BitVec.ofNat 16 v))
    | .marker s2 => .done s2
    | .bounds s2 info => .raised s2 .bounds info

/-- `GETB n` (R224). -/
def execGetb (n : BitVec 8) (s : State) : Host.Outcome State Fault Refusal :=
  finish (withCount 0x24 n s getbCount)

end Sys2Proof.Machine
end

