-- ==== Sys2Proof/Machine/Sequencer.lean ====
section
/-! DEFINITION. The sequencer's commands (`40_sequencer.md` R125 to R127). -/

namespace Sys2Proof.Machine

/-- `NOP` (R125). -/
def execNop (s : State) : Host.Outcome State Fault Refusal := finish (.done s)

/-- `HALT`: `STATE <- HALTED`; `CP` keeps the index of the `HALT` (R126). -/
def execHalt (s : State) : Host.Outcome State Fault Refusal := .next { s with regs.state := .halted }

/-- `SETR reg, imm16` (R127). -/
def execSetr (reg : WReg) (imm : BitVec 16) (s : State) : Host.Outcome State Fault Refusal :=
  finish (.done (s.writeReg reg imm))

end Sys2Proof.Machine
end

