-- ==== Sys2Proof/Machine/Synthesis.lean ====
section
/-! DEFINITION. The inverse filter commands (`42_filter_synthesis.md` R180 to R182). -/

namespace Sys2Proof.Machine

/-- `ICOL node` (R180). -/
def execIcol (node : BitVec 8) (s : State) : Host.Outcome State Fault Refusal :=
  finish (withNode 0x12 node s (Pass.run .icol))

/-- `IROW node` (R181). -/
def execIrow (node : BitVec 8) (s : State) : Host.Outcome State Fault Refusal :=
  finish (withNode 0x13 node s (Pass.run .irow))

/-- `RECON`: `ICOL n ; IROW n` for `n` descending to 0 (R182). -/
def execRecon (s : State) : Host.Outcome State Fault Refusal :=
  finish (wholeTree s (runNodes .icol .irow (List.range s.regs.nnodes.toNat).reverse))

end Sys2Proof.Machine
end

