-- ==== Sys2Proof/Machine/Dispatch.lean ====
section
/-! DEFINITION. Each command's meaning (`30_encoding.md` R102). -/

namespace Sys2Proof.Machine

def exec (i : Instr) (s : State) : Host.Outcome State Fault Refusal :=
  match i with
  | .nop => Sys2Proof.Machine.execNop s
  | .halt => Sys2Proof.Machine.execHalt s
  | .setr reg imm => Sys2Proof.Machine.execSetr reg imm s
  | .frow node => Sys2Proof.Machine.execFrow node s
  | .fcol node => Sys2Proof.Machine.execFcol node s
  | .icol node => Sys2Proof.Machine.execIcol node s
  | .irow node => Sys2Proof.Machine.execIrow node s
  | .decomp => Sys2Proof.Machine.execDecomp s
  | .recon => Sys2Proof.Machine.execRecon s
  | .bsinit => Sys2Proof.Machine.execBsinit s
  | .hbuild id => Sys2Proof.Machine.execHbuild id s
  | .hsel id => Sys2Proof.Machine.execHsel id s
  | .hdec => Sys2Proof.Machine.execHdec s
  | .getb n => Sys2Proof.Machine.execGetb n s

end Sys2Proof.Machine
end

