-- ==== Sys2Proof/Machine/HostPort.lean ====
section
/-! DEFINITION. The host port and reset (`20_memory.md` R70, R71, R77, `10_state.md` R24 to R29,
`40_sequencer.md` R120, `70_reset_and_hazards.md` R280, R281). -/

namespace Sys2Proof.Machine

/-- `ID` reads 0x5751 always (R25). -/
def idValue : Half := 0x5751

/-- Register `i` as the host reads it, no value at an unimplemented index (R24, R29). -/
def Regs.hostRead (r : Regs) (i : Nat) : Option Half :=
  match i with
  | 0x00 => some idValue
  | 0x01 => some 0
  | 0x02 => some r.statusWord
  | 0x03 => some (r.err.setWidth 16)
  | 0x04 => some r.errinfo
  | 0x05 => some r.cp
  | 0x0E => some (r.bitcnt.setWidth 16)
  | 0x0F => some (r.bitbuf.setWidth 16)
  | 0x10 => some r.marker
  | 0x12 => some (r.hbuilt.setWidth 16)
  | 0x13 => some (r.hwarn.setWidth 16)
  | 0x14 => some r.hselrWord
  | 0x15 => some (r.sym.setWidth 16)
  | 0x16 => some r.bits
  | i => (WReg.ofIndex? i).map r.readW

/-- The memory of a space number other than `REG`'s (R70, R71). -/
def spaceMem : Nat → Option MemId
  | 1 => some .cmd
  | 2 => some .plane
  | 3 => some .lotap
  | 4 => some .hitap
  | 5 => some .tree
  | 6 => some .hbits
  | 7 => some .hval
  | 8 => some .bs
  | 9 => some .res
  | 10 => some .hder
  | _ => none

/-- What the host reads in a `TREE` cell: of a flag cell only bit 0, of a reserved cell 0 (R40, R71). -/
def treeReadMask (i : Nat) (v : Half) : Half :=
  if i % 8 < 4 then v else if i % 8 < 6 then v &&& 1 else 0

/-- What the host reads in an `HDER` cell: 0 in the reserved array, any value while the table is not built,
else the derived value (R43, R70, R71, U2). -/
def State.hderRead (s : State) (i : Nat) : Half :=
  if i % 64 / 16 = 3 then 0
  else if s.regs.hbuilt.getLsbD (i / 64) then s.cell .hder s.hder i
  else Config.staleDerived s.staleDraw i

/-- What the host reads at cell `i` of a memory (R70). -/
def State.memRead (s : State) (id : MemId) (i : Nat) : Word :=
  match id with
  | .cmd => s.cmdAt i
  | .plane => s.planeAt i
  | .lotap => s.lotapAt i
  | .hitap => s.hitapAt i
  | .tree => (treeReadMask i (s.cell .tree s.tree i)).setWidth 32
  | .hbits => (s.cell .hbits s.hbits i).setWidth 32
  | .hval => (s.cell .hval s.hval i).setWidth 32
  | .bs => (s.bsAt i).setWidth 32
  | .res => (s.resAt i).setWidth 32
  | .hder => (s.hderRead i).setWidth 32
  | .scr => 0

/-- What `MemRead(space, index)` delivers; no value where the access is refused (R29, R71). -/
def State.hostValue (s : State) (space index : Nat) : Option Word :=
  if space = 0 then (s.regs.hostRead index).map (·.setWidth 32)
  else if s.regs.state = .run then none
  else
    match spaceMem space with
    | none => none
    | some id => if index < id.cells s.params then some (s.memRead id index) else none

/-- `MemRead(space, index, n)`: a refused read returns 0 and sets `HOSTERR`; no read has another effect
(R29, R71, R77). -/
def State.hostRead (s : State) (space index : Nat) : State :=
  match s.hostValue space index with
  | some v => { s with hostData := v }
  | none => { s.setHosterr with hostData := 0 }

/-- Start of a run (R120): from `IDLE` or `HALTED`, `CP <- CPSTART; STATE <- RUN`; ignored in `FAULT`. -/
def State.start (s : State) : State :=
  match s.regs.state with
  | .idle => { s with regs.cp := s.regs.cpstart, regs.state := .run }
  | .halted => { s with regs.cp := s.regs.cpstart, regs.state := .run }
  | .fault => s
  | .run => s

/-- Soft reset: the registers as after a hard reset, every memory as it was (R48, R281). -/
def State.softReset (s : State) : State :=
  { s with regs := Regs.reset, staleDraw := s.staleDraw + 1 }

/-- Hard reset: the registers at their reset values, every memory unspecified, that is, unwritten with new
draws (R48, R280, U1, U3, U8). -/
def State.hardReset (s : State) : State :=
  { State.resetWith s.params with
    powerOn := s.powerOn + 1, staleDraw := s.staleDraw + 1, pending := s.pending, hostData := s.hostData }

/-- A write of `CTRL` while the engine is not running: `RST` wins over `START` (R26, R281). -/
def State.writeCtrl (s : State) (v : Half) : State :=
  if v.getLsbD 1 then s.softReset else if v.getLsbD 0 then s.start else s

/-- A register write by the host while the engine is not running (R24, R26, R29). -/
def State.hostWriteReg (s : State) (i : Nat) (v : Half) : State :=
  if i = 0x01 then s.writeCtrl v
  else
    match WReg.ofIndex? i with
    | some r => s.writeReg r v
    | none => s.setHosterr

/-- A memory write by the host while the engine is not running: a write into a table's definition unbuilds the
table; `HDER` is read-only but for its reserved cells, where a write is ignored (R37, R70, R71, R77). -/
def State.hostWriteMem (s : State) (id : MemId) (i : Nat) (v : Word) : State :=
  match id with
  | .cmd => { s with cmd := s.cmd.store i v }
  | .plane => { s with plane := s.plane.store i v }
  | .lotap => { s with lotap := s.lotap.store i v }
  | .hitap => { s with hitap := s.hitap.store i v }
  | .tree =>
    if i % 8 < 6 then { s with tree := s.tree.store i (treeReadMask i (v.setWidth 16)) } else s
  | .hbits => { s.unbuild (~~~ (tableBit (i / 16))) with hbits := s.hbits.store i (v.setWidth 8) }
  | .hval => { s.unbuild (~~~ (tableBit (i / 256))) with hval := s.hval.store i (v.setWidth 8) }
  | .bs => { s with bs := s.bs.store i (v.setWidth 8) }
  | .res => { s with res := s.res.store i (v.setWidth 16) }
  | .hder => if i % 64 / 16 = 3 then s else s.setHosterr
  | .scr => s.setHosterr

/-- `MemWrite(space, index, n, v)`: refused during a run, at a number that is no space and past the end of a
space (R29, R71, R78). -/
def State.hostWrite (s : State) (space index : Nat) (v : Word) : State :=
  if s.regs.state = .run then s.setHosterr
  else if space = 0 then s.hostWriteReg index (v.setWidth 16)
  else
    match spaceMem space with
    | none => s.setHosterr
    | some id => if index < id.cells s.params then s.hostWriteMem id index v else s.setHosterr

end Sys2Proof.Machine
end

