-- ==== Sys2Proof/Machine/Step.lean ====
section
/-! DEFINITION. One step: the next host event, or else the sequencer's turn (`40_sequencer.md` R121,
`10_state.md` R20, `20_memory.md` R79). -/

namespace Sys2Proof.Machine

/-- The sequencer's turn: fetch, decode, execute, atomic as seen from the host (R121). -/
def engineStep (s : State) : Host.Outcome State Fault Refusal :=
  match s.fetchDecode with
  | .stop t => .next t
  | .command i => exec i s

/-- One step of the instance and its host: the event that is due, or the sequencer's turn where none waits
(R20, R79; log entry 7). -/
def step (s : State) : Host.Outcome State Fault Refusal :=
  match s.pending with
  | [] => engineStep s
  | .engineTurn :: rest => engineStep { s with pending := rest }
  | .read space index :: rest => .next (State.hostRead { s with pending := rest } space index)
  | .write space index v :: rest => .next (State.hostWrite { s with pending := rest } space index v)
  | .hardReset :: rest => .next (State.hardReset { s with pending := rest })

/-- `s` with a table row's word placed where the next step fetches it: no host event waits, a run is in
progress, and the word is the command at `CP` (which is put to 0 should it lie past the end of `CMD`). It
stands for the host's writes of `CMD` and `CTRL` (log entry 8). -/
def State.withFetchWord (s : State) (nbits w : Nat) : State :=
  let cp : Half := if s.params.cmdWords ≤ s.regs.cp.toNat then 0 else s.regs.cp
  { s with
    cmd := s.cmd.store cp.toNat (tableWord nbits w)
    regs.cp := cp
    regs.state := .run
    pending := [] }

end Sys2Proof.Machine
end

