-- ==== Sys2Proof/Machine/Assembler.lean ====
section
/-! DEFINITION. The listing form of a command and the pseudo-commands (`30_encoding.md` R105, R106). -/

namespace Sys2Proof

/-- The name of a writable register (R24). -/
def WReg.name : WReg → String
  | .cpstart => "CPSTART"
  | .nnodes => "NNODES"
  | .width => "WIDTH"
  | .height => "HEIGHT"
  | .lsz => "LSZ"
  | .hsz => "HSZ"
  | .bsptr => "BSPTR"
  | .bsend => "BSEND"
  | .hdef => "HDEF"
  | .resptr => "RESPTR"

/-- A command as a line of a listing, numbers in decimal (R105). -/
def Instr.listing : Instr → String
  | .nop => "NOP"
  | .halt => "HALT"
  | .setr reg imm => "SETR " ++ reg.name ++ ", " ++ toString imm.toNat
  | .frow node => "FROW " ++ toString node.toNat
  | .fcol node => "FCOL " ++ toString node.toNat
  | .icol node => "ICOL " ++ toString node.toNat
  | .irow node => "IROW " ++ toString node.toNat
  | .decomp => "DECOMP"
  | .recon => "RECON"
  | .bsinit => "BSINIT"
  | .hbuild id => "HBUILD " ++ toString id.toNat
  | .hsel id => "HSEL " ++ toString id.toNat
  | .hdec => "HDEC"
  | .getb n => "GETB " ++ toString n.toNat

/-- The pseudo-commands of the table under rule R106. -/
inductive Pseudo where
  | dnode (n : BitVec 8)
  | rnode (n : BitVec 8)
  | setgeom (w h : BitVec 16)
  | settaps (l h : BitVec 16)
  | bswin (p e : BitVec 16)
deriving DecidableEq, Repr

/-- The expansion of a pseudo-command (R106). -/
def Pseudo.expand : Pseudo → List Instr
  | .dnode n => [.frow n, .fcol n]
  | .rnode n => [.icol n, .irow n]
  | .setgeom w h => [.setr .width w, .setr .height h]
  | .settaps l h => [.setr .lsz l, .setr .hsz h]
  | .bswin p e => [.setr .bsptr p, .setr .bsend e, .bsinit]

end Sys2Proof
end

