-- ==== Sys2Proof/Safety.lean ====
section
/-! DEFINITION. What claims are made of: how a run ends, the invariants, and when a command is accepted. -/

namespace Sys2Proof.Machine

/-- The run has ended (R124). -/
def State.ended (s : State) : Bool := decide (s.regs.state = .halted) || decide (s.regs.state = .fault)

/-- The run ended with its work done: `HALTED` is the only successful end (R124). -/
def State.workDone (s : State) : Bool := decide (s.regs.state = .halted)

/-- Every memory is in its canonical form. -/
def State.memoriesWf (s : State) : Bool :=
  s.cmd.wf && s.plane.wf && s.lotap.wf && s.hitap.wf && s.tree.wf && s.hbits.wf && s.hval.wf && s.bs.wf &&
  s.res.wf && s.hder.wf && s.scr.wf

/-- No memory lists a cell past its end (R70, R71). -/
def State.memoriesWithin (s : State) : Bool :=
  s.cmd.within (MemId.cells s.params .cmd) && s.plane.within (MemId.cells s.params .plane) &&
  s.lotap.within (MemId.cells s.params .lotap) && s.hitap.within (MemId.cells s.params .hitap) &&
  s.tree.within (MemId.cells s.params .tree) && s.hbits.within (MemId.cells s.params .hbits) &&
  s.hval.within (MemId.cells s.params .hval) && s.bs.within (MemId.cells s.params .bs) &&
  s.res.within (MemId.cells s.params .res) && s.hder.within (MemId.cells s.params .hder) &&
  s.scr.within (MemId.cells s.params .scr)

/-- A `TREE` cell the host can have stored: no reserved field, and of a flag cell only bit 0 (R40, R71). -/
def treeCellLegal (c : Nat × Half) : Bool :=
  decide (c.1 % 8 < 6) && (decide (c.1 % 8 < 4) || decide (c.2.toNat ≤ 1))

/-- The memories hold only what the spec lets them hold: canonical, inside their spaces, reserved cells never
stored (R40, R70, R71). -/
def State.memoriesLegal (s : State) : Bool :=
  s.memoriesWf && s.memoriesWithin && s.tree.all treeCellLegal &&
  s.hder.all fun c => decide (c.1 % 64 / 16 < 3)

/-- What the rules say of the registers between steps: `BITCNT` is 0 to 8 (R34); a built table is a defined
one (R36, R37); `STATE` is `FAULT` exactly when `ERR` is not 0, and `ERR` is one of the eight codes (R27, R251);
`MARKER` is 0 until a marker is found, then 0xFF and a non-zero byte, with no bit left unread (R35, R210). -/
def Regs.consistent (r : Regs) : Bool :=
  decide (r.bitcnt.toNat ≤ 8) &&
  decide (r.hbuilt &&& r.hdef = r.hbuilt) &&
  (decide (r.state = .fault) == decide (r.err ≠ 0)) && decide (r.err.toNat ≤ 8) &&
  (if r.mkf then decide (0xFF01 ≤ r.marker.toNat) && decide (r.bitcnt = 0) else decide (r.marker = 0))

/-- The derived arrays of table `t` are those of its present counts (R37, R221). -/
def State.derivedExact (s : State) (t : Nat) : Bool :=
  ((List.range Config.maxBits).map (· + 1)).all fun l =>
    decide (s.hder.lookup (hderIndex t .mincode l) = some (BitVec.ofNat 16 (derivedOf (s.count t) l).1)) &&
    decide (s.hder.lookup (hderIndex t .maxcode l) = some (BitVec.ofNat 16 (derivedOf (s.count t) l).2.1)) &&
    decide (s.hder.lookup (hderIndex t .valptr l) = some (BitVec.ofNat 16 (derivedOf (s.count t) l).2.2))

/-- Every table that `HBUILT` names has valid counts and the derived arrays of exactly these counts (R37). -/
def State.tablesExact (s : State) : Prop :=
  ∀ t < Config.nHtab, s.regs.hbuilt.getLsbD t = true → tableValid (s.count t) = true ∧ s.derivedExact t = true

/-- The filter configuration is legal: no sub-code of `E_CFG` holds (R30, R32, R140, R256). -/
def State.bankLegal (s : State) : Prop :=
  2 ≤ s.regs.lsz.toNat ∧ s.regs.lsz.toNat ≤ 16 ∧ 2 ≤ s.regs.hsz.toNat ∧ s.regs.hsz.toNat ≤ 16 ∧
  s.regs.lsz.toNat % 2 = s.regs.hsz.toNat % 2 ∧ 1 ≤ s.regs.width.toNat ∧ 1 ≤ s.regs.height.toNat ∧
  s.regs.width.toNat * s.regs.height.toNat ≤ s.params.planeWords

/-- Tree node `n` is not empty and lies inside the plane (R141, R257). -/
def State.nodeInside (s : State) (n : Nat) : Prop :=
  1 ≤ (s.node n).lx ∧ 1 ≤ (s.node n).ly ∧ (s.node n).x0 + (s.node n).lx ≤ s.regs.width.toNat ∧
  (s.node n).y0 + (s.node n).ly ≤ s.regs.height.toNat

/-- The forward pass accepts lines of length `N` with the tap counts in use (R147). -/
def State.anaAccepts (s : State) (N : Nat) : Prop := anaOk s.regs.lsz.toNat s.regs.hsz.toNat N = true

/-- The inverse pass accepts lines of length `N` with the tap counts in use (R176). -/
def State.synAccepts (s : State) (N : Nat) : Prop := synOk s.regs.lsz.toNat s.regs.hsz.toNat N = true

/-- The state at a fault with this code and detail, everything else as it was (R253). -/
def State.withFault (s : State) (code : BitVec 8) (info : Half) : State :=
  { s with regs.err := code, regs.errinfo := info, regs.state := .fault }

/-- What a single-node filter command reports first, as code and `ERRINFO`, where its line length is
`accepted` or not: the tests of R140, R141 and R147 or R176 in their order (R256, R257, R261). -/
def State.filterFault (s : State) (n : Nat) (accepted : Bool) : Option (BitVec 8 × Half) :=
  if s.regs.lsz.toNat < 2 ∨ s.regs.lsz.toNat > 16 then some (3, 1)
  else if s.regs.hsz.toNat < 2 ∨ s.regs.hsz.toNat > 16 then some (3, 2)
  else if s.regs.lsz.toNat % 2 ≠ s.regs.hsz.toNat % 2 then some (3, 3)
  else if s.regs.width.toNat = 0 ∨ s.regs.height.toNat = 0 then some (3, 4)
  else if s.regs.width.toNat * s.regs.height.toNat > s.params.planeWords then some (3, 5)
  else if (s.node n).lx = 0 ∨ (s.node n).ly = 0 then some (4, BitVec.ofNat 16 n)
  else if (s.node n).x0 + (s.node n).lx > s.regs.width.toNat then some (4, BitVec.ofNat 16 n)
  else if (s.node n).y0 + (s.node n).ly > s.regs.height.toNat then some (4, BitVec.ofNat 16 n)
  else if accepted = false then some (4, BitVec.ofNat 16 n)
  else none

/-- The fault codes a command can raise by itself (R252). -/
def mayRaise : Instr → List (BitVec 8)
  | .nop => []
  | .halt => []
  | .setr _ _ => []
  | .frow _ => [3, 4]
  | .fcol _ => [3, 4]
  | .icol _ => [3, 4]
  | .irow _ => [3, 4]
  | .decomp => [3, 4]
  | .recon => [3, 4]
  | .bsinit => []
  | .hbuild _ => [6, 7]
  | .hsel _ => [6]
  | .hdec => [5, 6, 8]
  | .getb _ => [5]

/-- The words whose `op` byte is `op` are the command with argument `lo` to `hi` and illegal otherwise, so also
where their bits 23:8 are not 0 (R100, R101, R103). -/
def opDecodesTo (op lo hi : Nat) (command : BitVec 8 → Instr) : Prop :=
  ∀ w : Word, w.toNat / 2 ^ 24 = op →
    (lo ≤ w.toNat % 2 ^ 24 → w.toNat % 2 ^ 24 ≤ hi → decode w = .ok (command (BitVec.ofNat 8 w.toNat))) ∧
    (¬ (lo ≤ w.toNat % 2 ^ 24 ∧ w.toNat % 2 ^ 24 ≤ hi) → ∃ e, decode w = .error e)

/-- The single-node filter commands. -/
def singlePass : Instr → Bool
  | .frow _ => true
  | .fcol _ => true
  | .icol _ => true
  | .irow _ => true
  | .nop => false
  | .halt => false
  | .setr _ _ => false
  | .decomp => false
  | .recon => false
  | .bsinit => false
  | .hbuild _ => false
  | .hsel _ => false
  | .hdec => false
  | .getb _ => false

/-- Cell `j` of row `m` of node `n`'s region, as a word of the plane (R32, R150). -/
def State.rowCell (s : State) (n m j : Nat) : Nat :=
  ((s.node n).y0 + m) * s.regs.width.toNat + (s.node n).x0 + j

/-- Cell `j` of column `m` of node `n`'s region, as a word of the plane (R32, R151). -/
def State.colCell (s : State) (n m j : Nat) : Nat :=
  ((s.node n).y0 + j) * s.regs.width.toNat + (s.node n).x0 + m

/-- Row `m` of node `n`'s region in `PLANE` (R150). -/
def State.planeRow (s : State) (n m : Nat) : List Word :=
  (List.range (s.node n).lx).map fun j => s.planeAt (s.rowCell n m j)

/-- Row `m` of node `n`'s region in `SCR` (R181). -/
def State.scrRow (s : State) (n m : Nat) : List Word :=
  (List.range (s.node n).lx).map fun j => s.scrAt (s.rowCell n m j)

/-- Column `m` of node `n`'s region in `PLANE` (R180). -/
def State.planeCol (s : State) (n m : Nat) : List Word :=
  (List.range (s.node n).ly).map fun j => s.planeAt (s.colCell n m j)

/-- Column `m` of node `n`'s region in `SCR` (R151). -/
def State.scrCol (s : State) (n m : Nat) : List Word :=
  (List.range (s.node n).ly).map fun j => s.scrAt (s.colCell n m j)

/-- A word of the plane lies in node `n`'s region. -/
def State.inRegion (s : State) (n i : Nat) : Prop :=
  ∃ m < (s.node n).ly, ∃ j < (s.node n).lx, i = s.rowCell n m j

/-- A command list executed from a state, one command after another, ended by the first fault (R121). -/
def execList : List Instr → State → Host.Outcome State Fault Refusal
  | [], s => .next s
  | i :: rest, s =>
    match exec i s with
    | .next t => if t.regs.state = .fault then .next t else execList rest t
    | .fault r => .fault r
    | .refused r => .refused r

/-- The command list that `DECOMP` with `NNODES = n` stands for (R106). -/
def decompList (n : Nat) : List Instr :=
  (List.range n).flatMap fun k => (Pseudo.dnode (BitVec.ofNat 8 k)).expand

/-- The command list that `RECON` with `NNODES = n` stands for (R106). -/
def reconList (n : Nat) : List Instr :=
  (List.range n).reverse.flatMap fun k => (Pseudo.rnode (BitVec.ofNat 8 k)).expand

/-- The part of the command list of `RECON` with `NNODES = n` that comes before node `k` (R106, R182). -/
def reconAbove (k n : Nat) : List Instr :=
  (List.range' (k + 1) (n - (k + 1))).reverse.flatMap fun m => (Pseudo.rnode (BitVec.ofNat 8 m)).expand

end Sys2Proof.Machine
end

