-- ==== Sys2Proof/Certificates/Slice0/Obligations.lean ====
section
/-! DEFINITION. The statements for the provers, from the numbered rules of the spec. -/

open Sys2Proof Sys2Proof.Machine

/-! ## Encoding -/

/-- Decoding the word of a well-formed command gives the command (R100 to R103). -/
def Obligations.DecodeOfEncodeIsTheCommand : Prop :=
  ∀ i : Instr, i.wellFormed = true → decode (encode i) = .ok i

/-- A word that decodes is the word of the well-formed command it decodes to: no two words share a meaning
and no bit is ignored (R100, R102, R104). -/
def Obligations.LegalWordIsItsEncoding : Prop :=
  ∀ (w : Word) (i : Instr), decode w = .ok i → i.wellFormed = true ∧ encode i = w

/-- R103: a word is illegal in exactly the seven cases (a) to (g), and an illegal word that is fetched raises
`E_ILLEGAL` with `ERRINFO = w[31:16]` and has no other effect. -/
def Obligations.IllegalWordsAreExactlyR103 : Prop :=
  (∀ w : Word,
    (∃ e, decode w = .error e) ↔
      (w.toNat / 2 ^ 24 ∉ [0x00, 0x01, 0x02, 0x10, 0x11, 0x12, 0x13, 0x14, 0x15, 0x20, 0x21, 0x22, 0x23, 0x24] ∨
       (w.toNat / 2 ^ 24 ∈ [0x00, 0x01, 0x10, 0x11, 0x12, 0x13, 0x14, 0x15, 0x20, 0x21, 0x22, 0x23, 0x24] ∧
          w.toNat / 2 ^ 8 % 2 ^ 16 ≠ 0) ∨
       (w.toNat / 2 ^ 24 ∈ [0x00, 0x01, 0x14, 0x15, 0x20, 0x23] ∧ w.toNat % 2 ^ 8 ≠ 0) ∨
       (w.toNat / 2 ^ 24 ∈ [0x10, 0x11, 0x12, 0x13] ∧ w.toNat % 2 ^ 8 > 19) ∨
       (w.toNat / 2 ^ 24 ∈ [0x21, 0x22] ∧ w.toNat % 2 ^ 8 > 7) ∨
       (w.toNat / 2 ^ 24 = 0x24 ∧ (w.toNat % 2 ^ 8 = 0 ∨ w.toNat % 2 ^ 8 > 16)) ∨
       (w.toNat / 2 ^ 24 = 0x02 ∧
          w.toNat / 2 ^ 16 % 2 ^ 8 ∉ [0x06, 0x07, 0x08, 0x09, 0x0A, 0x0B, 0x0C, 0x0D, 0x11, 0x17]))) ∧
  (∀ s : State, s.pending = [] → s.regs.state = .run → s.regs.cp.toNat < s.params.cmdWords →
    (∃ e, decode (s.cmdAt s.regs.cp.toNat) = .error e) →
    step s = .next (s.withFault 1 (BitVec.ofNat 16 ((s.cmdAt s.regs.cp.toNat).toNat / 2 ^ 16))))

/-- The words of the examples of R105 and all sixteen words of vector E1 decode to their commands. -/
def Obligations.SampleWordsDecode : Prop :=
  decode 0x00000000#32 = .ok .nop ∧ decode 0x01000000#32 = .ok .halt ∧
  decode 0x020A0005#32 = .ok (.setr .lsz 5) ∧ decode 0x0207FFFF#32 = .ok (.setr .nnodes 0xFFFF) ∧
  decode 0x10000013#32 = .ok (.frow 19) ∧ decode 0x11000000#32 = .ok (.fcol 0) ∧
  decode 0x12000003#32 = .ok (.icol 3) ∧ decode 0x13000003#32 = .ok (.irow 3) ∧
  decode 0x14000000#32 = .ok .decomp ∧ decode 0x15000000#32 = .ok .recon ∧
  decode 0x20000000#32 = .ok .bsinit ∧ decode 0x21000007#32 = .ok (.hbuild 7) ∧
  decode 0x22000000#32 = .ok (.hsel 0) ∧ decode 0x23000000#32 = .ok .hdec ∧
  decode 0x24000001#32 = .ok (.getb 1) ∧ decode 0x24000010#32 = .ok (.getb 16) ∧
  decode 0x02080008#32 = .ok (.setr .width 8) ∧ decode 0x10000003#32 = .ok (.frow 3) ∧
  decode 0x21000002#32 = .ok (.hbuild 2)

/-! ## The sequencer -/

/-- R121: where a run is in progress and the word at `CP` decodes, the sequencer's step is the command's
meaning, whether no host event waits or the host leaves the step to the sequencer (host events are the model's,
log entry 7). -/
def Obligations.StepExecutesTheDecodedCommand : Prop :=
  ∀ (s : State) (i : Instr), s.regs.state = .run → s.regs.cp.toNat < s.params.cmdWords →
    decode (s.cmdAt s.regs.cp.toNat) = .ok i →
    (s.pending = [] → step s = exec i s) ∧
    (∀ rest, s.pending = .engineTurn :: rest → step s = exec i { s with pending := rest })

/-- R122, R255: a fetch at `CP >= CMD_WORDS` raises `E_FETCH` with `ERRINFO = CP` and nothing else changes; so
does the first step after a `START` with `CPSTART >= CMD_WORDS`. -/
def Obligations.FetchPastTheEndFaults : Prop :=
  (∀ s : State, s.pending = [] → s.regs.state = .run → s.params.cmdWords ≤ s.regs.cp.toNat →
    step s = .next (s.withFault 2 s.regs.cp)) ∧
  (∀ s : State, s.pending = [.write 0 1 1#32] → (s.regs.state = .idle ∨ s.regs.state = .halted) →
    s.params.cmdWords ≤ s.regs.cpstart.toNat →
    ∃ u, step s = .next u ∧
      step u = .next (State.withFault { s with pending := [], regs.cp := s.regs.cpstart } 2 s.regs.cpstart))

/-- Outside `RUN` the sequencer executes nothing (R121, R259). -/
def Obligations.SequencerRestsOutsideRun : Prop :=
  ∀ s : State, s.regs.state ≠ .run →
    (s.pending = [] → step s = .next s) ∧
    (∀ rest, s.pending = .engineTurn :: rest → step s = .next { s with pending := rest })

/-- R123: every run ends. From any state in which a run is in progress, with no host event to come, the machine
halts or faults within one step per command left in `CMD` and one more. -/
def Obligations.EveryRunEnds : Prop :=
  ∀ s : State, s.params.legal = true → s.regs.state = .run → s.pending = [] →
    ∃ k t, k ≤ s.params.cmdWords - s.regs.cp.toNat + 1 ∧ Sys2Proof.core.run k s = .next t ∧ t.ended = true

/-- R120: what a `START` does in each sequencer state. -/
def Obligations.StartBeginsAtCpstart : Prop :=
  ∀ (s : State) (rest : List HostEvent) (v : Word), s.pending = .write 0 1 v :: rest →
    v.getLsbD 0 = true → v.getLsbD 1 = false →
    (s.regs.state = .idle ∨ s.regs.state = .halted →
      step s = .next { s with pending := rest, regs.cp := s.regs.cpstart, regs.state := .run }) ∧
    (s.regs.state = .fault → step s = .next { s with pending := rest }) ∧
    (s.regs.state = .run → step s = .next { s with pending := rest, regs.hosterr := true })

/-- R125: `NOP` advances `CP` and changes nothing else; its word is the only one of its `op`; an erased `CMD` is a
list of `NOP`s that ends in `E_FETCH`. -/
def Obligations.NopOnlyAdvances : Prop :=
  opDecodesTo 0x00 0 0 (fun _ => .nop) ∧
  (∀ s : State, exec .nop s = .next { s with regs.cp := s.regs.cp + 1 }) ∧
  (∀ s : State, s.params.legal = true → s.regs.state = .run → s.pending = [] →
    (∀ i < s.params.cmdWords, s.cmdAt i = 0x00000000#32) →
    ∃ t, Sys2Proof.core.run (s.params.cmdWords - s.regs.cp.toNat + 1) s = .next t ∧ t.regs.state = .fault ∧
      t.regs.err = 2)

/-- R126: `HALT` ends the run at itself and writes nothing but `STATE`; in a consistent state `ERR` is then 0;
a new `START` begins at `CPSTART`. -/
def Obligations.HaltEndsTheRunInPlace : Prop :=
  opDecodesTo 0x01 0 0 (fun _ => .halt) ∧
  (∀ s : State, exec .halt s = .next { s with regs.state := .halted }) ∧
  (∀ s t : State, s.regs.consistent = true → s.regs.state = .run → exec .halt s = .next t → t.regs.err = 0) ∧
  (∀ s t : State, exec .halt s = .next t →
    step { t with pending := [.write 0 1 1#32] } =
      .next { t with pending := [], regs.cp := t.regs.cpstart, regs.state := .run })

/-- R127: `SETR` stores the masked value in its register, a write of `HDEF` also masks `HBUILT`, `CP` advances
and nothing else changes but the draw counter of the unbuilt arrays, the model's own (log entry 4). -/
def Obligations.SetrStoresTheMaskedValue : Prop :=
  ∀ (s : State) (reg : WReg) (imm : Half), ∃ t, exec (.setr reg imm) s = .next t ∧
    t.regs.readW reg = imm &&& fieldMask reg ∧
    (∀ r, r ≠ reg → t.regs.readW r = s.regs.readW r) ∧
    t.regs.hbuilt = (if reg = .hdef then s.regs.hbuilt &&& imm.setWidth 8 else s.regs.hbuilt) ∧
    t.regs.cp = s.regs.cp + 1 ∧
    s.regs = { t.regs with
      cp := s.regs.cp, hbuilt := s.regs.hbuilt, cpstart := s.regs.cpstart, nnodes := s.regs.nnodes
      width := s.regs.width, height := s.regs.height, lsz := s.regs.lsz, hsz := s.regs.hsz
      bsptr := s.regs.bsptr, bsend := s.regs.bsend, hdef := s.regs.hdef, resptr := s.regs.resptr } ∧
    t = { s with regs := t.regs, staleDraw := if reg = .hdef then s.staleDraw + 1 else s.staleDraw }

/-- `SETR`, in a run or in any state, has exactly the effect that the same host register write has with the engine
not running, whichever of the other values `STATE` has, but for the advance of `CP` (R24, R127). -/
def Obligations.SetrEqualsTheHostsWrite : Prop :=
  ∀ (s : State) (reg : WReg) (imm : Half) (other : RunState), other ≠ .run →
    ∃ t, exec (.setr reg imm) s = .next t ∧ t.regs.state = s.regs.state ∧
      step { s with pending := [.write 0 reg.index.toNat (imm.setWidth 32)], regs.state := other } =
        .next { t with pending := [], regs.cp := s.regs.cp, regs.state := other }

/-! ## Faults -/

/-- The faults a command of a run can end in are those of its row of the table under R252, and `E_CFG` comes
with sub-codes 1 to 5, or to 6 for the whole-tree commands. -/
def Obligations.FaultsAreTheCommandsOwn : Prop :=
  ∀ (i : Instr) (s t : State), i.wellFormed = true → s.regs.state = .run → exec i s = .next t →
    t.regs.state = .fault →
    t.regs.err ∈ mayRaise i ∧
    (t.regs.err = 3 → 1 ≤ t.regs.errinfo.toNat ∧
      (t.regs.errinfo.toNat ≤ 5 ∨ (t.regs.errinfo.toNat = 6 ∧ (i = .decomp ∨ i = .recon))))

/-- Fault entry (R253): `CP` keeps the index of the faulting command; where the fault is `E_UNDEF`, or the
command is a single-node filter command, nothing but `ERR`, `ERRINFO` and `STATE` has changed. -/
def Obligations.FaultEntryIsPrecise : Prop :=
  ∀ (i : Instr) (s t : State), i.wellFormed = true → s.regs.state = .run → exec i s = .next t →
    t.regs.state = .fault →
    t.regs.cp = s.regs.cp ∧
    (t.regs.err = 6 ∨ singlePass i = true → t = s.withFault t.regs.err t.regs.errinfo)

/-- R259: in `FAULT` nothing is executed, `START` is ignored, and the fault record changes only by a reset. -/
def Obligations.FaultIsLeftOnlyByReset : Prop :=
  ∀ s : State, s.regs.state = .fault →
    (s.pending = [] → step s = .next s) ∧
    (∀ (rest : List HostEvent) (v : Word), s.pending = .write 0 1 v :: rest → v.getLsbD 1 = false →
      step s = .next { s with pending := rest }) ∧
    (∀ t, step s = .next t →
      (t.regs.state = .fault ∧ t.regs.err = s.regs.err ∧ t.regs.errinfo = s.regs.errinfo ∧ t.regs.cp = s.regs.cp) ∨
      (t.regs = Regs.reset ∧
        ((∃ rest, s.pending = .hardReset :: rest) ∨
         (∃ v rest, s.pending = .write 0 1 v :: rest ∧ v.getLsbD 1 = true))))

/-- No command writes the memories that belong to the host, the parameters, `HOSTERR` or what waits at the host
port (R40 to R42, R45, R82). -/
def Obligations.CommandsKeepTheHostsMemories : Prop :=
  ∀ (i : Instr) (s t : State), exec i s = .next t →
    t.params = s.params ∧ t.cmd = s.cmd ∧ t.lotap = s.lotap ∧ t.hitap = s.hitap ∧ t.tree = s.tree ∧
    t.hbits = s.hbits ∧ t.hval = s.hval ∧ t.bs = s.bs ∧ t.powerOn = s.powerOn ∧ t.pending = s.pending ∧
    t.hostData = s.hostData ∧ t.regs.hosterr = s.regs.hosterr ∧ (t.regs.warn = false → s.regs.warn = false)

/-! ## Lines -/

/-- R142: inside the window the extension reads a sample of the sequence, the one the rule names, negated where
the extension is antisymmetric, or is the zero sample at the mirror point of type Z. -/
def Obligations.ExtensionReadsInsideTheSequence : Prop :=
  ∀ (seq : List Word) (e : Extension) (k : Int), seq ≠ [] →
    windowLo seq.length e ≤ k → k ≤ windowHi seq.length e →
    (0 ≤ k → k ≤ seq.length - 1 → ∃ h : k.toNat < seq.length, ext seq e k = seq[k.toNat]) ∧
    (k < 0 → e.left = .W → ∃ h : (-k).toNat < seq.length,
      ext seq e k = if e.anti then fneg seq[(-k).toNat] else seq[(-k).toNat]) ∧
    (k < 0 → e.left = .H → ∃ h : (-1 - k).toNat < seq.length,
      ext seq e k = if e.anti then fneg seq[(-1 - k).toNat] else seq[(-1 - k).toNat]) ∧
    (seq.length ≤ k → e.right = .W → ∃ h : (2 * ((seq.length : Int) - 1) - k).toNat < seq.length,
      ext seq e k = if e.anti then fneg seq[(2 * ((seq.length : Int) - 1) - k).toNat]
        else seq[(2 * ((seq.length : Int) - 1) - k).toNat]) ∧
    (seq.length ≤ k → e.right = .H → ∃ h : (2 * (seq.length : Int) - 1 - k).toNat < seq.length,
      ext seq e k = if e.anti then fneg seq[(2 * (seq.length : Int) - 1 - k).toNat]
        else seq[(2 * (seq.length : Int) - 1 - k).toNat]) ∧
    (k = seq.length → e.right = .Z → ext seq e k = 0x00000000#32) ∧
    (seq.length < k → e.right = .Z → ∃ h : (2 * (seq.length : Int) - k).toNat < seq.length,
      ext seq e k = if e.anti then fneg seq[(2 * (seq.length : Int) - k).toNat]
        else seq[(2 * (seq.length : Int) - k).toNat])

/-- R147: `ana_ok` accepts a line length exactly when it is at least 2 and every index that rule R145 reads lies
in the window of the input extension. -/
def Obligations.AnaOkIsTheWindowOfR145 : Prop :=
  ∀ L H N : Nat, 2 ≤ L → L ≤ 16 → 2 ≤ H → H ≤ 16 → L % 2 = H % 2 →
    (anaOk L H N = true ↔
      2 ≤ N ∧
      (∀ k < llen N, ∀ i < L,
        windowLo N (inputExt (L % 2 == 1)) ≤ lowStart (L % 2 == 1) L k + i ∧
        lowStart (L % 2 == 1) L k + i ≤ windowHi N (inputExt (L % 2 == 1))) ∧
      (∀ k < hlen N, ∀ i < H,
        windowLo N (inputExt (L % 2 == 1)) ≤ highStart (L % 2 == 1) H k + i ∧
        highStart (L % 2 == 1) H k + i ≤ windowHi N (inputExt (L % 2 == 1))))

/-- R176: `syn_ok` accepts a line length exactly when it is at least 2 and every index that rule R175 reads lies
in the windows of the two halves. -/
def Obligations.SynOkIsTheWindowOfR175 : Prop :=
  ∀ L H N : Nat, 2 ≤ L → L ≤ 16 → 2 ≤ H → H ≤ 16 → L % 2 = H % 2 →
    (synOk L H N = true ↔
      2 ≤ N ∧
      (∀ n < N, ∀ i < L, ((i : Int) - synFL L + n) % 2 = 0 →
        windowLo (llen N) (lowExt (L % 2 == 1) N) ≤ ((i : Int) - synFL L + n) / 2 ∧
        ((i : Int) - synFL L + n) / 2 ≤ windowHi (llen N) (lowExt (L % 2 == 1) N)) ∧
      (∀ n < N, ∀ i < H, ((i : Int) - synCH H + n) % 2 = 0 →
        windowLo (hlen N) (highExt (L % 2 == 1) N) ≤ ((i : Int) - synCH H + n) / 2 ∧
        ((i : Int) - synCH H + n) / 2 ≤ windowHi (hlen N) (highExt (L % 2 == 1) N)))

/-- For every pair of tap counts `(l, h)` the inverse with `(h, l)` accepts exactly the lengths the forward pass
with `(l, h)` accepts (R176). -/
def Obligations.ForwardAndInverseAcceptTheSameLengths : Prop :=
  ∀ l h N : Nat, 2 ≤ l → l ≤ 16 → 2 ≤ h → h ≤ 16 → l % 2 = h % 2 → synOk h l N = anaOk l h N

/-- Acceptance is monotone: if a length is accepted so is every larger one (R147, R176). -/
def Obligations.AcceptanceIsMonotone : Prop :=
  ∀ L H N M : Nat, 2 ≤ L → L ≤ 16 → 2 ≤ H → H ≤ 16 → L % 2 = H % 2 → N ≤ M →
    (anaOk L H N = true → anaOk L H M = true) ∧ (synOk L H N = true → synOk L H M = true)

/-- On an accepted constant line every lowpass output is the one chain of sums over the taps and every highpass
output the one over the effective highpass taps (R153 (a)). -/
def Obligations.ConstantLineFiltersToConstantHalves : Prop :=
  ∀ (b : Bank) (N : Nat) (c : Word), 2 ≤ b.lo.length → b.lo.length ≤ 16 → 2 ≤ b.hi.length → b.hi.length ≤ 16 →
    b.lo.length % 2 = b.hi.length % 2 → anaOk b.lo.length b.hi.length N = true →
    anaLine b (List.replicate N c) =
      (List.replicate (llen N) (sumChain (b.lo.map (fmul c))),
       List.replicate (hlen N) (sumChain (b.hiEff.map (fmul c))))

/-! ## Filter commands -/

/-- R150: `FROW` on a legal node. Accepted, it writes to each word of the node region in `SCR` what the forward
line function and the placement give for its row of `PLANE`, advances `CP`, and changes nothing else; refused, it
raises the first failing check and changes nothing else. -/
def Obligations.FrowTransformsTheRows : Prop :=
  opDecodesTo 0x10 0 19 .frow ∧ ∀ (s : State) (node : BitVec 8), node.toNat ≤ 19 →
    (s.bankLegal → s.nodeInside node.toNat → s.anaAccepts (s.node node.toNat).lx →
      ∃ t, exec (.frow node) s = .next t ∧
        (∀ m < (s.node node.toNat).ly, ∀ j < (s.node node.toNat).lx,
          t.scr.lookup (s.rowCell node.toNat m j) =
            (place (s.node node.toNat).irw (anaLine s.bank (s.planeRow node.toNat m)))[j]?) ∧
        (∀ i, ¬ s.inRegion node.toNat i → t.scr.lookup i = s.scr.lookup i) ∧
        t = { s with regs.cp := s.regs.cp + 1, scr := t.scr }) ∧
    (∀ c info, s.filterFault node.toNat (anaOk s.regs.lsz.toNat s.regs.hsz.toNat (s.node node.toNat).lx) =
        some (c, info) →
      exec (.frow node) s = .next (s.withFault c info))

/-- R151: `FCOL` on a legal node, columns of `SCR` to `PLANE`. -/
def Obligations.FcolTransformsTheColumns : Prop :=
  opDecodesTo 0x11 0 19 .fcol ∧ ∀ (s : State) (node : BitVec 8), node.toNat ≤ 19 →
    (s.bankLegal → s.nodeInside node.toNat → s.anaAccepts (s.node node.toNat).ly →
      ∃ t, exec (.fcol node) s = .next t ∧
        (∀ m < (s.node node.toNat).lx, ∀ j < (s.node node.toNat).ly,
          t.plane.lookup (s.colCell node.toNat m j) =
            (place (s.node node.toNat).icl (anaLine s.bank (s.scrCol node.toNat m)))[j]?) ∧
        (∀ i, ¬ s.inRegion node.toNat i → t.plane.lookup i = s.plane.lookup i) ∧
        t = { s with regs.cp := s.regs.cp + 1, plane := t.plane }) ∧
    (∀ c info, s.filterFault node.toNat (anaOk s.regs.lsz.toNat s.regs.hsz.toNat (s.node node.toNat).ly) =
        some (c, info) →
      exec (.fcol node) s = .next (s.withFault c info))

/-- R180: `ICOL` on a legal node, columns of `PLANE` to `SCR`. -/
def Obligations.IcolReconstructsTheColumns : Prop :=
  opDecodesTo 0x12 0 19 .icol ∧ ∀ (s : State) (node : BitVec 8), node.toNat ≤ 19 →
    (s.bankLegal → s.nodeInside node.toNat → s.synAccepts (s.node node.toNat).ly →
      ∃ t, exec (.icol node) s = .next t ∧
        (∀ m < (s.node node.toNat).lx, ∀ j < (s.node node.toNat).ly,
          t.scr.lookup (s.colCell node.toNat m j) =
            (synLine s.bank (s.node node.toNat).ly
              (unplace (s.node node.toNat).icl (s.planeCol node.toNat m)))[j]?) ∧
        (∀ i, ¬ s.inRegion node.toNat i → t.scr.lookup i = s.scr.lookup i) ∧
        t = { s with regs.cp := s.regs.cp + 1, scr := t.scr }) ∧
    (∀ c info, s.filterFault node.toNat (synOk s.regs.lsz.toNat s.regs.hsz.toNat (s.node node.toNat).ly) =
        some (c, info) →
      exec (.icol node) s = .next (s.withFault c info))

/-- R181: `IROW` on a legal node, rows of `SCR` to `PLANE`. -/
def Obligations.IrowReconstructsTheRows : Prop :=
  opDecodesTo 0x13 0 19 .irow ∧ ∀ (s : State) (node : BitVec 8), node.toNat ≤ 19 →
    (s.bankLegal → s.nodeInside node.toNat → s.synAccepts (s.node node.toNat).lx →
      ∃ t, exec (.irow node) s = .next t ∧
        (∀ m < (s.node node.toNat).ly, ∀ j < (s.node node.toNat).lx,
          t.plane.lookup (s.rowCell node.toNat m j) =
            (synLine s.bank (s.node node.toNat).lx
              (unplace (s.node node.toNat).irw (s.scrRow node.toNat m)))[j]?) ∧
        (∀ i, ¬ s.inRegion node.toNat i → t.plane.lookup i = s.plane.lookup i) ∧
        t = { s with regs.cp := s.regs.cp + 1, plane := t.plane }) ∧
    (∀ c info, s.filterFault node.toNat (synOk s.regs.lsz.toNat s.regs.hsz.toNat (s.node node.toNat).lx) =
        some (c, info) →
      exec (.irow node) s = .next (s.withFault c info))

/-- Where every pass is accepted, `DECOMP` leaves the planes that `FROW 0 ; FCOL 0 ; FROW 1 ; ...` leave one
after another, advances `CP` by one and changes nothing else (R106, R152). -/
def Obligations.DecompIsItsPassesInOrder : Prop :=
  ∀ s : State, s.regs.state = .run → s.regs.nnodes.toNat ≤ 20 → (s.regs.nnodes.toNat ≠ 0 → s.bankLegal) →
    (∀ n < s.regs.nnodes.toNat,
      s.nodeInside n ∧ s.anaAccepts (s.node n).lx ∧ s.anaAccepts (s.node n).ly) →
    ∃ u, execList (decompList s.regs.nnodes.toNat) s = .next u ∧
      exec .decomp s = .next { u with regs := { s.regs with cp := s.regs.cp + 1 } } ∧
      u = { s with plane := u.plane, scr := u.scr,
                   regs := { s.regs with cp := s.regs.cp + BitVec.ofNat 16 (2 * s.regs.nnodes.toNat) } }

/-- `RECON` is the passes `ICOL n ; IROW n` for `n` descending (R106, R182). Where every pass is accepted, it leaves
the planes they leave, advances `CP` by one and changes nothing else. Where the configuration is legal and `k` is the
first refused node in descending order, it ends in `E_GEOM(k)` at its own `CP`, with nodes `NNODES-1 .. k+1`
reconstructed in `PLANE` and node `k` untouched there. -/
def Obligations.ReconIsItsPassesInReverse : Prop :=
  (∀ s : State, s.regs.state = .run → s.regs.nnodes.toNat ≤ 20 → (s.regs.nnodes.toNat ≠ 0 → s.bankLegal) →
    (∀ n < s.regs.nnodes.toNat,
      s.nodeInside n ∧ s.synAccepts (s.node n).lx ∧ s.synAccepts (s.node n).ly) →
    ∃ u, execList (reconList s.regs.nnodes.toNat) s = .next u ∧
      exec .recon s = .next { u with regs := { s.regs with cp := s.regs.cp + 1 } } ∧
      u = { s with plane := u.plane, scr := u.scr,
                   regs := { s.regs with cp := s.regs.cp + BitVec.ofNat 16 (2 * s.regs.nnodes.toNat) } }) ∧
  (∀ (s : State) (k : Nat), s.regs.state = .run → s.regs.nnodes.toNat ≤ 20 → k < s.regs.nnodes.toNat → s.bankLegal →
    (∀ n, k < n → n < s.regs.nnodes.toNat →
      s.nodeInside n ∧ s.synAccepts (s.node n).lx ∧ s.synAccepts (s.node n).ly) →
    ¬ (s.nodeInside k ∧ s.synAccepts (s.node k).lx ∧ s.synAccepts (s.node k).ly) →
    ∃ u t, execList (reconAbove k s.regs.nnodes.toNat) s = .next u ∧ exec .recon s = .next t ∧ t.plane = u.plane ∧
      t.regs = { s.regs with err := 4, errinfo := BitVec.ofNat 16 k, state := .fault } ∧
      t = { s with plane := t.plane, scr := t.scr, regs := t.regs })

/-- A `DECOMP` whose configuration is legal and whose first refused node is `k` ends in `E_GEOM(k)` with nodes
`0 .. k-1` fully transformed in `PLANE` and node `k` untouched there (R152). -/
def Obligations.DecompStopsAtTheFirstBadNode : Prop :=
  ∀ (s : State) (k : Nat), s.regs.state = .run → s.regs.nnodes.toNat ≤ 20 → k < s.regs.nnodes.toNat → s.bankLegal →
    (∀ n < k, s.nodeInside n ∧ s.anaAccepts (s.node n).lx ∧ s.anaAccepts (s.node n).ly) →
    ¬ (s.nodeInside k ∧ s.anaAccepts (s.node k).lx ∧ s.anaAccepts (s.node k).ly) →
    ∃ u t, execList (decompList k) s = .next u ∧ exec .decomp s = .next t ∧ t.plane = u.plane ∧
      t.regs = { s.regs with err := 4, errinfo := BitVec.ofNat 16 k, state := .fault } ∧
      t = { s with plane := t.plane, scr := t.scr, regs := t.regs }

/-- The whole-tree commands with `NNODES > 20` raise `E_CFG(6)` before any other check, with `NNODES = 0` they
do nothing but advance, and with a bad configuration they raise its sub-code (R31, R152, R182, R256). -/
def Obligations.WholeTreeCommandsCheckNnodes : Prop :=
  ∀ (s : State) (i : Instr), i = .decomp ∨ i = .recon →
    (s.regs.nnodes.toNat > 20 → exec i s = .next (s.withFault 3 6)) ∧
    (s.regs.nnodes.toNat = 0 → exec i s = .next { s with regs.cp := s.regs.cp + 1 }) ∧
    (1 ≤ s.regs.nnodes.toNat → s.regs.nnodes.toNat ≤ 20 → ¬ s.bankLegal →
      ∃ info, 1 ≤ info ∧ info ≤ 5 ∧ (∀ n, s.filterFault n true = some (3, BitVec.ofNat 16 info)) ∧
        exec i s = .next (s.withFault 3 (BitVec.ofNat 16 info)))

/-- The result of `FROW n ; FCOL n` in `PLANE` does not depend on what `SCR` held before (R282, R283 (a)). -/
def Obligations.PairedPassesIgnoreOldScratch : Prop :=
  ∀ (s : State) (node : BitVec 8) (scr' : Memory 32), node.toNat ≤ 19 →
    s.bankLegal → s.nodeInside node.toNat → s.anaAccepts (s.node node.toNat).lx → s.anaAccepts (s.node node.toNat).ly →
    ∃ u v u' v', exec (.frow node) s = .next u ∧ exec (.fcol node) u = .next v ∧
      exec (.frow node) { s with scr := scr' } = .next u' ∧ exec (.fcol node) u' = .next v' ∧
      v'.plane = v.plane ∧ v'.regs = v.regs

/-- `FROW` never reads outside the node region: planes that agree on the region give the same `SCR` (R153 (b)). -/
def Obligations.FrowReadsOnlyItsRegion : Prop :=
  ∀ (s : State) (node : BitVec 8) (plane' : Memory 32), node.toNat ≤ 19 →
    (∀ i, s.inRegion node.toNat i → State.planeAt { s with plane := plane' } i = s.planeAt i) →
    ∃ t t', exec (.frow node) s = .next t ∧ exec (.frow node) { s with plane := plane' } = .next t' ∧
      t'.scr = t.scr ∧ t'.regs = t.regs

/-- Where the host has written every cell that `FROW` reads, no unwritten cell's draw can be seen in the result
(R282, U1). The draw key `powerOn` is the model's own (log entry 3). -/
def Obligations.FrowOfWrittenCellsIsDrawFree : Prop :=
  ∀ (s t : State) (node : BitVec 8) (period : Nat), node.toNat ≤ 19 →
    (∀ f < 6, (s.tree.lookup (node.toNat * 8 + f)).isSome = true) →
    (∀ i < s.regs.lsz.toNat, (s.lotap.lookup i).isSome = true) →
    (∀ i < s.regs.hsz.toNat, (s.hitap.lookup i).isSome = true) →
    (∀ i, s.inRegion node.toNat i → (s.plane.lookup i).isSome = true) →
    exec (.frow node) s = .next t →
    exec (.frow node) { s with powerOn := period } = .next { t with powerOn := period }

/-! ## The bit reader and the Huffman decoder -/

/-- R210: `NextBit`, case by case. -/
def Obligations.NextBitFollowsR210 : Prop :=
  ∀ s : State,
    (s.regs.bitcnt ≠ 0 →
      s.nextBit = .bit (s.regs.bitbuf.getLsbD (s.regs.bitcnt.toNat - 1))
        { s with regs.bitcnt := s.regs.bitcnt - 1 }) ∧
    (s.regs.bitcnt = 0 →
      (¬ (s.regs.bsptr.toNat < s.regs.bsend.toNat ∧ s.regs.bsptr.toNat < s.params.bsBytes) →
        s.nextBit = .bounds s s.regs.bsptr) ∧
      (s.regs.bsptr.toNat < s.regs.bsend.toNat → s.regs.bsptr.toNat < s.params.bsBytes →
        (s.bsAt s.regs.bsptr.toNat ≠ 0xFF#8 →
          s.nextBit = .bit ((s.bsAt s.regs.bsptr.toNat).getLsbD 7)
            { s with regs.bsptr := s.regs.bsptr + 1, regs.bitbuf := s.bsAt s.regs.bsptr.toNat, regs.bitcnt := 7 }) ∧
        (s.bsAt s.regs.bsptr.toNat = 0xFF#8 →
          (¬ (s.regs.bsptr.toNat + 1 < s.regs.bsend.toNat ∧ s.regs.bsptr.toNat + 1 < s.params.bsBytes) →
            s.nextBit = .bounds { s with regs.bsptr := s.regs.bsptr + 1 } (s.regs.bsptr + 1)) ∧
          (s.regs.bsptr.toNat + 1 < s.regs.bsend.toNat → s.regs.bsptr.toNat + 1 < s.params.bsBytes →
            (s.bsAt (s.regs.bsptr.toNat + 1) = 0x00#8 →
              s.nextBit = .bit true
                { s with regs.bsptr := s.regs.bsptr + 2, regs.bitbuf := 0xFF#8, regs.bitcnt := 7 }) ∧
            (s.bsAt (s.regs.bsptr.toNat + 1) ≠ 0x00#8 →
              s.nextBit = .marker
                { s with regs.bsptr := s.regs.bsptr + 2, regs.mkf := true,
                         regs.marker := 0xFF00#16 + (s.bsAt (s.regs.bsptr.toNat + 1)).setWidth 16 })))))

/-- R220: `BSINIT` clears the accumulator, `MARKER` and `MKF`, advances `CP` and changes nothing else. -/
def Obligations.BsinitClearsTheReader : Prop :=
  opDecodesTo 0x20 0 0 (fun _ => .bsinit) ∧
  ∀ s : State, exec .bsinit s = .next { s with
    regs.bitcnt := 0, regs.bitbuf := 0, regs.marker := 0, regs.mkf := false, regs.cp := s.regs.cp + 1 }

/-- R221: `HBUILD` of an undefined table, of one whose counts describe no code, and of a valid one, whose
derived arrays then are those of its counts. The draw counter of unbuilt arrays is the model's own and stays open
(log entry 4). -/
def Obligations.HbuildBuildsTheCanonicalCode : Prop :=
  opDecodesTo 0x21 0 7 .hbuild ∧ ∀ (s : State) (id : BitVec 8), id.toNat ≤ 7 →
    (s.regs.hdef.getLsbD id.toNat = false → exec (.hbuild id) s = .next (s.withFault 6 (id.setWidth 16))) ∧
    (s.regs.hdef.getLsbD id.toNat = true → tableValid (s.count id.toNat) = false →
      ∃ t, exec (.hbuild id) s = .next t ∧
        (∀ i < 8, t.regs.hbuilt.getLsbD i = (s.regs.hbuilt.getLsbD i && decide (i ≠ id.toNat))) ∧
        (∀ i, i / 64 ≠ id.toNat → t.hder.lookup i = s.hder.lookup i) ∧
        t.regs = { s.regs with hbuilt := t.regs.hbuilt, err := 7, errinfo := id.setWidth 16, state := .fault } ∧
        t = { s with regs := t.regs, hder := t.hder, staleDraw := t.staleDraw }) ∧
    (s.regs.hdef.getLsbD id.toNat = true → tableValid (s.count id.toNat) = true →
      ∃ t, exec (.hbuild id) s = .next t ∧
        (∀ l, 1 ≤ l → l ≤ 16 →
          (s.count id.toNat l = 0 →
            t.mincodeAt id.toNat l = 0 ∧ t.maxcodeAt id.toNat l = 0xFFFF ∧ t.valptrAt id.toNat l = 0) ∧
          (s.count id.toNat l ≠ 0 →
            (t.mincodeAt id.toNat l).toNat = firstCode (s.count id.toNat) l ∧
            (t.maxcodeAt id.toNat l).toNat = firstCode (s.count id.toNat) l + s.count id.toNat l - 1 ∧
            (t.valptrAt id.toNat l).toNat = countsUpTo (s.count id.toNat) (l - 1))) ∧
        (∀ i, i / 64 ≠ id.toNat → t.hder.lookup i = s.hder.lookup i) ∧
        (∀ i < 8, t.regs.hbuilt.getLsbD i = (s.regs.hbuilt.getLsbD i || decide (i = id.toNat))) ∧
        (∀ i < 8, t.regs.hwarn.getLsbD i =
          if i = id.toNat then hasAllOnes (s.count id.toNat) else s.regs.hwarn.getLsbD i) ∧
        t.regs.warn = (s.regs.warn || hasAllOnes (s.count id.toNat)) ∧
        t.regs = { s.regs with
          cp := s.regs.cp + 1, hbuilt := t.regs.hbuilt, hwarn := t.regs.hwarn, warn := t.regs.warn } ∧
        t = { s with regs := t.regs, hder := t.hder, staleDraw := t.staleDraw })

/-- R222: `HSEL` selects a built table and raises `E_UNDEF(id)` on any other. -/
def Obligations.HselSelectsABuiltTable : Prop :=
  opDecodesTo 0x22 0 7 .hsel ∧
  ∀ (s : State) (id : BitVec 8), id.toNat ≤ 7 →
    (s.regs.hbuilt.getLsbD id.toNat = true →
      ∃ t, exec (.hsel id) s = .next t ∧ t.regs.hselrWord = 0x0100#16 ||| id.setWidth 16 ∧
        t = { s with regs.hselId := t.regs.hselId, regs.hselValid := true, regs.cp := s.regs.cp + 1 }) ∧
    (s.regs.hbuilt.getLsbD id.toNat = false → exec (.hsel id) s = .next (s.withFault 6 (id.setWidth 16)))

/-- R215, R223: with a valid table built and selected, `HDEC` on a bitstream that goes on with the code of the
`j`-th symbol delivers that symbol, consumes exactly that code, and changes nothing else. -/
def Obligations.HdecRecoversEverySymbol : Prop :=
  ∀ (s u : State) (t j : Nat), t = s.regs.hselId.toNat → s.regs.hselValid = true →
    s.regs.hbuilt.getLsbD t = true → tableValid (s.count t) = true → s.derivedExact t = true →
    s.regs.mkf = false → s.regs.resptr.toNat < s.params.resWords → j < countsUpTo (s.count t) 16 →
    s.readBits (codeSize (s.count t) j) 0 = .value (codeOf (s.count t) j) u →
    exec .hdec s = .next { s with
      res := s.res.store s.regs.resptr.toNat ((s.hvalAt t j).setWidth 16)
      regs.sym := s.hvalAt t j
      regs.symv := true
      regs.resptr := s.regs.resptr + 1
      regs.cp := s.regs.cp + 1
      regs.bsptr := u.regs.bsptr
      regs.bitbuf := u.regs.bitbuf
      regs.bitcnt := u.regs.bitcnt }

/-- R223: where `HDEC` reads no bit: no table selected, the selected table not built, stopped at a marker, `RES`
full. -/
def Obligations.HdecWithoutABit : Prop :=
  ∀ s : State,
    (s.regs.hselValid = false → exec .hdec s = .next (s.withFault 6 0xFFFF)) ∧
    (s.regs.hselValid = true → s.regs.hbuilt.getLsbD s.regs.hselId.toNat = false →
      exec .hdec s = .next (s.withFault 6 (s.regs.hselId.setWidth 16))) ∧
    (s.regs.hselValid = true → s.regs.hbuilt.getLsbD s.regs.hselId.toNat = true → s.regs.mkf = true →
      exec .hdec s = .next { s with regs.symv := false, regs.cp := s.regs.cp + 1 }) ∧
    (s.regs.hselValid = true → s.regs.hbuilt.getLsbD s.regs.hselId.toNat = true → s.regs.mkf = false →
      s.params.resWords ≤ s.regs.resptr.toNat →
      exec .hdec s = .next (State.withFault { s with regs.symv := false } 5 s.regs.resptr))

/-- R223: where `HDEC` delivers no symbol after `k` bits without a match: a marker ends it, the end of the
bitstream is `E_BOUNDS`, and sixteen bits without a match are `E_HCODE`; what was consumed stays consumed. -/
def Obligations.HdecWithoutASymbol : Prop :=
  ∀ (s u : State) (t k v : Nat), t = s.regs.hselId.toNat → s.regs.hselValid = true →
    s.regs.hbuilt.getLsbD t = true → s.regs.mkf = false → s.regs.resptr.toNat < s.params.resWords → k ≤ 16 →
    State.readBits { s with regs.symv := false } k 0 = .value v u →
    (∀ l, 1 ≤ l → l ≤ k → s.codeMatches t l (v / 2 ^ (k - l)) = false) →
    (k = 16 → exec .hdec s = .next (u.withFault 8 (BitVec.ofNat 16 v))) ∧
    (k < 16 → ∀ w, u.nextBit = .marker w → exec .hdec s = .next { w with regs.cp := s.regs.cp + 1 }) ∧
    (k < 16 → ∀ w info, u.nextBit = .bounds w info → exec .hdec s = .next (w.withFault 5 info))

/-- R224: `GETB`, case by case; the bits read are a number below `2^n`, first bit most significant. -/
def Obligations.GetbReadsRawBits : Prop :=
  opDecodesTo 0x24 1 16 .getb ∧
  ∀ (s : State) (n : BitVec 8), 1 ≤ n.toNat → n.toNat ≤ 16 →
    (s.regs.mkf = true → exec (.getb n) s = .next { s with regs.bitv := false, regs.cp := s.regs.cp + 1 }) ∧
    (s.regs.mkf = false → s.params.resWords ≤ s.regs.resptr.toNat →
      exec (.getb n) s = .next (State.withFault { s with regs.bitv := false } 5 s.regs.resptr)) ∧
    (s.regs.mkf = false → s.regs.resptr.toNat < s.params.resWords →
      (∀ v u, s.readBits n.toNat 0 = .value v u →
        v < 2 ^ n.toNat ∧
        exec (.getb n) s = .next { s with
          res := s.res.store s.regs.resptr.toNat (BitVec.ofNat 16 v)
          regs.bits := BitVec.ofNat 16 v
          regs.bitv := true
          regs.resptr := s.regs.resptr + 1
          regs.cp := s.regs.cp + 1
          regs.bsptr := u.regs.bsptr
          regs.bitbuf := u.regs.bitbuf
          regs.bitcnt := u.regs.bitcnt }) ∧
      (∀ u, s.readBits n.toNat 0 = .marker u →
        exec (.getb n) s = .next { u with regs.bitv := false, regs.cp := s.regs.cp + 1 }) ∧
      (∀ u info, s.readBits n.toNat 0 = .bounds u info →
        exec (.getb n) s = .next (State.withFault { u with regs.bitv := false } 5 info)))

/-- `GETB n` with at least `n` bits left in the accumulator takes the highest `n` of them and no byte (R34,
R210, R224). -/
def Obligations.GetbTakesTheAccumulatorsHighBits : Prop :=
  ∀ (s : State) (n : BitVec 8), 1 ≤ n.toNat → n.toNat ≤ s.regs.bitcnt.toNat → s.regs.bitcnt.toNat ≤ 8 →
    s.regs.mkf = false → s.regs.resptr.toNat < s.params.resWords →
    exec (.getb n) s = .next { s with
      res := s.res.store s.regs.resptr.toNat
        (BitVec.ofNat 16 (s.regs.bitbuf.toNat / 2 ^ (s.regs.bitcnt.toNat - n.toNat) % 2 ^ n.toNat))
      regs.bits := BitVec.ofNat 16 (s.regs.bitbuf.toNat / 2 ^ (s.regs.bitcnt.toNat - n.toNat) % 2 ^ n.toNat)
      regs.bitv := true
      regs.resptr := s.regs.resptr + 1
      regs.cp := s.regs.cp + 1
      regs.bitcnt := BitVec.ofNat 4 (s.regs.bitcnt.toNat - n.toNat) }

/-- A valid table is a prefix code: no symbol's code begins another's (R215). -/
def Obligations.CanonicalCodeIsPrefixFree : Prop :=
  ∀ n : Nat → Nat, tableValid n = true → ∀ i < countsUpTo n 16, ∀ j < countsUpTo n 16, i ≠ j →
    codeSize n i ≤ codeSize n j → codeOf n j / 2 ^ (codeSize n j - codeSize n i) ≠ codeOf n i

/-- The table is valid exactly when it has at most 256 symbols and every symbol's code fits its length (R215). -/
def Obligations.TableIsValidWhenEveryCodeFits : Prop :=
  ∀ n : Nat → Nat, tableValid n = true ↔
    countsUpTo n 16 ≤ 256 ∧ ∀ j < countsUpTo n 16, codeOf n j < 2 ^ codeSize n j

/-- With a valid table's arrays, the symbol index of a match is below the number of symbols and at most 255
(R223). -/
def Obligations.LookupIndexStaysInTheTable : Prop :=
  ∀ (s : State) (t l code : Nat), tableValid (s.count t) = true → s.derivedExact t = true → 1 ≤ l → l ≤ 16 →
    s.codeMatches t l code = true →
    (s.valptrAt t l).toNat + code - (s.mincodeAt t l).toNat < countsUpTo (s.count t) 16 ∧
    (s.valptrAt t l).toNat + code - (s.mincodeAt t l).toNat ≤ 255

/-! ## Invariants -/

/-- `HBUILT` tells the truth: every step, of the sequencer or of the host, keeps the derived arrays of every
built table those of the present contents of its counts (R37). -/
def Obligations.BuiltTablesStayExact : Prop :=
  ∀ s t : State, s.tablesExact → step s = .next t → t.tablesExact

/-- Every step keeps every memory canonical (the model's form, log entry 1), inside its space, and free of reserved
cells (R40, R70, R71). -/
def Obligations.MemoriesStayLegal : Prop :=
  ∀ s t : State, s.memoriesLegal = true → step s = .next t → t.memoriesLegal = true

/-- Every step keeps the registers consistent: `BITCNT` at most 8, built tables defined, `FAULT` exactly where
`ERR` is set, `MARKER` as the bit reader leaves it (R27, R34, R35, R36, R251). -/
def Obligations.RegistersStayConsistent : Prop :=
  ∀ s t : State, s.regs.consistent = true → step s = .next t → t.regs.consistent = true

/-- No step changes the parameters (R8). -/
def Obligations.ParametersNeverChange : Prop :=
  ∀ s t : State, step s = .next t → t.params = s.params

/-- R48, R280: the registers after a reset, `NNODES` 20 and all others 0; the invariants hold there. A hard reset from
any state, also during a run, puts every register at its reset value, leaves every memory unwritten and keeps the
parameters. That the host's events and its last read survive it, and that the draws of unwritten and of unbuilt cells
are new, is the model's choice (log entries 3, 4 and 11). -/
def Obligations.ResetValuesAndInvariants : Prop :=
  (State.reset.regs.hostRead 0x00 = some 0x5751 ∧ State.reset.regs.hostRead 0x07 = some 20 ∧
    (∀ i < 0x18, i ≠ 0x00 → i ≠ 0x07 → State.reset.regs.hostRead i = some 0) ∧
    State.reset.regs.state = .idle ∧ State.reset.params.legal = true ∧
    State.reset.tablesExact ∧ State.reset.memoriesLegal = true ∧ State.reset.regs.consistent = true) ∧
  (∀ (s : State) (rest : List HostEvent), s.pending = .hardReset :: rest →
    ∃ t, step s = .next t ∧ t.regs = State.reset.regs ∧ t.params = s.params ∧
      t.cmd = [] ∧ t.plane = [] ∧ t.lotap = [] ∧ t.hitap = [] ∧ t.tree = [] ∧ t.hbits = [] ∧ t.hval = [] ∧
      t.bs = [] ∧ t.res = [] ∧ t.hder = [] ∧ t.scr = [] ∧
      t.pending = rest ∧ t.hostData = s.hostData ∧ t.powerOn ≠ s.powerOn ∧ t.staleDraw ≠ s.staleDraw)

/-! ## The host port -/

/-- R29, R71: the refused accesses and what they leave, and the accesses that are not refused though nothing
is there: a read of `CTRL`, a write of a reserved cell (that one of `HDER` array 3 is no refused write of a read-only
space is the model's reading of R71 against R29, log entry 6). -/
def Obligations.RefusedHostAccessesOnlySetHosterr : Prop :=
  ∀ (s : State) (rest : List HostEvent) (space index : Nat) (v : Word),
    (s.pending = .write space index v :: rest →
      s.regs.state = .run ∨ 11 ≤ space ∨
        (space = 0 ∧ index ∈ [0x00, 0x02, 0x03, 0x04, 0x05, 0x0E, 0x0F, 0x10, 0x12, 0x13, 0x14, 0x15, 0x16]) ∨
        (space = 0 ∧ 0x18 ≤ index) ∨ (space = 10 ∧ index % 64 < 48) ∨
        (∃ id, spaceMem space = some id ∧ id.cells s.params ≤ index) →
      step s = .next { s with pending := rest, regs.hosterr := true }) ∧
    (s.pending = .read space index :: rest →
      (s.regs.state = .run ∧ space ≠ 0) ∨ 11 ≤ space ∨ (space = 0 ∧ 0x18 ≤ index) ∨
        (∃ id, spaceMem space = some id ∧ id.cells s.params ≤ index) →
      step s = .next { s with pending := rest, regs.hosterr := true, hostData := 0 }) ∧
    (s.pending = .read 0 1 :: rest → step s = .next { s with pending := rest, hostData := 0 }) ∧
    (s.pending = .write 5 index v :: rest → s.regs.state ≠ .run → index < 160 → 6 ≤ index % 8 →
      step s = .next { s with pending := rest }) ∧
    (s.pending = .write 10 index v :: rest → s.regs.state ≠ .run → index < 512 → 48 ≤ index % 64 →
      step s = .next { s with pending := rest })

/-- Reads have no side effect but `HOSTERR`, and a register read is answered during a run as outside it (R29,
R77). -/
def Obligations.HostReadsDoNotDisturb : Prop :=
  ∀ (s t : State) (rest : List HostEvent) (space index : Nat), s.pending = .read space index :: rest →
    step s = .next t →
    t = { s with pending := rest, regs.hosterr := t.regs.hosterr, hostData := t.hostData } ∧
    (space = 0 → index < 0x18 → t.regs.hosterr = s.regs.hosterr ∧
      some t.hostData = (s.regs.hostRead index).map (·.setWidth 32))

/-- R25: `ID` reads 0x5751 always. -/
def Obligations.IdReadsAlways : Prop :=
  ∀ (s : State) (rest : List HostEvent), s.pending = .read 0 0 :: rest →
    step s = .next { s with pending := rest, hostData := 0x5751 }

/-- What the host reads outside a run. A cell it has just written reads back as the value written, cut to the cell's
width; of a `TREE` flag cell bit 0 is stored and read; with nothing refused. A reserved cell, `TREE` field 6 or 7 or
`HDER` array 3, reads 0. A derived cell of a built table reads as its `MINCODE`, `MAXCODE` or `VALPTR` (R40, R43, R70,
R71, R77, R79). -/
def Obligations.HostReadsBackWhatItWrote : Prop :=
  (∀ (s : State) (space index : Nat) (id : MemId) (v : Word), s.regs.state ≠ .run → spaceMem space = some id →
    id ≠ .hder → index < id.cells s.params → (id = .tree → index % 8 < 4) →
    s.pending = [.write space index v, .read space index] →
    ∃ t, Sys2Proof.core.run 2 s = .next t ∧ t.hostData.toNat = v.toNat % 2 ^ id.bits ∧
      t.regs.hosterr = s.regs.hosterr) ∧
  (∀ (s : State) (index : Nat) (v : Word), s.regs.state ≠ .run → index < 160 → 4 ≤ index % 8 → index % 8 ≤ 5 →
    s.pending = [.write 5 index v, .read 5 index] →
    ∃ t, Sys2Proof.core.run 2 s = .next t ∧ t.hostData.toNat = v.toNat % 2 ∧
      t.tree.lookup index = some (BitVec.ofNat 16 (v.toNat % 2)) ∧ t.regs.hosterr = s.regs.hosterr) ∧
  (∀ (s : State) (rest : List HostEvent) (space index : Nat), s.regs.state ≠ .run →
    (space = 5 ∧ index < 160 ∧ 6 ≤ index % 8) ∨ (space = 10 ∧ index < 512 ∧ 48 ≤ index % 64) →
    s.pending = .read space index :: rest → step s = .next { s with pending := rest, hostData := 0 }) ∧
  (∀ (s : State) (rest : List HostEvent) (t l : Nat), s.regs.state ≠ .run → t < 8 → 1 ≤ l → l ≤ 16 →
    s.regs.hbuilt.getLsbD t = true →
    (s.pending = .read 10 (t * 64 + (l - 1)) :: rest →
      step s = .next { s with pending := rest, hostData := (s.mincodeAt t l).setWidth 32 }) ∧
    (s.pending = .read 10 (t * 64 + 16 + (l - 1)) :: rest →
      step s = .next { s with pending := rest, hostData := (s.maxcodeAt t l).setWidth 32 }) ∧
    (s.pending = .read 10 (t * 64 + 32 + (l - 1)) :: rest →
      step s = .next { s with pending := rest, hostData := (s.valptrAt t l).setWidth 32 }))

/-- R281: a soft reset outside a run puts every register at its reset value and leaves every memory; during a
run it is refused. No other step, but for a hard reset, leaves `FAULT` or clears `WARN`, `HOSTERR` or `ERR`. The
draw counter of unbuilt arrays is the model's own and stays open (log entry 4). -/
def Obligations.SoftResetKeepsTheMemories : Prop :=
  (∀ (s : State) (rest : List HostEvent) (v : Word), s.pending = .write 0 1 v :: rest → v.getLsbD 1 = true →
    (s.regs.state ≠ .run →
      ∃ n, step s = .next { s with pending := rest, regs := Regs.reset, staleDraw := n }) ∧
    (s.regs.state = .run → step s = .next { s with pending := rest, regs.hosterr := true })) ∧
  (∀ s t : State, step s = .next t → (∀ rest, s.pending ≠ .hardReset :: rest) →
    (∀ v rest, s.pending = .write 0 1 v :: rest → v.getLsbD 1 = false ∨ s.regs.state = .run) →
    (s.regs.warn = true → t.regs.warn = true) ∧ (s.regs.hosterr = true → t.regs.hosterr = true) ∧
    (s.regs.err ≠ 0 → t.regs.err ≠ 0) ∧ (s.regs.state = .fault → t.regs.state = .fault))

/-- A host write into a table's definition outside a run clears the table's bit of `HBUILT` and keeps `HDEF` and
`HSELR` (R37, R77); the draw counter of unbuilt arrays advances (the model's own, log entry 4). -/
def Obligations.TableWritesUnbuild : Prop :=
  ∀ (s : State) (rest : List HostEvent) (space index t : Nat) (v : Word),
    s.pending = .write space index v :: rest → s.regs.state ≠ .run →
    (space = 6 ∧ index < 128 ∧ t = index / 16) ∨ (space = 7 ∧ index < 2048 ∧ t = index / 256) →
    ∃ u, step s = .next u ∧
      (∀ i < 8, u.regs.hbuilt.getLsbD i = (s.regs.hbuilt.getLsbD i && decide (i ≠ t))) ∧
      u.regs = { s.regs with hbuilt := u.regs.hbuilt } ∧
      (space = 6 → u.hbits = s.hbits.store index (v.setWidth 8) ∧ u.hval = s.hval) ∧
      (space = 7 → u.hval = s.hval.store index (v.setWidth 8) ∧ u.hbits = s.hbits) ∧
      u = { s with pending := rest, regs := u.regs, hbits := u.hbits, hval := u.hval, staleDraw := s.staleDraw + 1 }

/-! ## Floats -/

/-- R11: the product of finite operands is rounded once to nearest, ties to even, and overflows to the infinity
of the right sign. Values are in units of 2^-149, the exact product in units of 2^-298. -/
def Obligations.ProductIsRoundedToNearestEven : Prop :=
  ∀ a b : Word, isFinite a = true → isFinite b = true →
    fsign (fmul a b) = (fsign a != fsign b) ∧
    ((2 ^ 25 - 1) * 2 ^ 401 ≤ (fval a * fval b).natAbs → isInf (fmul a b) = true) ∧
    ((fval a * fval b).natAbs < (2 ^ 25 - 1) * 2 ^ 401 →
      isFinite (fmul a b) = true ∧
      ∀ c : Word, isFinite c = true →
        (fval (fmul a b) * 2 ^ 149 - fval a * fval b).natAbs ≤ (fval c * 2 ^ 149 - fval a * fval b).natAbs ∧
        ((fval (fmul a b) * 2 ^ 149 - fval a * fval b).natAbs = (fval c * 2 ^ 149 - fval a * fval b).natAbs →
          fval c = fval (fmul a b) ∨ ffrac (fmul a b) % 2 = 0))

/-- R11: the sum of finite operands is rounded once to nearest, ties to even, and overflows to the infinity of
the right sign; an exact zero sum is `+0.0` unless both operands are negative. -/
def Obligations.SumIsRoundedToNearestEven : Prop :=
  ∀ a b : Word, isFinite a = true → isFinite b = true →
    (fval a + fval b ≠ 0 → fsign (fadd a b) = decide (fval a + fval b < 0)) ∧
    (fval a + fval b = 0 → fadd a b = if fsign a && fsign b then 0x80000000#32 else 0x00000000#32) ∧
    ((2 ^ 25 - 1) * 2 ^ 252 ≤ (fval a + fval b).natAbs → isInf (fadd a b) = true) ∧
    ((fval a + fval b).natAbs < (2 ^ 25 - 1) * 2 ^ 252 →
      isFinite (fadd a b) = true ∧
      ∀ c : Word, isFinite c = true →
        (fval (fadd a b) - (fval a + fval b)).natAbs ≤ (fval c - (fval a + fval b)).natAbs ∧
        ((fval (fadd a b) - (fval a + fval b)).natAbs = (fval c - (fval a + fval b)).natAbs →
          fval c = fval (fadd a b) ∨ ffrac (fadd a b) % 2 = 0))

/-- R11: a NaN operand and the invalid operations give a NaN, whatever its sign and payload; the other operations
on infinities, in either order, give infinities of the right sign; `fneg` flips the sign bit and nothing else. -/
def Obligations.SpecialFloatsFollowR11 : Prop :=
  (∀ a b : Word, isNaN a = true ∨ isNaN b = true → isNaN (fmul a b) = true ∧ isNaN (fadd a b) = true) ∧
  (∀ a b : Word, isInf a = true → isZero b = true → isNaN (fmul a b) = true ∧ isNaN (fmul b a) = true) ∧
  (∀ a b : Word, isInf a = true → isInf b = true → fsign a ≠ fsign b → isNaN (fadd a b) = true) ∧
  (∀ a b : Word, isInf a = true → isNaN b = false → isZero b = false →
    isInf (fmul a b) = true ∧ fsign (fmul a b) = (fsign a != fsign b) ∧
    isInf (fmul b a) = true ∧ fsign (fmul b a) = (fsign b != fsign a)) ∧
  (∀ a b : Word, isInf a = true → isFinite b = true → fadd a b = a ∧ fadd b a = a) ∧
  (∀ a b : Word, isInf a = true → isInf b = true → fsign a = fsign b → fadd a b = a) ∧
  (∀ a : Word, fsign (fneg a) = !(fsign a) ∧ fexp (fneg a) = fexp a ∧ ffrac (fneg a) = ffrac a)
end

