-- ==== Sys2Proof/Laws/State.lean ====
section
/-! SUPPORT. What each named update of the state leaves in each field, true by definition. -/

namespace Sys2Proof.Machine

variable (s : State)

@[simp] theorem State.advance_params : s.advance.params = s.params := rfl
@[simp] theorem State.advance_cmd : s.advance.cmd = s.cmd := rfl
@[simp] theorem State.advance_plane : s.advance.plane = s.plane := rfl
@[simp] theorem State.advance_lotap : s.advance.lotap = s.lotap := rfl
@[simp] theorem State.advance_hitap : s.advance.hitap = s.hitap := rfl
@[simp] theorem State.advance_tree : s.advance.tree = s.tree := rfl
@[simp] theorem State.advance_hbits : s.advance.hbits = s.hbits := rfl
@[simp] theorem State.advance_hval : s.advance.hval = s.hval := rfl
@[simp] theorem State.advance_bs : s.advance.bs = s.bs := rfl
@[simp] theorem State.advance_res : s.advance.res = s.res := rfl
@[simp] theorem State.advance_hder : s.advance.hder = s.hder := rfl
@[simp] theorem State.advance_scr : s.advance.scr = s.scr := rfl
@[simp] theorem State.advance_powerOn : s.advance.powerOn = s.powerOn := rfl
@[simp] theorem State.advance_staleDraw : s.advance.staleDraw = s.staleDraw := rfl
@[simp] theorem State.advance_pending : s.advance.pending = s.pending := rfl
@[simp] theorem State.advance_hostData : s.advance.hostData = s.hostData := rfl
@[simp] theorem State.advance_regs_state : s.advance.regs.state = s.regs.state := rfl
@[simp] theorem State.advance_regs_mkf : s.advance.regs.mkf = s.regs.mkf := rfl
@[simp] theorem State.advance_regs_symv : s.advance.regs.symv = s.regs.symv := rfl
@[simp] theorem State.advance_regs_bitv : s.advance.regs.bitv = s.regs.bitv := rfl
@[simp] theorem State.advance_regs_warn : s.advance.regs.warn = s.regs.warn := rfl
@[simp] theorem State.advance_regs_hosterr : s.advance.regs.hosterr = s.regs.hosterr := rfl
@[simp] theorem State.advance_regs_err : s.advance.regs.err = s.regs.err := rfl
@[simp] theorem State.advance_regs_errinfo : s.advance.regs.errinfo = s.regs.errinfo := rfl
@[simp] theorem State.advance_regs_cp : s.advance.regs.cp = s.regs.cp + 1 := rfl
@[simp] theorem State.advance_regs_cpstart : s.advance.regs.cpstart = s.regs.cpstart := rfl
@[simp] theorem State.advance_regs_nnodes : s.advance.regs.nnodes = s.regs.nnodes := rfl
@[simp] theorem State.advance_regs_width : s.advance.regs.width = s.regs.width := rfl
@[simp] theorem State.advance_regs_height : s.advance.regs.height = s.regs.height := rfl
@[simp] theorem State.advance_regs_lsz : s.advance.regs.lsz = s.regs.lsz := rfl
@[simp] theorem State.advance_regs_hsz : s.advance.regs.hsz = s.regs.hsz := rfl
@[simp] theorem State.advance_regs_bsptr : s.advance.regs.bsptr = s.regs.bsptr := rfl
@[simp] theorem State.advance_regs_bsend : s.advance.regs.bsend = s.regs.bsend := rfl
@[simp] theorem State.advance_regs_bitcnt : s.advance.regs.bitcnt = s.regs.bitcnt := rfl
@[simp] theorem State.advance_regs_bitbuf : s.advance.regs.bitbuf = s.regs.bitbuf := rfl
@[simp] theorem State.advance_regs_marker : s.advance.regs.marker = s.regs.marker := rfl
@[simp] theorem State.advance_regs_hdef : s.advance.regs.hdef = s.regs.hdef := rfl
@[simp] theorem State.advance_regs_hbuilt : s.advance.regs.hbuilt = s.regs.hbuilt := rfl
@[simp] theorem State.advance_regs_hwarn : s.advance.regs.hwarn = s.regs.hwarn := rfl
@[simp] theorem State.advance_regs_hselId : s.advance.regs.hselId = s.regs.hselId := rfl
@[simp] theorem State.advance_regs_hselValid : s.advance.regs.hselValid = s.regs.hselValid := rfl
@[simp] theorem State.advance_regs_sym : s.advance.regs.sym = s.regs.sym := rfl
@[simp] theorem State.advance_regs_bits : s.advance.regs.bits = s.regs.bits := rfl
@[simp] theorem State.advance_regs_resptr : s.advance.regs.resptr = s.regs.resptr := rfl

@[simp] theorem State.raise_params (e : ErrCode) (info : Half) : (s.raise e info).params = s.params := rfl
@[simp] theorem State.raise_cmd (e : ErrCode) (info : Half) : (s.raise e info).cmd = s.cmd := rfl
@[simp] theorem State.raise_plane (e : ErrCode) (info : Half) : (s.raise e info).plane = s.plane := rfl
@[simp] theorem State.raise_lotap (e : ErrCode) (info : Half) : (s.raise e info).lotap = s.lotap := rfl
@[simp] theorem State.raise_hitap (e : ErrCode) (info : Half) : (s.raise e info).hitap = s.hitap := rfl
@[simp] theorem State.raise_tree (e : ErrCode) (info : Half) : (s.raise e info).tree = s.tree := rfl
@[simp] theorem State.raise_hbits (e : ErrCode) (info : Half) : (s.raise e info).hbits = s.hbits := rfl
@[simp] theorem State.raise_hval (e : ErrCode) (info : Half) : (s.raise e info).hval = s.hval := rfl
@[simp] theorem State.raise_bs (e : ErrCode) (info : Half) : (s.raise e info).bs = s.bs := rfl
@[simp] theorem State.raise_res (e : ErrCode) (info : Half) : (s.raise e info).res = s.res := rfl
@[simp] theorem State.raise_hder (e : ErrCode) (info : Half) : (s.raise e info).hder = s.hder := rfl
@[simp] theorem State.raise_scr (e : ErrCode) (info : Half) : (s.raise e info).scr = s.scr := rfl
@[simp] theorem State.raise_powerOn (e : ErrCode) (info : Half) : (s.raise e info).powerOn = s.powerOn := rfl
@[simp] theorem State.raise_staleDraw (e : ErrCode) (info : Half) : (s.raise e info).staleDraw = s.staleDraw := rfl
@[simp] theorem State.raise_pending (e : ErrCode) (info : Half) : (s.raise e info).pending = s.pending := rfl
@[simp] theorem State.raise_hostData (e : ErrCode) (info : Half) : (s.raise e info).hostData = s.hostData := rfl
@[simp] theorem State.raise_regs_state (e : ErrCode) (info : Half) : (s.raise e info).regs.state = .fault := rfl
@[simp] theorem State.raise_regs_mkf (e : ErrCode) (info : Half) : (s.raise e info).regs.mkf = s.regs.mkf := rfl
@[simp] theorem State.raise_regs_symv (e : ErrCode) (info : Half) : (s.raise e info).regs.symv = s.regs.symv := rfl
@[simp] theorem State.raise_regs_bitv (e : ErrCode) (info : Half) : (s.raise e info).regs.bitv = s.regs.bitv := rfl
@[simp] theorem State.raise_regs_warn (e : ErrCode) (info : Half) : (s.raise e info).regs.warn = s.regs.warn := rfl
@[simp] theorem State.raise_regs_hosterr (e : ErrCode) (info : Half) : (s.raise e info).regs.hosterr = s.regs.hosterr := rfl
@[simp] theorem State.raise_regs_err (e : ErrCode) (info : Half) : (s.raise e info).regs.err = e.code := rfl
@[simp] theorem State.raise_regs_errinfo (e : ErrCode) (info : Half) : (s.raise e info).regs.errinfo = info := rfl
@[simp] theorem State.raise_regs_cp (e : ErrCode) (info : Half) : (s.raise e info).regs.cp = s.regs.cp := rfl
@[simp] theorem State.raise_regs_cpstart (e : ErrCode) (info : Half) : (s.raise e info).regs.cpstart = s.regs.cpstart := rfl
@[simp] theorem State.raise_regs_nnodes (e : ErrCode) (info : Half) : (s.raise e info).regs.nnodes = s.regs.nnodes := rfl
@[simp] theorem State.raise_regs_width (e : ErrCode) (info : Half) : (s.raise e info).regs.width = s.regs.width := rfl
@[simp] theorem State.raise_regs_height (e : ErrCode) (info : Half) : (s.raise e info).regs.height = s.regs.height := rfl
@[simp] theorem State.raise_regs_lsz (e : ErrCode) (info : Half) : (s.raise e info).regs.lsz = s.regs.lsz := rfl
@[simp] theorem State.raise_regs_hsz (e : ErrCode) (info : Half) : (s.raise e info).regs.hsz = s.regs.hsz := rfl
@[simp] theorem State.raise_regs_bsptr (e : ErrCode) (info : Half) : (s.raise e info).regs.bsptr = s.regs.bsptr := rfl
@[simp] theorem State.raise_regs_bsend (e : ErrCode) (info : Half) : (s.raise e info).regs.bsend = s.regs.bsend := rfl
@[simp] theorem State.raise_regs_bitcnt (e : ErrCode) (info : Half) : (s.raise e info).regs.bitcnt = s.regs.bitcnt := rfl
@[simp] theorem State.raise_regs_bitbuf (e : ErrCode) (info : Half) : (s.raise e info).regs.bitbuf = s.regs.bitbuf := rfl
@[simp] theorem State.raise_regs_marker (e : ErrCode) (info : Half) : (s.raise e info).regs.marker = s.regs.marker := rfl
@[simp] theorem State.raise_regs_hdef (e : ErrCode) (info : Half) : (s.raise e info).regs.hdef = s.regs.hdef := rfl
@[simp] theorem State.raise_regs_hbuilt (e : ErrCode) (info : Half) : (s.raise e info).regs.hbuilt = s.regs.hbuilt := rfl
@[simp] theorem State.raise_regs_hwarn (e : ErrCode) (info : Half) : (s.raise e info).regs.hwarn = s.regs.hwarn := rfl
@[simp] theorem State.raise_regs_hselId (e : ErrCode) (info : Half) : (s.raise e info).regs.hselId = s.regs.hselId := rfl
@[simp] theorem State.raise_regs_hselValid (e : ErrCode) (info : Half) : (s.raise e info).regs.hselValid = s.regs.hselValid := rfl
@[simp] theorem State.raise_regs_sym (e : ErrCode) (info : Half) : (s.raise e info).regs.sym = s.regs.sym := rfl
@[simp] theorem State.raise_regs_bits (e : ErrCode) (info : Half) : (s.raise e info).regs.bits = s.regs.bits := rfl
@[simp] theorem State.raise_regs_resptr (e : ErrCode) (info : Half) : (s.raise e info).regs.resptr = s.regs.resptr := rfl

@[simp] theorem State.unbuild_params (mask : BitVec 8) : (s.unbuild mask).params = s.params := rfl
@[simp] theorem State.unbuild_cmd (mask : BitVec 8) : (s.unbuild mask).cmd = s.cmd := rfl
@[simp] theorem State.unbuild_plane (mask : BitVec 8) : (s.unbuild mask).plane = s.plane := rfl
@[simp] theorem State.unbuild_lotap (mask : BitVec 8) : (s.unbuild mask).lotap = s.lotap := rfl
@[simp] theorem State.unbuild_hitap (mask : BitVec 8) : (s.unbuild mask).hitap = s.hitap := rfl
@[simp] theorem State.unbuild_tree (mask : BitVec 8) : (s.unbuild mask).tree = s.tree := rfl
@[simp] theorem State.unbuild_hbits (mask : BitVec 8) : (s.unbuild mask).hbits = s.hbits := rfl
@[simp] theorem State.unbuild_hval (mask : BitVec 8) : (s.unbuild mask).hval = s.hval := rfl
@[simp] theorem State.unbuild_bs (mask : BitVec 8) : (s.unbuild mask).bs = s.bs := rfl
@[simp] theorem State.unbuild_res (mask : BitVec 8) : (s.unbuild mask).res = s.res := rfl
@[simp] theorem State.unbuild_hder (mask : BitVec 8) : (s.unbuild mask).hder = s.hder := rfl
@[simp] theorem State.unbuild_scr (mask : BitVec 8) : (s.unbuild mask).scr = s.scr := rfl
@[simp] theorem State.unbuild_powerOn (mask : BitVec 8) : (s.unbuild mask).powerOn = s.powerOn := rfl
@[simp] theorem State.unbuild_staleDraw (mask : BitVec 8) : (s.unbuild mask).staleDraw = s.staleDraw + 1 := rfl
@[simp] theorem State.unbuild_pending (mask : BitVec 8) : (s.unbuild mask).pending = s.pending := rfl
@[simp] theorem State.unbuild_hostData (mask : BitVec 8) : (s.unbuild mask).hostData = s.hostData := rfl
@[simp] theorem State.unbuild_regs_state (mask : BitVec 8) : (s.unbuild mask).regs.state = s.regs.state := rfl
@[simp] theorem State.unbuild_regs_mkf (mask : BitVec 8) : (s.unbuild mask).regs.mkf = s.regs.mkf := rfl
@[simp] theorem State.unbuild_regs_symv (mask : BitVec 8) : (s.unbuild mask).regs.symv = s.regs.symv := rfl
@[simp] theorem State.unbuild_regs_bitv (mask : BitVec 8) : (s.unbuild mask).regs.bitv = s.regs.bitv := rfl
@[simp] theorem State.unbuild_regs_warn (mask : BitVec 8) : (s.unbuild mask).regs.warn = s.regs.warn := rfl
@[simp] theorem State.unbuild_regs_hosterr (mask : BitVec 8) : (s.unbuild mask).regs.hosterr = s.regs.hosterr := rfl
@[simp] theorem State.unbuild_regs_err (mask : BitVec 8) : (s.unbuild mask).regs.err = s.regs.err := rfl
@[simp] theorem State.unbuild_regs_errinfo (mask : BitVec 8) : (s.unbuild mask).regs.errinfo = s.regs.errinfo := rfl
@[simp] theorem State.unbuild_regs_cp (mask : BitVec 8) : (s.unbuild mask).regs.cp = s.regs.cp := rfl
@[simp] theorem State.unbuild_regs_cpstart (mask : BitVec 8) : (s.unbuild mask).regs.cpstart = s.regs.cpstart := rfl
@[simp] theorem State.unbuild_regs_nnodes (mask : BitVec 8) : (s.unbuild mask).regs.nnodes = s.regs.nnodes := rfl
@[simp] theorem State.unbuild_regs_width (mask : BitVec 8) : (s.unbuild mask).regs.width = s.regs.width := rfl
@[simp] theorem State.unbuild_regs_height (mask : BitVec 8) : (s.unbuild mask).regs.height = s.regs.height := rfl
@[simp] theorem State.unbuild_regs_lsz (mask : BitVec 8) : (s.unbuild mask).regs.lsz = s.regs.lsz := rfl
@[simp] theorem State.unbuild_regs_hsz (mask : BitVec 8) : (s.unbuild mask).regs.hsz = s.regs.hsz := rfl
@[simp] theorem State.unbuild_regs_bsptr (mask : BitVec 8) : (s.unbuild mask).regs.bsptr = s.regs.bsptr := rfl
@[simp] theorem State.unbuild_regs_bsend (mask : BitVec 8) : (s.unbuild mask).regs.bsend = s.regs.bsend := rfl
@[simp] theorem State.unbuild_regs_bitcnt (mask : BitVec 8) : (s.unbuild mask).regs.bitcnt = s.regs.bitcnt := rfl
@[simp] theorem State.unbuild_regs_bitbuf (mask : BitVec 8) : (s.unbuild mask).regs.bitbuf = s.regs.bitbuf := rfl
@[simp] theorem State.unbuild_regs_marker (mask : BitVec 8) : (s.unbuild mask).regs.marker = s.regs.marker := rfl
@[simp] theorem State.unbuild_regs_hdef (mask : BitVec 8) : (s.unbuild mask).regs.hdef = s.regs.hdef := rfl
@[simp] theorem State.unbuild_regs_hbuilt (mask : BitVec 8) : (s.unbuild mask).regs.hbuilt = s.regs.hbuilt &&& mask := rfl
@[simp] theorem State.unbuild_regs_hwarn (mask : BitVec 8) : (s.unbuild mask).regs.hwarn = s.regs.hwarn := rfl
@[simp] theorem State.unbuild_regs_hselId (mask : BitVec 8) : (s.unbuild mask).regs.hselId = s.regs.hselId := rfl
@[simp] theorem State.unbuild_regs_hselValid (mask : BitVec 8) : (s.unbuild mask).regs.hselValid = s.regs.hselValid := rfl
@[simp] theorem State.unbuild_regs_sym (mask : BitVec 8) : (s.unbuild mask).regs.sym = s.regs.sym := rfl
@[simp] theorem State.unbuild_regs_bits (mask : BitVec 8) : (s.unbuild mask).regs.bits = s.regs.bits := rfl
@[simp] theorem State.unbuild_regs_resptr (mask : BitVec 8) : (s.unbuild mask).regs.resptr = s.regs.resptr := rfl

@[simp] theorem State.appendResult_params (v : Half) : (s.appendResult v).params = s.params := rfl
@[simp] theorem State.appendResult_cmd (v : Half) : (s.appendResult v).cmd = s.cmd := rfl
@[simp] theorem State.appendResult_plane (v : Half) : (s.appendResult v).plane = s.plane := rfl
@[simp] theorem State.appendResult_lotap (v : Half) : (s.appendResult v).lotap = s.lotap := rfl
@[simp] theorem State.appendResult_hitap (v : Half) : (s.appendResult v).hitap = s.hitap := rfl
@[simp] theorem State.appendResult_tree (v : Half) : (s.appendResult v).tree = s.tree := rfl
@[simp] theorem State.appendResult_hbits (v : Half) : (s.appendResult v).hbits = s.hbits := rfl
@[simp] theorem State.appendResult_hval (v : Half) : (s.appendResult v).hval = s.hval := rfl
@[simp] theorem State.appendResult_bs (v : Half) : (s.appendResult v).bs = s.bs := rfl
@[simp] theorem State.appendResult_res (v : Half) : (s.appendResult v).res = s.res.store s.regs.resptr.toNat v := rfl
@[simp] theorem State.appendResult_hder (v : Half) : (s.appendResult v).hder = s.hder := rfl
@[simp] theorem State.appendResult_scr (v : Half) : (s.appendResult v).scr = s.scr := rfl
@[simp] theorem State.appendResult_powerOn (v : Half) : (s.appendResult v).powerOn = s.powerOn := rfl
@[simp] theorem State.appendResult_staleDraw (v : Half) : (s.appendResult v).staleDraw = s.staleDraw := rfl
@[simp] theorem State.appendResult_pending (v : Half) : (s.appendResult v).pending = s.pending := rfl
@[simp] theorem State.appendResult_hostData (v : Half) : (s.appendResult v).hostData = s.hostData := rfl
@[simp] theorem State.appendResult_regs_state (v : Half) : (s.appendResult v).regs.state = s.regs.state := rfl
@[simp] theorem State.appendResult_regs_mkf (v : Half) : (s.appendResult v).regs.mkf = s.regs.mkf := rfl
@[simp] theorem State.appendResult_regs_symv (v : Half) : (s.appendResult v).regs.symv = s.regs.symv := rfl
@[simp] theorem State.appendResult_regs_bitv (v : Half) : (s.appendResult v).regs.bitv = s.regs.bitv := rfl
@[simp] theorem State.appendResult_regs_warn (v : Half) : (s.appendResult v).regs.warn = s.regs.warn := rfl
@[simp] theorem State.appendResult_regs_hosterr (v : Half) : (s.appendResult v).regs.hosterr = s.regs.hosterr := rfl
@[simp] theorem State.appendResult_regs_err (v : Half) : (s.appendResult v).regs.err = s.regs.err := rfl
@[simp] theorem State.appendResult_regs_errinfo (v : Half) : (s.appendResult v).regs.errinfo = s.regs.errinfo := rfl
@[simp] theorem State.appendResult_regs_cp (v : Half) : (s.appendResult v).regs.cp = s.regs.cp := rfl
@[simp] theorem State.appendResult_regs_cpstart (v : Half) : (s.appendResult v).regs.cpstart = s.regs.cpstart := rfl
@[simp] theorem State.appendResult_regs_nnodes (v : Half) : (s.appendResult v).regs.nnodes = s.regs.nnodes := rfl
@[simp] theorem State.appendResult_regs_width (v : Half) : (s.appendResult v).regs.width = s.regs.width := rfl
@[simp] theorem State.appendResult_regs_height (v : Half) : (s.appendResult v).regs.height = s.regs.height := rfl
@[simp] theorem State.appendResult_regs_lsz (v : Half) : (s.appendResult v).regs.lsz = s.regs.lsz := rfl
@[simp] theorem State.appendResult_regs_hsz (v : Half) : (s.appendResult v).regs.hsz = s.regs.hsz := rfl
@[simp] theorem State.appendResult_regs_bsptr (v : Half) : (s.appendResult v).regs.bsptr = s.regs.bsptr := rfl
@[simp] theorem State.appendResult_regs_bsend (v : Half) : (s.appendResult v).regs.bsend = s.regs.bsend := rfl
@[simp] theorem State.appendResult_regs_bitcnt (v : Half) : (s.appendResult v).regs.bitcnt = s.regs.bitcnt := rfl
@[simp] theorem State.appendResult_regs_bitbuf (v : Half) : (s.appendResult v).regs.bitbuf = s.regs.bitbuf := rfl
@[simp] theorem State.appendResult_regs_marker (v : Half) : (s.appendResult v).regs.marker = s.regs.marker := rfl
@[simp] theorem State.appendResult_regs_hdef (v : Half) : (s.appendResult v).regs.hdef = s.regs.hdef := rfl
@[simp] theorem State.appendResult_regs_hbuilt (v : Half) : (s.appendResult v).regs.hbuilt = s.regs.hbuilt := rfl
@[simp] theorem State.appendResult_regs_hwarn (v : Half) : (s.appendResult v).regs.hwarn = s.regs.hwarn := rfl
@[simp] theorem State.appendResult_regs_hselId (v : Half) : (s.appendResult v).regs.hselId = s.regs.hselId := rfl
@[simp] theorem State.appendResult_regs_hselValid (v : Half) : (s.appendResult v).regs.hselValid = s.regs.hselValid := rfl
@[simp] theorem State.appendResult_regs_sym (v : Half) : (s.appendResult v).regs.sym = s.regs.sym := rfl
@[simp] theorem State.appendResult_regs_bits (v : Half) : (s.appendResult v).regs.bits = s.regs.bits := rfl
@[simp] theorem State.appendResult_regs_resptr (v : Half) : (s.appendResult v).regs.resptr = s.regs.resptr + 1 := rfl

@[simp] theorem State.setMarker_params (b2 : Byte) : (s.setMarker b2).params = s.params := rfl
@[simp] theorem State.setMarker_cmd (b2 : Byte) : (s.setMarker b2).cmd = s.cmd := rfl
@[simp] theorem State.setMarker_plane (b2 : Byte) : (s.setMarker b2).plane = s.plane := rfl
@[simp] theorem State.setMarker_lotap (b2 : Byte) : (s.setMarker b2).lotap = s.lotap := rfl
@[simp] theorem State.setMarker_hitap (b2 : Byte) : (s.setMarker b2).hitap = s.hitap := rfl
@[simp] theorem State.setMarker_tree (b2 : Byte) : (s.setMarker b2).tree = s.tree := rfl
@[simp] theorem State.setMarker_hbits (b2 : Byte) : (s.setMarker b2).hbits = s.hbits := rfl
@[simp] theorem State.setMarker_hval (b2 : Byte) : (s.setMarker b2).hval = s.hval := rfl
@[simp] theorem State.setMarker_bs (b2 : Byte) : (s.setMarker b2).bs = s.bs := rfl
@[simp] theorem State.setMarker_res (b2 : Byte) : (s.setMarker b2).res = s.res := rfl
@[simp] theorem State.setMarker_hder (b2 : Byte) : (s.setMarker b2).hder = s.hder := rfl
@[simp] theorem State.setMarker_scr (b2 : Byte) : (s.setMarker b2).scr = s.scr := rfl
@[simp] theorem State.setMarker_powerOn (b2 : Byte) : (s.setMarker b2).powerOn = s.powerOn := rfl
@[simp] theorem State.setMarker_staleDraw (b2 : Byte) : (s.setMarker b2).staleDraw = s.staleDraw := rfl
@[simp] theorem State.setMarker_pending (b2 : Byte) : (s.setMarker b2).pending = s.pending := rfl
@[simp] theorem State.setMarker_hostData (b2 : Byte) : (s.setMarker b2).hostData = s.hostData := rfl
@[simp] theorem State.setMarker_regs_state (b2 : Byte) : (s.setMarker b2).regs.state = s.regs.state := rfl
@[simp] theorem State.setMarker_regs_mkf (b2 : Byte) : (s.setMarker b2).regs.mkf = true := rfl
@[simp] theorem State.setMarker_regs_symv (b2 : Byte) : (s.setMarker b2).regs.symv = s.regs.symv := rfl
@[simp] theorem State.setMarker_regs_bitv (b2 : Byte) : (s.setMarker b2).regs.bitv = s.regs.bitv := rfl
@[simp] theorem State.setMarker_regs_warn (b2 : Byte) : (s.setMarker b2).regs.warn = s.regs.warn := rfl
@[simp] theorem State.setMarker_regs_hosterr (b2 : Byte) : (s.setMarker b2).regs.hosterr = s.regs.hosterr := rfl
@[simp] theorem State.setMarker_regs_err (b2 : Byte) : (s.setMarker b2).regs.err = s.regs.err := rfl
@[simp] theorem State.setMarker_regs_errinfo (b2 : Byte) : (s.setMarker b2).regs.errinfo = s.regs.errinfo := rfl
@[simp] theorem State.setMarker_regs_cp (b2 : Byte) : (s.setMarker b2).regs.cp = s.regs.cp := rfl
@[simp] theorem State.setMarker_regs_cpstart (b2 : Byte) : (s.setMarker b2).regs.cpstart = s.regs.cpstart := rfl
@[simp] theorem State.setMarker_regs_nnodes (b2 : Byte) : (s.setMarker b2).regs.nnodes = s.regs.nnodes := rfl
@[simp] theorem State.setMarker_regs_width (b2 : Byte) : (s.setMarker b2).regs.width = s.regs.width := rfl
@[simp] theorem State.setMarker_regs_height (b2 : Byte) : (s.setMarker b2).regs.height = s.regs.height := rfl
@[simp] theorem State.setMarker_regs_lsz (b2 : Byte) : (s.setMarker b2).regs.lsz = s.regs.lsz := rfl
@[simp] theorem State.setMarker_regs_hsz (b2 : Byte) : (s.setMarker b2).regs.hsz = s.regs.hsz := rfl
@[simp] theorem State.setMarker_regs_bsptr (b2 : Byte) : (s.setMarker b2).regs.bsptr = s.regs.bsptr := rfl
@[simp] theorem State.setMarker_regs_bsend (b2 : Byte) : (s.setMarker b2).regs.bsend = s.regs.bsend := rfl
@[simp] theorem State.setMarker_regs_bitcnt (b2 : Byte) : (s.setMarker b2).regs.bitcnt = s.regs.bitcnt := rfl
@[simp] theorem State.setMarker_regs_bitbuf (b2 : Byte) : (s.setMarker b2).regs.bitbuf = s.regs.bitbuf := rfl
@[simp] theorem State.setMarker_regs_marker (b2 : Byte) : (s.setMarker b2).regs.marker = (0xFF#8 ++ b2 : BitVec (8 + 8)) := rfl
@[simp] theorem State.setMarker_regs_hdef (b2 : Byte) : (s.setMarker b2).regs.hdef = s.regs.hdef := rfl
@[simp] theorem State.setMarker_regs_hbuilt (b2 : Byte) : (s.setMarker b2).regs.hbuilt = s.regs.hbuilt := rfl
@[simp] theorem State.setMarker_regs_hwarn (b2 : Byte) : (s.setMarker b2).regs.hwarn = s.regs.hwarn := rfl
@[simp] theorem State.setMarker_regs_hselId (b2 : Byte) : (s.setMarker b2).regs.hselId = s.regs.hselId := rfl
@[simp] theorem State.setMarker_regs_hselValid (b2 : Byte) : (s.setMarker b2).regs.hselValid = s.regs.hselValid := rfl
@[simp] theorem State.setMarker_regs_sym (b2 : Byte) : (s.setMarker b2).regs.sym = s.regs.sym := rfl
@[simp] theorem State.setMarker_regs_bits (b2 : Byte) : (s.setMarker b2).regs.bits = s.regs.bits := rfl
@[simp] theorem State.setMarker_regs_resptr (b2 : Byte) : (s.setMarker b2).regs.resptr = s.regs.resptr := rfl

@[simp] theorem State.clearReader_params : s.clearReader.params = s.params := rfl
@[simp] theorem State.clearReader_cmd : s.clearReader.cmd = s.cmd := rfl
@[simp] theorem State.clearReader_plane : s.clearReader.plane = s.plane := rfl
@[simp] theorem State.clearReader_lotap : s.clearReader.lotap = s.lotap := rfl
@[simp] theorem State.clearReader_hitap : s.clearReader.hitap = s.hitap := rfl
@[simp] theorem State.clearReader_tree : s.clearReader.tree = s.tree := rfl
@[simp] theorem State.clearReader_hbits : s.clearReader.hbits = s.hbits := rfl
@[simp] theorem State.clearReader_hval : s.clearReader.hval = s.hval := rfl
@[simp] theorem State.clearReader_bs : s.clearReader.bs = s.bs := rfl
@[simp] theorem State.clearReader_res : s.clearReader.res = s.res := rfl
@[simp] theorem State.clearReader_hder : s.clearReader.hder = s.hder := rfl
@[simp] theorem State.clearReader_scr : s.clearReader.scr = s.scr := rfl
@[simp] theorem State.clearReader_powerOn : s.clearReader.powerOn = s.powerOn := rfl
@[simp] theorem State.clearReader_staleDraw : s.clearReader.staleDraw = s.staleDraw := rfl
@[simp] theorem State.clearReader_pending : s.clearReader.pending = s.pending := rfl
@[simp] theorem State.clearReader_hostData : s.clearReader.hostData = s.hostData := rfl
@[simp] theorem State.clearReader_regs_state : s.clearReader.regs.state = s.regs.state := rfl
@[simp] theorem State.clearReader_regs_mkf : s.clearReader.regs.mkf = false := rfl
@[simp] theorem State.clearReader_regs_symv : s.clearReader.regs.symv = s.regs.symv := rfl
@[simp] theorem State.clearReader_regs_bitv : s.clearReader.regs.bitv = s.regs.bitv := rfl
@[simp] theorem State.clearReader_regs_warn : s.clearReader.regs.warn = s.regs.warn := rfl
@[simp] theorem State.clearReader_regs_hosterr : s.clearReader.regs.hosterr = s.regs.hosterr := rfl
@[simp] theorem State.clearReader_regs_err : s.clearReader.regs.err = s.regs.err := rfl
@[simp] theorem State.clearReader_regs_errinfo : s.clearReader.regs.errinfo = s.regs.errinfo := rfl
@[simp] theorem State.clearReader_regs_cp : s.clearReader.regs.cp = s.regs.cp := rfl
@[simp] theorem State.clearReader_regs_cpstart : s.clearReader.regs.cpstart = s.regs.cpstart := rfl
@[simp] theorem State.clearReader_regs_nnodes : s.clearReader.regs.nnodes = s.regs.nnodes := rfl
@[simp] theorem State.clearReader_regs_width : s.clearReader.regs.width = s.regs.width := rfl
@[simp] theorem State.clearReader_regs_height : s.clearReader.regs.height = s.regs.height := rfl
@[simp] theorem State.clearReader_regs_lsz : s.clearReader.regs.lsz = s.regs.lsz := rfl
@[simp] theorem State.clearReader_regs_hsz : s.clearReader.regs.hsz = s.regs.hsz := rfl
@[simp] theorem State.clearReader_regs_bsptr : s.clearReader.regs.bsptr = s.regs.bsptr := rfl
@[simp] theorem State.clearReader_regs_bsend : s.clearReader.regs.bsend = s.regs.bsend := rfl
@[simp] theorem State.clearReader_regs_bitcnt : s.clearReader.regs.bitcnt = 0 := rfl
@[simp] theorem State.clearReader_regs_bitbuf : s.clearReader.regs.bitbuf = 0 := rfl
@[simp] theorem State.clearReader_regs_marker : s.clearReader.regs.marker = 0 := rfl
@[simp] theorem State.clearReader_regs_hdef : s.clearReader.regs.hdef = s.regs.hdef := rfl
@[simp] theorem State.clearReader_regs_hbuilt : s.clearReader.regs.hbuilt = s.regs.hbuilt := rfl
@[simp] theorem State.clearReader_regs_hwarn : s.clearReader.regs.hwarn = s.regs.hwarn := rfl
@[simp] theorem State.clearReader_regs_hselId : s.clearReader.regs.hselId = s.regs.hselId := rfl
@[simp] theorem State.clearReader_regs_hselValid : s.clearReader.regs.hselValid = s.regs.hselValid := rfl
@[simp] theorem State.clearReader_regs_sym : s.clearReader.regs.sym = s.regs.sym := rfl
@[simp] theorem State.clearReader_regs_bits : s.clearReader.regs.bits = s.regs.bits := rfl
@[simp] theorem State.clearReader_regs_resptr : s.clearReader.regs.resptr = s.regs.resptr := rfl

@[simp] theorem State.clearSymv_params : s.clearSymv.params = s.params := rfl
@[simp] theorem State.clearSymv_cmd : s.clearSymv.cmd = s.cmd := rfl
@[simp] theorem State.clearSymv_plane : s.clearSymv.plane = s.plane := rfl
@[simp] theorem State.clearSymv_lotap : s.clearSymv.lotap = s.lotap := rfl
@[simp] theorem State.clearSymv_hitap : s.clearSymv.hitap = s.hitap := rfl
@[simp] theorem State.clearSymv_tree : s.clearSymv.tree = s.tree := rfl
@[simp] theorem State.clearSymv_hbits : s.clearSymv.hbits = s.hbits := rfl
@[simp] theorem State.clearSymv_hval : s.clearSymv.hval = s.hval := rfl
@[simp] theorem State.clearSymv_bs : s.clearSymv.bs = s.bs := rfl
@[simp] theorem State.clearSymv_res : s.clearSymv.res = s.res := rfl
@[simp] theorem State.clearSymv_hder : s.clearSymv.hder = s.hder := rfl
@[simp] theorem State.clearSymv_scr : s.clearSymv.scr = s.scr := rfl
@[simp] theorem State.clearSymv_powerOn : s.clearSymv.powerOn = s.powerOn := rfl
@[simp] theorem State.clearSymv_staleDraw : s.clearSymv.staleDraw = s.staleDraw := rfl
@[simp] theorem State.clearSymv_pending : s.clearSymv.pending = s.pending := rfl
@[simp] theorem State.clearSymv_hostData : s.clearSymv.hostData = s.hostData := rfl
@[simp] theorem State.clearSymv_regs_state : s.clearSymv.regs.state = s.regs.state := rfl
@[simp] theorem State.clearSymv_regs_mkf : s.clearSymv.regs.mkf = s.regs.mkf := rfl
@[simp] theorem State.clearSymv_regs_symv : s.clearSymv.regs.symv = false := rfl
@[simp] theorem State.clearSymv_regs_bitv : s.clearSymv.regs.bitv = s.regs.bitv := rfl
@[simp] theorem State.clearSymv_regs_warn : s.clearSymv.regs.warn = s.regs.warn := rfl
@[simp] theorem State.clearSymv_regs_hosterr : s.clearSymv.regs.hosterr = s.regs.hosterr := rfl
@[simp] theorem State.clearSymv_regs_err : s.clearSymv.regs.err = s.regs.err := rfl
@[simp] theorem State.clearSymv_regs_errinfo : s.clearSymv.regs.errinfo = s.regs.errinfo := rfl
@[simp] theorem State.clearSymv_regs_cp : s.clearSymv.regs.cp = s.regs.cp := rfl
@[simp] theorem State.clearSymv_regs_cpstart : s.clearSymv.regs.cpstart = s.regs.cpstart := rfl
@[simp] theorem State.clearSymv_regs_nnodes : s.clearSymv.regs.nnodes = s.regs.nnodes := rfl
@[simp] theorem State.clearSymv_regs_width : s.clearSymv.regs.width = s.regs.width := rfl
@[simp] theorem State.clearSymv_regs_height : s.clearSymv.regs.height = s.regs.height := rfl
@[simp] theorem State.clearSymv_regs_lsz : s.clearSymv.regs.lsz = s.regs.lsz := rfl
@[simp] theorem State.clearSymv_regs_hsz : s.clearSymv.regs.hsz = s.regs.hsz := rfl
@[simp] theorem State.clearSymv_regs_bsptr : s.clearSymv.regs.bsptr = s.regs.bsptr := rfl
@[simp] theorem State.clearSymv_regs_bsend : s.clearSymv.regs.bsend = s.regs.bsend := rfl
@[simp] theorem State.clearSymv_regs_bitcnt : s.clearSymv.regs.bitcnt = s.regs.bitcnt := rfl
@[simp] theorem State.clearSymv_regs_bitbuf : s.clearSymv.regs.bitbuf = s.regs.bitbuf := rfl
@[simp] theorem State.clearSymv_regs_marker : s.clearSymv.regs.marker = s.regs.marker := rfl
@[simp] theorem State.clearSymv_regs_hdef : s.clearSymv.regs.hdef = s.regs.hdef := rfl
@[simp] theorem State.clearSymv_regs_hbuilt : s.clearSymv.regs.hbuilt = s.regs.hbuilt := rfl
@[simp] theorem State.clearSymv_regs_hwarn : s.clearSymv.regs.hwarn = s.regs.hwarn := rfl
@[simp] theorem State.clearSymv_regs_hselId : s.clearSymv.regs.hselId = s.regs.hselId := rfl
@[simp] theorem State.clearSymv_regs_hselValid : s.clearSymv.regs.hselValid = s.regs.hselValid := rfl
@[simp] theorem State.clearSymv_regs_sym : s.clearSymv.regs.sym = s.regs.sym := rfl
@[simp] theorem State.clearSymv_regs_bits : s.clearSymv.regs.bits = s.regs.bits := rfl
@[simp] theorem State.clearSymv_regs_resptr : s.clearSymv.regs.resptr = s.regs.resptr := rfl

@[simp] theorem State.clearBitv_params : s.clearBitv.params = s.params := rfl
@[simp] theorem State.clearBitv_cmd : s.clearBitv.cmd = s.cmd := rfl
@[simp] theorem State.clearBitv_plane : s.clearBitv.plane = s.plane := rfl
@[simp] theorem State.clearBitv_lotap : s.clearBitv.lotap = s.lotap := rfl
@[simp] theorem State.clearBitv_hitap : s.clearBitv.hitap = s.hitap := rfl
@[simp] theorem State.clearBitv_tree : s.clearBitv.tree = s.tree := rfl
@[simp] theorem State.clearBitv_hbits : s.clearBitv.hbits = s.hbits := rfl
@[simp] theorem State.clearBitv_hval : s.clearBitv.hval = s.hval := rfl
@[simp] theorem State.clearBitv_bs : s.clearBitv.bs = s.bs := rfl
@[simp] theorem State.clearBitv_res : s.clearBitv.res = s.res := rfl
@[simp] theorem State.clearBitv_hder : s.clearBitv.hder = s.hder := rfl
@[simp] theorem State.clearBitv_scr : s.clearBitv.scr = s.scr := rfl
@[simp] theorem State.clearBitv_powerOn : s.clearBitv.powerOn = s.powerOn := rfl
@[simp] theorem State.clearBitv_staleDraw : s.clearBitv.staleDraw = s.staleDraw := rfl
@[simp] theorem State.clearBitv_pending : s.clearBitv.pending = s.pending := rfl
@[simp] theorem State.clearBitv_hostData : s.clearBitv.hostData = s.hostData := rfl
@[simp] theorem State.clearBitv_regs_state : s.clearBitv.regs.state = s.regs.state := rfl
@[simp] theorem State.clearBitv_regs_mkf : s.clearBitv.regs.mkf = s.regs.mkf := rfl
@[simp] theorem State.clearBitv_regs_symv : s.clearBitv.regs.symv = s.regs.symv := rfl
@[simp] theorem State.clearBitv_regs_bitv : s.clearBitv.regs.bitv = false := rfl
@[simp] theorem State.clearBitv_regs_warn : s.clearBitv.regs.warn = s.regs.warn := rfl
@[simp] theorem State.clearBitv_regs_hosterr : s.clearBitv.regs.hosterr = s.regs.hosterr := rfl
@[simp] theorem State.clearBitv_regs_err : s.clearBitv.regs.err = s.regs.err := rfl
@[simp] theorem State.clearBitv_regs_errinfo : s.clearBitv.regs.errinfo = s.regs.errinfo := rfl
@[simp] theorem State.clearBitv_regs_cp : s.clearBitv.regs.cp = s.regs.cp := rfl
@[simp] theorem State.clearBitv_regs_cpstart : s.clearBitv.regs.cpstart = s.regs.cpstart := rfl
@[simp] theorem State.clearBitv_regs_nnodes : s.clearBitv.regs.nnodes = s.regs.nnodes := rfl
@[simp] theorem State.clearBitv_regs_width : s.clearBitv.regs.width = s.regs.width := rfl
@[simp] theorem State.clearBitv_regs_height : s.clearBitv.regs.height = s.regs.height := rfl
@[simp] theorem State.clearBitv_regs_lsz : s.clearBitv.regs.lsz = s.regs.lsz := rfl
@[simp] theorem State.clearBitv_regs_hsz : s.clearBitv.regs.hsz = s.regs.hsz := rfl
@[simp] theorem State.clearBitv_regs_bsptr : s.clearBitv.regs.bsptr = s.regs.bsptr := rfl
@[simp] theorem State.clearBitv_regs_bsend : s.clearBitv.regs.bsend = s.regs.bsend := rfl
@[simp] theorem State.clearBitv_regs_bitcnt : s.clearBitv.regs.bitcnt = s.regs.bitcnt := rfl
@[simp] theorem State.clearBitv_regs_bitbuf : s.clearBitv.regs.bitbuf = s.regs.bitbuf := rfl
@[simp] theorem State.clearBitv_regs_marker : s.clearBitv.regs.marker = s.regs.marker := rfl
@[simp] theorem State.clearBitv_regs_hdef : s.clearBitv.regs.hdef = s.regs.hdef := rfl
@[simp] theorem State.clearBitv_regs_hbuilt : s.clearBitv.regs.hbuilt = s.regs.hbuilt := rfl
@[simp] theorem State.clearBitv_regs_hwarn : s.clearBitv.regs.hwarn = s.regs.hwarn := rfl
@[simp] theorem State.clearBitv_regs_hselId : s.clearBitv.regs.hselId = s.regs.hselId := rfl
@[simp] theorem State.clearBitv_regs_hselValid : s.clearBitv.regs.hselValid = s.regs.hselValid := rfl
@[simp] theorem State.clearBitv_regs_sym : s.clearBitv.regs.sym = s.regs.sym := rfl
@[simp] theorem State.clearBitv_regs_bits : s.clearBitv.regs.bits = s.regs.bits := rfl
@[simp] theorem State.clearBitv_regs_resptr : s.clearBitv.regs.resptr = s.regs.resptr := rfl

@[simp] theorem State.deliverSymbol_params (v : Byte) : (s.deliverSymbol v).params = s.params := rfl
@[simp] theorem State.deliverSymbol_cmd (v : Byte) : (s.deliverSymbol v).cmd = s.cmd := rfl
@[simp] theorem State.deliverSymbol_plane (v : Byte) : (s.deliverSymbol v).plane = s.plane := rfl
@[simp] theorem State.deliverSymbol_lotap (v : Byte) : (s.deliverSymbol v).lotap = s.lotap := rfl
@[simp] theorem State.deliverSymbol_hitap (v : Byte) : (s.deliverSymbol v).hitap = s.hitap := rfl
@[simp] theorem State.deliverSymbol_tree (v : Byte) : (s.deliverSymbol v).tree = s.tree := rfl
@[simp] theorem State.deliverSymbol_hbits (v : Byte) : (s.deliverSymbol v).hbits = s.hbits := rfl
@[simp] theorem State.deliverSymbol_hval (v : Byte) : (s.deliverSymbol v).hval = s.hval := rfl
@[simp] theorem State.deliverSymbol_bs (v : Byte) : (s.deliverSymbol v).bs = s.bs := rfl
@[simp] theorem State.deliverSymbol_res (v : Byte) : (s.deliverSymbol v).res = s.res.store s.regs.resptr.toNat (v.setWidth 16) := rfl
@[simp] theorem State.deliverSymbol_hder (v : Byte) : (s.deliverSymbol v).hder = s.hder := rfl
@[simp] theorem State.deliverSymbol_scr (v : Byte) : (s.deliverSymbol v).scr = s.scr := rfl
@[simp] theorem State.deliverSymbol_powerOn (v : Byte) : (s.deliverSymbol v).powerOn = s.powerOn := rfl
@[simp] theorem State.deliverSymbol_staleDraw (v : Byte) : (s.deliverSymbol v).staleDraw = s.staleDraw := rfl
@[simp] theorem State.deliverSymbol_pending (v : Byte) : (s.deliverSymbol v).pending = s.pending := rfl
@[simp] theorem State.deliverSymbol_hostData (v : Byte) : (s.deliverSymbol v).hostData = s.hostData := rfl
@[simp] theorem State.deliverSymbol_regs_state (v : Byte) : (s.deliverSymbol v).regs.state = s.regs.state := rfl
@[simp] theorem State.deliverSymbol_regs_mkf (v : Byte) : (s.deliverSymbol v).regs.mkf = s.regs.mkf := rfl
@[simp] theorem State.deliverSymbol_regs_symv (v : Byte) : (s.deliverSymbol v).regs.symv = true := rfl
@[simp] theorem State.deliverSymbol_regs_bitv (v : Byte) : (s.deliverSymbol v).regs.bitv = s.regs.bitv := rfl
@[simp] theorem State.deliverSymbol_regs_warn (v : Byte) : (s.deliverSymbol v).regs.warn = s.regs.warn := rfl
@[simp] theorem State.deliverSymbol_regs_hosterr (v : Byte) : (s.deliverSymbol v).regs.hosterr = s.regs.hosterr := rfl
@[simp] theorem State.deliverSymbol_regs_err (v : Byte) : (s.deliverSymbol v).regs.err = s.regs.err := rfl
@[simp] theorem State.deliverSymbol_regs_errinfo (v : Byte) : (s.deliverSymbol v).regs.errinfo = s.regs.errinfo := rfl
@[simp] theorem State.deliverSymbol_regs_cp (v : Byte) : (s.deliverSymbol v).regs.cp = s.regs.cp := rfl
@[simp] theorem State.deliverSymbol_regs_cpstart (v : Byte) : (s.deliverSymbol v).regs.cpstart = s.regs.cpstart := rfl
@[simp] theorem State.deliverSymbol_regs_nnodes (v : Byte) : (s.deliverSymbol v).regs.nnodes = s.regs.nnodes := rfl
@[simp] theorem State.deliverSymbol_regs_width (v : Byte) : (s.deliverSymbol v).regs.width = s.regs.width := rfl
@[simp] theorem State.deliverSymbol_regs_height (v : Byte) : (s.deliverSymbol v).regs.height = s.regs.height := rfl
@[simp] theorem State.deliverSymbol_regs_lsz (v : Byte) : (s.deliverSymbol v).regs.lsz = s.regs.lsz := rfl
@[simp] theorem State.deliverSymbol_regs_hsz (v : Byte) : (s.deliverSymbol v).regs.hsz = s.regs.hsz := rfl
@[simp] theorem State.deliverSymbol_regs_bsptr (v : Byte) : (s.deliverSymbol v).regs.bsptr = s.regs.bsptr := rfl
@[simp] theorem State.deliverSymbol_regs_bsend (v : Byte) : (s.deliverSymbol v).regs.bsend = s.regs.bsend := rfl
@[simp] theorem State.deliverSymbol_regs_bitcnt (v : Byte) : (s.deliverSymbol v).regs.bitcnt = s.regs.bitcnt := rfl
@[simp] theorem State.deliverSymbol_regs_bitbuf (v : Byte) : (s.deliverSymbol v).regs.bitbuf = s.regs.bitbuf := rfl
@[simp] theorem State.deliverSymbol_regs_marker (v : Byte) : (s.deliverSymbol v).regs.marker = s.regs.marker := rfl
@[simp] theorem State.deliverSymbol_regs_hdef (v : Byte) : (s.deliverSymbol v).regs.hdef = s.regs.hdef := rfl
@[simp] theorem State.deliverSymbol_regs_hbuilt (v : Byte) : (s.deliverSymbol v).regs.hbuilt = s.regs.hbuilt := rfl
@[simp] theorem State.deliverSymbol_regs_hwarn (v : Byte) : (s.deliverSymbol v).regs.hwarn = s.regs.hwarn := rfl
@[simp] theorem State.deliverSymbol_regs_hselId (v : Byte) : (s.deliverSymbol v).regs.hselId = s.regs.hselId := rfl
@[simp] theorem State.deliverSymbol_regs_hselValid (v : Byte) : (s.deliverSymbol v).regs.hselValid = s.regs.hselValid := rfl
@[simp] theorem State.deliverSymbol_regs_sym (v : Byte) : (s.deliverSymbol v).regs.sym = v := rfl
@[simp] theorem State.deliverSymbol_regs_bits (v : Byte) : (s.deliverSymbol v).regs.bits = s.regs.bits := rfl
@[simp] theorem State.deliverSymbol_regs_resptr (v : Byte) : (s.deliverSymbol v).regs.resptr = s.regs.resptr + 1 := rfl

@[simp] theorem State.deliverBits_params (v : Half) : (s.deliverBits v).params = s.params := rfl
@[simp] theorem State.deliverBits_cmd (v : Half) : (s.deliverBits v).cmd = s.cmd := rfl
@[simp] theorem State.deliverBits_plane (v : Half) : (s.deliverBits v).plane = s.plane := rfl
@[simp] theorem State.deliverBits_lotap (v : Half) : (s.deliverBits v).lotap = s.lotap := rfl
@[simp] theorem State.deliverBits_hitap (v : Half) : (s.deliverBits v).hitap = s.hitap := rfl
@[simp] theorem State.deliverBits_tree (v : Half) : (s.deliverBits v).tree = s.tree := rfl
@[simp] theorem State.deliverBits_hbits (v : Half) : (s.deliverBits v).hbits = s.hbits := rfl
@[simp] theorem State.deliverBits_hval (v : Half) : (s.deliverBits v).hval = s.hval := rfl
@[simp] theorem State.deliverBits_bs (v : Half) : (s.deliverBits v).bs = s.bs := rfl
@[simp] theorem State.deliverBits_res (v : Half) : (s.deliverBits v).res = s.res.store s.regs.resptr.toNat v := rfl
@[simp] theorem State.deliverBits_hder (v : Half) : (s.deliverBits v).hder = s.hder := rfl
@[simp] theorem State.deliverBits_scr (v : Half) : (s.deliverBits v).scr = s.scr := rfl
@[simp] theorem State.deliverBits_powerOn (v : Half) : (s.deliverBits v).powerOn = s.powerOn := rfl
@[simp] theorem State.deliverBits_staleDraw (v : Half) : (s.deliverBits v).staleDraw = s.staleDraw := rfl
@[simp] theorem State.deliverBits_pending (v : Half) : (s.deliverBits v).pending = s.pending := rfl
@[simp] theorem State.deliverBits_hostData (v : Half) : (s.deliverBits v).hostData = s.hostData := rfl
@[simp] theorem State.deliverBits_regs_state (v : Half) : (s.deliverBits v).regs.state = s.regs.state := rfl
@[simp] theorem State.deliverBits_regs_mkf (v : Half) : (s.deliverBits v).regs.mkf = s.regs.mkf := rfl
@[simp] theorem State.deliverBits_regs_symv (v : Half) : (s.deliverBits v).regs.symv = s.regs.symv := rfl
@[simp] theorem State.deliverBits_regs_bitv (v : Half) : (s.deliverBits v).regs.bitv = true := rfl
@[simp] theorem State.deliverBits_regs_warn (v : Half) : (s.deliverBits v).regs.warn = s.regs.warn := rfl
@[simp] theorem State.deliverBits_regs_hosterr (v : Half) : (s.deliverBits v).regs.hosterr = s.regs.hosterr := rfl
@[simp] theorem State.deliverBits_regs_err (v : Half) : (s.deliverBits v).regs.err = s.regs.err := rfl
@[simp] theorem State.deliverBits_regs_errinfo (v : Half) : (s.deliverBits v).regs.errinfo = s.regs.errinfo := rfl
@[simp] theorem State.deliverBits_regs_cp (v : Half) : (s.deliverBits v).regs.cp = s.regs.cp := rfl
@[simp] theorem State.deliverBits_regs_cpstart (v : Half) : (s.deliverBits v).regs.cpstart = s.regs.cpstart := rfl
@[simp] theorem State.deliverBits_regs_nnodes (v : Half) : (s.deliverBits v).regs.nnodes = s.regs.nnodes := rfl
@[simp] theorem State.deliverBits_regs_width (v : Half) : (s.deliverBits v).regs.width = s.regs.width := rfl
@[simp] theorem State.deliverBits_regs_height (v : Half) : (s.deliverBits v).regs.height = s.regs.height := rfl
@[simp] theorem State.deliverBits_regs_lsz (v : Half) : (s.deliverBits v).regs.lsz = s.regs.lsz := rfl
@[simp] theorem State.deliverBits_regs_hsz (v : Half) : (s.deliverBits v).regs.hsz = s.regs.hsz := rfl
@[simp] theorem State.deliverBits_regs_bsptr (v : Half) : (s.deliverBits v).regs.bsptr = s.regs.bsptr := rfl
@[simp] theorem State.deliverBits_regs_bsend (v : Half) : (s.deliverBits v).regs.bsend = s.regs.bsend := rfl
@[simp] theorem State.deliverBits_regs_bitcnt (v : Half) : (s.deliverBits v).regs.bitcnt = s.regs.bitcnt := rfl
@[simp] theorem State.deliverBits_regs_bitbuf (v : Half) : (s.deliverBits v).regs.bitbuf = s.regs.bitbuf := rfl
@[simp] theorem State.deliverBits_regs_marker (v : Half) : (s.deliverBits v).regs.marker = s.regs.marker := rfl
@[simp] theorem State.deliverBits_regs_hdef (v : Half) : (s.deliverBits v).regs.hdef = s.regs.hdef := rfl
@[simp] theorem State.deliverBits_regs_hbuilt (v : Half) : (s.deliverBits v).regs.hbuilt = s.regs.hbuilt := rfl
@[simp] theorem State.deliverBits_regs_hwarn (v : Half) : (s.deliverBits v).regs.hwarn = s.regs.hwarn := rfl
@[simp] theorem State.deliverBits_regs_hselId (v : Half) : (s.deliverBits v).regs.hselId = s.regs.hselId := rfl
@[simp] theorem State.deliverBits_regs_hselValid (v : Half) : (s.deliverBits v).regs.hselValid = s.regs.hselValid := rfl
@[simp] theorem State.deliverBits_regs_sym (v : Half) : (s.deliverBits v).regs.sym = s.regs.sym := rfl
@[simp] theorem State.deliverBits_regs_bits (v : Half) : (s.deliverBits v).regs.bits = v := rfl
@[simp] theorem State.deliverBits_regs_resptr (v : Half) : (s.deliverBits v).regs.resptr = s.regs.resptr + 1 := rfl

@[simp] theorem State.markBuilt_params (t : Nat) (a : Bool) : (s.markBuilt t a).params = s.params := rfl
@[simp] theorem State.markBuilt_cmd (t : Nat) (a : Bool) : (s.markBuilt t a).cmd = s.cmd := rfl
@[simp] theorem State.markBuilt_plane (t : Nat) (a : Bool) : (s.markBuilt t a).plane = s.plane := rfl
@[simp] theorem State.markBuilt_lotap (t : Nat) (a : Bool) : (s.markBuilt t a).lotap = s.lotap := rfl
@[simp] theorem State.markBuilt_hitap (t : Nat) (a : Bool) : (s.markBuilt t a).hitap = s.hitap := rfl
@[simp] theorem State.markBuilt_tree (t : Nat) (a : Bool) : (s.markBuilt t a).tree = s.tree := rfl
@[simp] theorem State.markBuilt_hbits (t : Nat) (a : Bool) : (s.markBuilt t a).hbits = s.hbits := rfl
@[simp] theorem State.markBuilt_hval (t : Nat) (a : Bool) : (s.markBuilt t a).hval = s.hval := rfl
@[simp] theorem State.markBuilt_bs (t : Nat) (a : Bool) : (s.markBuilt t a).bs = s.bs := rfl
@[simp] theorem State.markBuilt_res (t : Nat) (a : Bool) : (s.markBuilt t a).res = s.res := rfl
@[simp] theorem State.markBuilt_hder (t : Nat) (a : Bool) : (s.markBuilt t a).hder = s.hder := rfl
@[simp] theorem State.markBuilt_scr (t : Nat) (a : Bool) : (s.markBuilt t a).scr = s.scr := rfl
@[simp] theorem State.markBuilt_powerOn (t : Nat) (a : Bool) : (s.markBuilt t a).powerOn = s.powerOn := rfl
@[simp] theorem State.markBuilt_staleDraw (t : Nat) (a : Bool) : (s.markBuilt t a).staleDraw = s.staleDraw := rfl
@[simp] theorem State.markBuilt_pending (t : Nat) (a : Bool) : (s.markBuilt t a).pending = s.pending := rfl
@[simp] theorem State.markBuilt_hostData (t : Nat) (a : Bool) : (s.markBuilt t a).hostData = s.hostData := rfl
@[simp] theorem State.markBuilt_regs_state (t : Nat) (a : Bool) : (s.markBuilt t a).regs.state = s.regs.state := rfl
@[simp] theorem State.markBuilt_regs_mkf (t : Nat) (a : Bool) : (s.markBuilt t a).regs.mkf = s.regs.mkf := rfl
@[simp] theorem State.markBuilt_regs_symv (t : Nat) (a : Bool) : (s.markBuilt t a).regs.symv = s.regs.symv := rfl
@[simp] theorem State.markBuilt_regs_bitv (t : Nat) (a : Bool) : (s.markBuilt t a).regs.bitv = s.regs.bitv := rfl
@[simp] theorem State.markBuilt_regs_warn (t : Nat) (a : Bool) : (s.markBuilt t a).regs.warn = (s.regs.warn || a) := rfl
@[simp] theorem State.markBuilt_regs_hosterr (t : Nat) (a : Bool) : (s.markBuilt t a).regs.hosterr = s.regs.hosterr := rfl
@[simp] theorem State.markBuilt_regs_err (t : Nat) (a : Bool) : (s.markBuilt t a).regs.err = s.regs.err := rfl
@[simp] theorem State.markBuilt_regs_errinfo (t : Nat) (a : Bool) : (s.markBuilt t a).regs.errinfo = s.regs.errinfo := rfl
@[simp] theorem State.markBuilt_regs_cp (t : Nat) (a : Bool) : (s.markBuilt t a).regs.cp = s.regs.cp := rfl
@[simp] theorem State.markBuilt_regs_cpstart (t : Nat) (a : Bool) : (s.markBuilt t a).regs.cpstart = s.regs.cpstart := rfl
@[simp] theorem State.markBuilt_regs_nnodes (t : Nat) (a : Bool) : (s.markBuilt t a).regs.nnodes = s.regs.nnodes := rfl
@[simp] theorem State.markBuilt_regs_width (t : Nat) (a : Bool) : (s.markBuilt t a).regs.width = s.regs.width := rfl
@[simp] theorem State.markBuilt_regs_height (t : Nat) (a : Bool) : (s.markBuilt t a).regs.height = s.regs.height := rfl
@[simp] theorem State.markBuilt_regs_lsz (t : Nat) (a : Bool) : (s.markBuilt t a).regs.lsz = s.regs.lsz := rfl
@[simp] theorem State.markBuilt_regs_hsz (t : Nat) (a : Bool) : (s.markBuilt t a).regs.hsz = s.regs.hsz := rfl
@[simp] theorem State.markBuilt_regs_bsptr (t : Nat) (a : Bool) : (s.markBuilt t a).regs.bsptr = s.regs.bsptr := rfl
@[simp] theorem State.markBuilt_regs_bsend (t : Nat) (a : Bool) : (s.markBuilt t a).regs.bsend = s.regs.bsend := rfl
@[simp] theorem State.markBuilt_regs_bitcnt (t : Nat) (a : Bool) : (s.markBuilt t a).regs.bitcnt = s.regs.bitcnt := rfl
@[simp] theorem State.markBuilt_regs_bitbuf (t : Nat) (a : Bool) : (s.markBuilt t a).regs.bitbuf = s.regs.bitbuf := rfl
@[simp] theorem State.markBuilt_regs_marker (t : Nat) (a : Bool) : (s.markBuilt t a).regs.marker = s.regs.marker := rfl
@[simp] theorem State.markBuilt_regs_hdef (t : Nat) (a : Bool) : (s.markBuilt t a).regs.hdef = s.regs.hdef := rfl
@[simp] theorem State.markBuilt_regs_hbuilt (t : Nat) (a : Bool) : (s.markBuilt t a).regs.hbuilt = setTableBit s.regs.hbuilt t := rfl
@[simp] theorem State.markBuilt_regs_hwarn (t : Nat) (a : Bool) : (s.markBuilt t a).regs.hwarn = if a then setTableBit s.regs.hwarn t else clearTableBit s.regs.hwarn t := rfl
@[simp] theorem State.markBuilt_regs_hselId (t : Nat) (a : Bool) : (s.markBuilt t a).regs.hselId = s.regs.hselId := rfl
@[simp] theorem State.markBuilt_regs_hselValid (t : Nat) (a : Bool) : (s.markBuilt t a).regs.hselValid = s.regs.hselValid := rfl
@[simp] theorem State.markBuilt_regs_sym (t : Nat) (a : Bool) : (s.markBuilt t a).regs.sym = s.regs.sym := rfl
@[simp] theorem State.markBuilt_regs_bits (t : Nat) (a : Bool) : (s.markBuilt t a).regs.bits = s.regs.bits := rfl
@[simp] theorem State.markBuilt_regs_resptr (t : Nat) (a : Bool) : (s.markBuilt t a).regs.resptr = s.regs.resptr := rfl

@[simp] theorem State.select_params (t : Nat) : (s.select t).params = s.params := rfl
@[simp] theorem State.select_cmd (t : Nat) : (s.select t).cmd = s.cmd := rfl
@[simp] theorem State.select_plane (t : Nat) : (s.select t).plane = s.plane := rfl
@[simp] theorem State.select_lotap (t : Nat) : (s.select t).lotap = s.lotap := rfl
@[simp] theorem State.select_hitap (t : Nat) : (s.select t).hitap = s.hitap := rfl
@[simp] theorem State.select_tree (t : Nat) : (s.select t).tree = s.tree := rfl
@[simp] theorem State.select_hbits (t : Nat) : (s.select t).hbits = s.hbits := rfl
@[simp] theorem State.select_hval (t : Nat) : (s.select t).hval = s.hval := rfl
@[simp] theorem State.select_bs (t : Nat) : (s.select t).bs = s.bs := rfl
@[simp] theorem State.select_res (t : Nat) : (s.select t).res = s.res := rfl
@[simp] theorem State.select_hder (t : Nat) : (s.select t).hder = s.hder := rfl
@[simp] theorem State.select_scr (t : Nat) : (s.select t).scr = s.scr := rfl
@[simp] theorem State.select_powerOn (t : Nat) : (s.select t).powerOn = s.powerOn := rfl
@[simp] theorem State.select_staleDraw (t : Nat) : (s.select t).staleDraw = s.staleDraw := rfl
@[simp] theorem State.select_pending (t : Nat) : (s.select t).pending = s.pending := rfl
@[simp] theorem State.select_hostData (t : Nat) : (s.select t).hostData = s.hostData := rfl
@[simp] theorem State.select_regs_state (t : Nat) : (s.select t).regs.state = s.regs.state := rfl
@[simp] theorem State.select_regs_mkf (t : Nat) : (s.select t).regs.mkf = s.regs.mkf := rfl
@[simp] theorem State.select_regs_symv (t : Nat) : (s.select t).regs.symv = s.regs.symv := rfl
@[simp] theorem State.select_regs_bitv (t : Nat) : (s.select t).regs.bitv = s.regs.bitv := rfl
@[simp] theorem State.select_regs_warn (t : Nat) : (s.select t).regs.warn = s.regs.warn := rfl
@[simp] theorem State.select_regs_hosterr (t : Nat) : (s.select t).regs.hosterr = s.regs.hosterr := rfl
@[simp] theorem State.select_regs_err (t : Nat) : (s.select t).regs.err = s.regs.err := rfl
@[simp] theorem State.select_regs_errinfo (t : Nat) : (s.select t).regs.errinfo = s.regs.errinfo := rfl
@[simp] theorem State.select_regs_cp (t : Nat) : (s.select t).regs.cp = s.regs.cp := rfl
@[simp] theorem State.select_regs_cpstart (t : Nat) : (s.select t).regs.cpstart = s.regs.cpstart := rfl
@[simp] theorem State.select_regs_nnodes (t : Nat) : (s.select t).regs.nnodes = s.regs.nnodes := rfl
@[simp] theorem State.select_regs_width (t : Nat) : (s.select t).regs.width = s.regs.width := rfl
@[simp] theorem State.select_regs_height (t : Nat) : (s.select t).regs.height = s.regs.height := rfl
@[simp] theorem State.select_regs_lsz (t : Nat) : (s.select t).regs.lsz = s.regs.lsz := rfl
@[simp] theorem State.select_regs_hsz (t : Nat) : (s.select t).regs.hsz = s.regs.hsz := rfl
@[simp] theorem State.select_regs_bsptr (t : Nat) : (s.select t).regs.bsptr = s.regs.bsptr := rfl
@[simp] theorem State.select_regs_bsend (t : Nat) : (s.select t).regs.bsend = s.regs.bsend := rfl
@[simp] theorem State.select_regs_bitcnt (t : Nat) : (s.select t).regs.bitcnt = s.regs.bitcnt := rfl
@[simp] theorem State.select_regs_bitbuf (t : Nat) : (s.select t).regs.bitbuf = s.regs.bitbuf := rfl
@[simp] theorem State.select_regs_marker (t : Nat) : (s.select t).regs.marker = s.regs.marker := rfl
@[simp] theorem State.select_regs_hdef (t : Nat) : (s.select t).regs.hdef = s.regs.hdef := rfl
@[simp] theorem State.select_regs_hbuilt (t : Nat) : (s.select t).regs.hbuilt = s.regs.hbuilt := rfl
@[simp] theorem State.select_regs_hwarn (t : Nat) : (s.select t).regs.hwarn = s.regs.hwarn := rfl
@[simp] theorem State.select_regs_hselId (t : Nat) : (s.select t).regs.hselId = BitVec.ofNat 3 t := rfl
@[simp] theorem State.select_regs_hselValid (t : Nat) : (s.select t).regs.hselValid = true := rfl
@[simp] theorem State.select_regs_sym (t : Nat) : (s.select t).regs.sym = s.regs.sym := rfl
@[simp] theorem State.select_regs_bits (t : Nat) : (s.select t).regs.bits = s.regs.bits := rfl
@[simp] theorem State.select_regs_resptr (t : Nat) : (s.select t).regs.resptr = s.regs.resptr := rfl

@[simp] theorem State.setHosterr_params : s.setHosterr.params = s.params := rfl
@[simp] theorem State.setHosterr_cmd : s.setHosterr.cmd = s.cmd := rfl
@[simp] theorem State.setHosterr_plane : s.setHosterr.plane = s.plane := rfl
@[simp] theorem State.setHosterr_lotap : s.setHosterr.lotap = s.lotap := rfl
@[simp] theorem State.setHosterr_hitap : s.setHosterr.hitap = s.hitap := rfl
@[simp] theorem State.setHosterr_tree : s.setHosterr.tree = s.tree := rfl
@[simp] theorem State.setHosterr_hbits : s.setHosterr.hbits = s.hbits := rfl
@[simp] theorem State.setHosterr_hval : s.setHosterr.hval = s.hval := rfl
@[simp] theorem State.setHosterr_bs : s.setHosterr.bs = s.bs := rfl
@[simp] theorem State.setHosterr_res : s.setHosterr.res = s.res := rfl
@[simp] theorem State.setHosterr_hder : s.setHosterr.hder = s.hder := rfl
@[simp] theorem State.setHosterr_scr : s.setHosterr.scr = s.scr := rfl
@[simp] theorem State.setHosterr_powerOn : s.setHosterr.powerOn = s.powerOn := rfl
@[simp] theorem State.setHosterr_staleDraw : s.setHosterr.staleDraw = s.staleDraw := rfl
@[simp] theorem State.setHosterr_pending : s.setHosterr.pending = s.pending := rfl
@[simp] theorem State.setHosterr_hostData : s.setHosterr.hostData = s.hostData := rfl
@[simp] theorem State.setHosterr_regs_state : s.setHosterr.regs.state = s.regs.state := rfl
@[simp] theorem State.setHosterr_regs_mkf : s.setHosterr.regs.mkf = s.regs.mkf := rfl
@[simp] theorem State.setHosterr_regs_symv : s.setHosterr.regs.symv = s.regs.symv := rfl
@[simp] theorem State.setHosterr_regs_bitv : s.setHosterr.regs.bitv = s.regs.bitv := rfl
@[simp] theorem State.setHosterr_regs_warn : s.setHosterr.regs.warn = s.regs.warn := rfl
@[simp] theorem State.setHosterr_regs_hosterr : s.setHosterr.regs.hosterr = true := rfl
@[simp] theorem State.setHosterr_regs_err : s.setHosterr.regs.err = s.regs.err := rfl
@[simp] theorem State.setHosterr_regs_errinfo : s.setHosterr.regs.errinfo = s.regs.errinfo := rfl
@[simp] theorem State.setHosterr_regs_cp : s.setHosterr.regs.cp = s.regs.cp := rfl
@[simp] theorem State.setHosterr_regs_cpstart : s.setHosterr.regs.cpstart = s.regs.cpstart := rfl
@[simp] theorem State.setHosterr_regs_nnodes : s.setHosterr.regs.nnodes = s.regs.nnodes := rfl
@[simp] theorem State.setHosterr_regs_width : s.setHosterr.regs.width = s.regs.width := rfl
@[simp] theorem State.setHosterr_regs_height : s.setHosterr.regs.height = s.regs.height := rfl
@[simp] theorem State.setHosterr_regs_lsz : s.setHosterr.regs.lsz = s.regs.lsz := rfl
@[simp] theorem State.setHosterr_regs_hsz : s.setHosterr.regs.hsz = s.regs.hsz := rfl
@[simp] theorem State.setHosterr_regs_bsptr : s.setHosterr.regs.bsptr = s.regs.bsptr := rfl
@[simp] theorem State.setHosterr_regs_bsend : s.setHosterr.regs.bsend = s.regs.bsend := rfl
@[simp] theorem State.setHosterr_regs_bitcnt : s.setHosterr.regs.bitcnt = s.regs.bitcnt := rfl
@[simp] theorem State.setHosterr_regs_bitbuf : s.setHosterr.regs.bitbuf = s.regs.bitbuf := rfl
@[simp] theorem State.setHosterr_regs_marker : s.setHosterr.regs.marker = s.regs.marker := rfl
@[simp] theorem State.setHosterr_regs_hdef : s.setHosterr.regs.hdef = s.regs.hdef := rfl
@[simp] theorem State.setHosterr_regs_hbuilt : s.setHosterr.regs.hbuilt = s.regs.hbuilt := rfl
@[simp] theorem State.setHosterr_regs_hwarn : s.setHosterr.regs.hwarn = s.regs.hwarn := rfl
@[simp] theorem State.setHosterr_regs_hselId : s.setHosterr.regs.hselId = s.regs.hselId := rfl
@[simp] theorem State.setHosterr_regs_hselValid : s.setHosterr.regs.hselValid = s.regs.hselValid := rfl
@[simp] theorem State.setHosterr_regs_sym : s.setHosterr.regs.sym = s.regs.sym := rfl
@[simp] theorem State.setHosterr_regs_bits : s.setHosterr.regs.bits = s.regs.bits := rfl
@[simp] theorem State.setHosterr_regs_resptr : s.setHosterr.regs.resptr = s.regs.resptr := rfl

@[simp] theorem State.loadByte_params (b : Byte) : (s.loadByte b).params = s.params := rfl
@[simp] theorem State.loadByte_cmd (b : Byte) : (s.loadByte b).cmd = s.cmd := rfl
@[simp] theorem State.loadByte_plane (b : Byte) : (s.loadByte b).plane = s.plane := rfl
@[simp] theorem State.loadByte_lotap (b : Byte) : (s.loadByte b).lotap = s.lotap := rfl
@[simp] theorem State.loadByte_hitap (b : Byte) : (s.loadByte b).hitap = s.hitap := rfl
@[simp] theorem State.loadByte_tree (b : Byte) : (s.loadByte b).tree = s.tree := rfl
@[simp] theorem State.loadByte_hbits (b : Byte) : (s.loadByte b).hbits = s.hbits := rfl
@[simp] theorem State.loadByte_hval (b : Byte) : (s.loadByte b).hval = s.hval := rfl
@[simp] theorem State.loadByte_bs (b : Byte) : (s.loadByte b).bs = s.bs := rfl
@[simp] theorem State.loadByte_res (b : Byte) : (s.loadByte b).res = s.res := rfl
@[simp] theorem State.loadByte_hder (b : Byte) : (s.loadByte b).hder = s.hder := rfl
@[simp] theorem State.loadByte_scr (b : Byte) : (s.loadByte b).scr = s.scr := rfl
@[simp] theorem State.loadByte_powerOn (b : Byte) : (s.loadByte b).powerOn = s.powerOn := rfl
@[simp] theorem State.loadByte_staleDraw (b : Byte) : (s.loadByte b).staleDraw = s.staleDraw := rfl
@[simp] theorem State.loadByte_pending (b : Byte) : (s.loadByte b).pending = s.pending := rfl
@[simp] theorem State.loadByte_hostData (b : Byte) : (s.loadByte b).hostData = s.hostData := rfl
@[simp] theorem State.loadByte_regs_state (b : Byte) : (s.loadByte b).regs.state = s.regs.state := rfl
@[simp] theorem State.loadByte_regs_mkf (b : Byte) : (s.loadByte b).regs.mkf = s.regs.mkf := rfl
@[simp] theorem State.loadByte_regs_symv (b : Byte) : (s.loadByte b).regs.symv = s.regs.symv := rfl
@[simp] theorem State.loadByte_regs_bitv (b : Byte) : (s.loadByte b).regs.bitv = s.regs.bitv := rfl
@[simp] theorem State.loadByte_regs_warn (b : Byte) : (s.loadByte b).regs.warn = s.regs.warn := rfl
@[simp] theorem State.loadByte_regs_hosterr (b : Byte) : (s.loadByte b).regs.hosterr = s.regs.hosterr := rfl
@[simp] theorem State.loadByte_regs_err (b : Byte) : (s.loadByte b).regs.err = s.regs.err := rfl
@[simp] theorem State.loadByte_regs_errinfo (b : Byte) : (s.loadByte b).regs.errinfo = s.regs.errinfo := rfl
@[simp] theorem State.loadByte_regs_cp (b : Byte) : (s.loadByte b).regs.cp = s.regs.cp := rfl
@[simp] theorem State.loadByte_regs_cpstart (b : Byte) : (s.loadByte b).regs.cpstart = s.regs.cpstart := rfl
@[simp] theorem State.loadByte_regs_nnodes (b : Byte) : (s.loadByte b).regs.nnodes = s.regs.nnodes := rfl
@[simp] theorem State.loadByte_regs_width (b : Byte) : (s.loadByte b).regs.width = s.regs.width := rfl
@[simp] theorem State.loadByte_regs_height (b : Byte) : (s.loadByte b).regs.height = s.regs.height := rfl
@[simp] theorem State.loadByte_regs_lsz (b : Byte) : (s.loadByte b).regs.lsz = s.regs.lsz := rfl
@[simp] theorem State.loadByte_regs_hsz (b : Byte) : (s.loadByte b).regs.hsz = s.regs.hsz := rfl
@[simp] theorem State.loadByte_regs_bsptr (b : Byte) : (s.loadByte b).regs.bsptr = s.regs.bsptr := rfl
@[simp] theorem State.loadByte_regs_bsend (b : Byte) : (s.loadByte b).regs.bsend = s.regs.bsend := rfl
@[simp] theorem State.loadByte_regs_bitcnt (b : Byte) : (s.loadByte b).regs.bitcnt = 8 := rfl
@[simp] theorem State.loadByte_regs_bitbuf (b : Byte) : (s.loadByte b).regs.bitbuf = b := rfl
@[simp] theorem State.loadByte_regs_marker (b : Byte) : (s.loadByte b).regs.marker = s.regs.marker := rfl
@[simp] theorem State.loadByte_regs_hdef (b : Byte) : (s.loadByte b).regs.hdef = s.regs.hdef := rfl
@[simp] theorem State.loadByte_regs_hbuilt (b : Byte) : (s.loadByte b).regs.hbuilt = s.regs.hbuilt := rfl
@[simp] theorem State.loadByte_regs_hwarn (b : Byte) : (s.loadByte b).regs.hwarn = s.regs.hwarn := rfl
@[simp] theorem State.loadByte_regs_hselId (b : Byte) : (s.loadByte b).regs.hselId = s.regs.hselId := rfl
@[simp] theorem State.loadByte_regs_hselValid (b : Byte) : (s.loadByte b).regs.hselValid = s.regs.hselValid := rfl
@[simp] theorem State.loadByte_regs_sym (b : Byte) : (s.loadByte b).regs.sym = s.regs.sym := rfl
@[simp] theorem State.loadByte_regs_bits (b : Byte) : (s.loadByte b).regs.bits = s.regs.bits := rfl
@[simp] theorem State.loadByte_regs_resptr (b : Byte) : (s.loadByte b).regs.resptr = s.regs.resptr := rfl

@[simp] theorem State.softReset_params : s.softReset.params = s.params := rfl
@[simp] theorem State.softReset_cmd : s.softReset.cmd = s.cmd := rfl
@[simp] theorem State.softReset_plane : s.softReset.plane = s.plane := rfl
@[simp] theorem State.softReset_lotap : s.softReset.lotap = s.lotap := rfl
@[simp] theorem State.softReset_hitap : s.softReset.hitap = s.hitap := rfl
@[simp] theorem State.softReset_tree : s.softReset.tree = s.tree := rfl
@[simp] theorem State.softReset_hbits : s.softReset.hbits = s.hbits := rfl
@[simp] theorem State.softReset_hval : s.softReset.hval = s.hval := rfl
@[simp] theorem State.softReset_bs : s.softReset.bs = s.bs := rfl
@[simp] theorem State.softReset_res : s.softReset.res = s.res := rfl
@[simp] theorem State.softReset_hder : s.softReset.hder = s.hder := rfl
@[simp] theorem State.softReset_scr : s.softReset.scr = s.scr := rfl
@[simp] theorem State.softReset_powerOn : s.softReset.powerOn = s.powerOn := rfl
@[simp] theorem State.softReset_staleDraw : s.softReset.staleDraw = s.staleDraw + 1 := rfl
@[simp] theorem State.softReset_pending : s.softReset.pending = s.pending := rfl
@[simp] theorem State.softReset_hostData : s.softReset.hostData = s.hostData := rfl
@[simp] theorem State.softReset_regs : s.softReset.regs = Regs.reset := rfl

@[simp] theorem State.hardReset_params : s.hardReset.params = s.params := rfl
@[simp] theorem State.hardReset_cmd : s.hardReset.cmd = [] := rfl
@[simp] theorem State.hardReset_plane : s.hardReset.plane = [] := rfl
@[simp] theorem State.hardReset_lotap : s.hardReset.lotap = [] := rfl
@[simp] theorem State.hardReset_hitap : s.hardReset.hitap = [] := rfl
@[simp] theorem State.hardReset_tree : s.hardReset.tree = [] := rfl
@[simp] theorem State.hardReset_hbits : s.hardReset.hbits = [] := rfl
@[simp] theorem State.hardReset_hval : s.hardReset.hval = [] := rfl
@[simp] theorem State.hardReset_bs : s.hardReset.bs = [] := rfl
@[simp] theorem State.hardReset_res : s.hardReset.res = [] := rfl
@[simp] theorem State.hardReset_hder : s.hardReset.hder = [] := rfl
@[simp] theorem State.hardReset_scr : s.hardReset.scr = [] := rfl
@[simp] theorem State.hardReset_powerOn : s.hardReset.powerOn = s.powerOn + 1 := rfl
@[simp] theorem State.hardReset_staleDraw : s.hardReset.staleDraw = s.staleDraw + 1 := rfl
@[simp] theorem State.hardReset_pending : s.hardReset.pending = s.pending := rfl
@[simp] theorem State.hardReset_hostData : s.hardReset.hostData = s.hostData := rfl
@[simp] theorem State.hardReset_regs : s.hardReset.regs = Regs.reset := rfl

@[simp] theorem State.writeReg_params (reg : WReg) (v : Half) : (s.writeReg reg v).params = s.params := by
  cases reg <;> rfl
@[simp] theorem State.writeReg_cmd (reg : WReg) (v : Half) : (s.writeReg reg v).cmd = s.cmd := by
  cases reg <;> rfl
@[simp] theorem State.writeReg_plane (reg : WReg) (v : Half) : (s.writeReg reg v).plane = s.plane := by
  cases reg <;> rfl
@[simp] theorem State.writeReg_lotap (reg : WReg) (v : Half) : (s.writeReg reg v).lotap = s.lotap := by
  cases reg <;> rfl
@[simp] theorem State.writeReg_hitap (reg : WReg) (v : Half) : (s.writeReg reg v).hitap = s.hitap := by
  cases reg <;> rfl
@[simp] theorem State.writeReg_tree (reg : WReg) (v : Half) : (s.writeReg reg v).tree = s.tree := by
  cases reg <;> rfl
@[simp] theorem State.writeReg_hbits (reg : WReg) (v : Half) : (s.writeReg reg v).hbits = s.hbits := by
  cases reg <;> rfl
@[simp] theorem State.writeReg_hval (reg : WReg) (v : Half) : (s.writeReg reg v).hval = s.hval := by
  cases reg <;> rfl
@[simp] theorem State.writeReg_bs (reg : WReg) (v : Half) : (s.writeReg reg v).bs = s.bs := by
  cases reg <;> rfl
@[simp] theorem State.writeReg_res (reg : WReg) (v : Half) : (s.writeReg reg v).res = s.res := by
  cases reg <;> rfl
@[simp] theorem State.writeReg_hder (reg : WReg) (v : Half) : (s.writeReg reg v).hder = s.hder := by
  cases reg <;> rfl
@[simp] theorem State.writeReg_scr (reg : WReg) (v : Half) : (s.writeReg reg v).scr = s.scr := by
  cases reg <;> rfl
@[simp] theorem State.writeReg_powerOn (reg : WReg) (v : Half) : (s.writeReg reg v).powerOn = s.powerOn := by
  cases reg <;> rfl
@[simp] theorem State.writeReg_pending (reg : WReg) (v : Half) : (s.writeReg reg v).pending = s.pending := by
  cases reg <;> rfl
@[simp] theorem State.writeReg_hostData (reg : WReg) (v : Half) : (s.writeReg reg v).hostData = s.hostData := by
  cases reg <;> rfl
@[simp] theorem State.writeReg_regs_state (reg : WReg) (v : Half) : (s.writeReg reg v).regs.state = s.regs.state := by
  cases reg <;> rfl
@[simp] theorem State.writeReg_regs_mkf (reg : WReg) (v : Half) : (s.writeReg reg v).regs.mkf = s.regs.mkf := by
  cases reg <;> rfl
@[simp] theorem State.writeReg_regs_symv (reg : WReg) (v : Half) : (s.writeReg reg v).regs.symv = s.regs.symv := by
  cases reg <;> rfl
@[simp] theorem State.writeReg_regs_bitv (reg : WReg) (v : Half) : (s.writeReg reg v).regs.bitv = s.regs.bitv := by
  cases reg <;> rfl
@[simp] theorem State.writeReg_regs_warn (reg : WReg) (v : Half) : (s.writeReg reg v).regs.warn = s.regs.warn := by
  cases reg <;> rfl
@[simp] theorem State.writeReg_regs_hosterr (reg : WReg) (v : Half) : (s.writeReg reg v).regs.hosterr = s.regs.hosterr := by
  cases reg <;> rfl
@[simp] theorem State.writeReg_regs_err (reg : WReg) (v : Half) : (s.writeReg reg v).regs.err = s.regs.err := by
  cases reg <;> rfl
@[simp] theorem State.writeReg_regs_errinfo (reg : WReg) (v : Half) : (s.writeReg reg v).regs.errinfo = s.regs.errinfo := by
  cases reg <;> rfl
@[simp] theorem State.writeReg_regs_cp (reg : WReg) (v : Half) : (s.writeReg reg v).regs.cp = s.regs.cp := by
  cases reg <;> rfl
@[simp] theorem State.writeReg_regs_bitcnt (reg : WReg) (v : Half) : (s.writeReg reg v).regs.bitcnt = s.regs.bitcnt := by
  cases reg <;> rfl
@[simp] theorem State.writeReg_regs_bitbuf (reg : WReg) (v : Half) : (s.writeReg reg v).regs.bitbuf = s.regs.bitbuf := by
  cases reg <;> rfl
@[simp] theorem State.writeReg_regs_marker (reg : WReg) (v : Half) : (s.writeReg reg v).regs.marker = s.regs.marker := by
  cases reg <;> rfl
@[simp] theorem State.writeReg_regs_hwarn (reg : WReg) (v : Half) : (s.writeReg reg v).regs.hwarn = s.regs.hwarn := by
  cases reg <;> rfl
@[simp] theorem State.writeReg_regs_hselId (reg : WReg) (v : Half) : (s.writeReg reg v).regs.hselId = s.regs.hselId := by
  cases reg <;> rfl
@[simp] theorem State.writeReg_regs_hselValid (reg : WReg) (v : Half) : (s.writeReg reg v).regs.hselValid = s.regs.hselValid := by
  cases reg <;> rfl
@[simp] theorem State.writeReg_regs_sym (reg : WReg) (v : Half) : (s.writeReg reg v).regs.sym = s.regs.sym := by
  cases reg <;> rfl
@[simp] theorem State.writeReg_regs_bits (reg : WReg) (v : Half) : (s.writeReg reg v).regs.bits = s.regs.bits := by
  cases reg <;> rfl

end Sys2Proof.Machine
end

