-- ==== Sys2Proof/Laws/BitReader.lean ====
section
/-! SUPPORT. What the bit reader can do: its cases, once, and the fields it may change. -/

namespace Sys2Proof.Machine

/-- Two states that differ at most in the bit reader's own registers: `BSPTR`, `BITBUF`, `BITCNT`, `MARKER` and
`MKF` (R210). -/
def sameButReader (s t : State) : Prop :=
  t = { s with regs.bsptr := t.regs.bsptr, regs.bitbuf := t.regs.bitbuf, regs.bitcnt := t.regs.bitcnt,
               regs.marker := t.regs.marker, regs.mkf := t.regs.mkf }

theorem sameButReader_refl (s : State) : sameButReader s s := rfl

theorem sameButReader_trans {s t u : State} (h1 : sameButReader s t) (h2 : sameButReader t u) : sameButReader s u := by
  unfold sameButReader at *
  rw [h2, h1]

/-- All that `GetByte` can do (R33, R210). -/
theorem getByte_cases (s : State) :
    ((s.regs.bsend.toNat ≤ s.regs.bsptr.toNat ∨ s.params.bsBytes ≤ s.regs.bsptr.toNat) ∧
      s.getByte = .bounds s s.regs.bsptr) ∨
    (s.regs.bsptr.toNat < s.regs.bsend.toNat ∧ s.regs.bsptr.toNat < s.params.bsBytes ∧
      s.getByte = .byte (s.bsAt s.regs.bsptr.toNat) { s with regs.bsptr := s.regs.bsptr + 1 }) := by
  by_cases h : s.regs.bsend.toNat ≤ s.regs.bsptr.toNat ∨ s.params.bsBytes ≤ s.regs.bsptr.toNat
  · exact .inl ⟨h, by simp [State.getByte, h]⟩
  · refine .inr ⟨by omega, by omega, ?_⟩
    simp only [State.getByte, if_neg h]

theorem getByte_same (s : State) :
    (∀ b t, s.getByte = .byte b t → sameButReader s t ∧ t.regs.bitcnt = s.regs.bitcnt ∧ t.regs.mkf = s.regs.mkf ∧
      t.regs.marker = s.regs.marker) ∧
    (∀ t info, s.getByte = .bounds t info → t = s) := by
  rcases getByte_cases s with ⟨_, h⟩ | ⟨_, _, h⟩ <;> rw [h]
  · exact ⟨fun b t h => by simp at h, fun t info h => by simp only [ByteResult.bounds.injEq] at h; exact h.1.symm⟩
  · refine ⟨fun b t h => ?_, fun t info h => by simp at h⟩
    simp only [ByteResult.byte.injEq] at h
    rw [← h.2]
    exact ⟨rfl, rfl, rfl, rfl⟩

/-- All that `NextBit` can do (R210): take a bit of the accumulator; or, where it is empty, stop at the end of
the bitstream, load a data byte, load a stuffed all-ones byte, or meet a marker. -/
theorem nextBit_cases (s : State) :
    (s.regs.bitcnt ≠ 0 ∧ s.nextBit = s.takeBit) ∨
    (s.regs.bitcnt = 0 ∧
      ((∃ t info, s.getByte = .bounds t info ∧ s.nextBit = .bounds t info) ∨
       (∃ b t, s.getByte = .byte b t ∧ b ≠ 0xFF#8 ∧ s.nextBit = (t.loadByte b).takeBit) ∨
       (∃ t u info, s.getByte = .byte 0xFF#8 t ∧ t.getByte = .bounds u info ∧ s.nextBit = .bounds u info) ∨
       (∃ t u, s.getByte = .byte 0xFF#8 t ∧ t.getByte = .byte 0x00#8 u ∧ s.nextBit = (u.loadByte 0xFF#8).takeBit) ∨
       (∃ t b2 u, s.getByte = .byte 0xFF#8 t ∧ t.getByte = .byte b2 u ∧ b2 ≠ 0x00#8 ∧
          s.nextBit = .marker (u.setMarker b2)))) := by
  unfold State.nextBit
  by_cases h0 : s.regs.bitcnt = 0
  · refine .inr ⟨h0, ?_⟩
    simp only [h0, if_true]
    cases h1 : s.getByte with
    | bounds t info => exact .inl ⟨t, info, rfl, rfl⟩
    | byte b t =>
      by_cases hb : b = 0xFF#8
      · subst hb
        cases h2 : t.getByte with
        | bounds u info => exact .inr (.inr (.inl ⟨t, u, info, rfl, h2, by simp [h2]⟩))
        | byte b2 u =>
          by_cases hb2 : b2 = 0x00#8
          · subst hb2
            exact .inr (.inr (.inr (.inl ⟨t, u, rfl, h2, by simp [h2]⟩)))
          · exact .inr (.inr (.inr (.inr ⟨t, b2, u, rfl, h2, hb2, by simp [h2, hb2]⟩)))
      · exact .inr (.inl ⟨b, t, rfl, hb, by simp [hb]⟩)
  · exact .inl ⟨h0, by rw [if_neg h0]⟩

/-- The state a bit result carries. -/
def BitResult.state : BitResult → State
  | .bit _ s => s
  | .marker s => s
  | .bounds s _ => s

/-- The state a result of reading several bits carries. -/
def BitsResult.state : BitsResult → State
  | .value _ s => s
  | .marker s => s
  | .bounds s _ => s

theorem takeBit_same (s : State) : sameButReader s s.takeBit.state := rfl

theorem loadByte_same (s : State) (b : Byte) : sameButReader s (s.loadByte b) := rfl

theorem setMarker_same (s : State) (b2 : Byte) : sameButReader s (s.setMarker b2) := rfl

/-- `NextBit` changes nothing but the bit reader's registers (R210). -/
theorem nextBit_same (s : State) : sameButReader s s.nextBit.state := by
  rcases nextBit_cases s with ⟨_, h⟩ | ⟨_, ⟨t, info, h1, h⟩ | ⟨b, t, h1, _, h⟩ | ⟨t, u, info, h1, h2, h⟩ |
    ⟨t, u, h1, h2, h⟩ | ⟨t, b2, u, h1, h2, _, h⟩⟩ <;> rw [h]
  · exact takeBit_same s
  · exact ((getByte_same s).2 _ _ h1) ▸ sameButReader_refl s
  · exact sameButReader_trans ((getByte_same s).1 _ _ h1).1
      (sameButReader_trans (loadByte_same t b) (takeBit_same _))
  · exact ((getByte_same t).2 _ _ h2) ▸ ((getByte_same s).1 _ _ h1).1
  · exact sameButReader_trans ((getByte_same s).1 _ _ h1).1 (sameButReader_trans ((getByte_same t).1 _ _ h2).1
      (sameButReader_trans (loadByte_same u _) (takeBit_same _)))
  · exact sameButReader_trans ((getByte_same s).1 _ _ h1).1 (sameButReader_trans ((getByte_same t).1 _ _ h2).1
      (setMarker_same u b2))

/-- Reading several bits changes nothing but the bit reader's registers. -/
theorem readBits_same (s : State) (n v : Nat) : sameButReader s (s.readBits n v).state := by
  induction n generalizing s v with
  | zero => exact sameButReader_refl s
  | succ n ih =>
    unfold State.readBits
    have hs := nextBit_same s
    cases h : s.nextBit with
    | bit b t => rw [h] at hs; exact sameButReader_trans hs (ih t _)
    | marker t => rw [h] at hs; exact hs
    | bounds t info => rw [h] at hs; exact hs

/-- `n` bits more extend the value by `n` binary places. -/
theorem readBits_bound (s t : State) (n v x : Nat) (h : s.readBits n v = .value x t) :
    v * 2 ^ n ≤ x ∧ x < (v + 1) * 2 ^ n := by
  induction n generalizing s v with
  | zero =>
    simp only [State.readBits, BitsResult.value.injEq] at h
    simp [h.1]
  | succ n ih =>
    unfold State.readBits at h
    cases hb : s.nextBit with
    | marker u => simp [hb] at h
    | bounds u info => simp [hb] at h
    | bit b u =>
      simp only [hb] at h
      have := ih u _ h
      have h2 : 2 ^ (n + 1) = 2 * 2 ^ n := by ring
      rw [h2]
      cases b <;> simp only [Bool.toNat_false, Bool.toNat_true, Nat.add_zero] at this <;> constructor <;> nlinarith [this.1, this.2]

/-- After the first bit the reading goes on with what is left. -/
theorem readBits_succ (s t : State) (n v : Nat) (b : Bool) (h : s.nextBit = .bit b t) :
    s.readBits (n + 1) v = t.readBits n (2 * v + b.toNat) := by
  simp [State.readBits, h]

theorem getByte_regs_le (s : State) (b : Byte) (t : State) (h : s.getByte = .byte b t) :
    t.regs.bitcnt = s.regs.bitcnt := ((getByte_same s).1 b t h).2.1

/-- What the reader's fields say after a bit: fewer than 8 bits are left and no marker was met. -/
theorem nextBit_bit (s t : State) (b : Bool) (h : s.nextBit = .bit b t) (hc : s.regs.bitcnt.toNat ≤ 8) :
    t.regs.bitcnt.toNat < 8 ∧ t.regs.mkf = s.regs.mkf ∧ t.regs.marker = s.regs.marker := by
  have key : ∀ u : State, u.regs.bitcnt.toNat ≤ 8 → u.regs.bitcnt ≠ 0 → ∀ b t, u.takeBit = .bit b t →
      t.regs.bitcnt.toNat < 8 ∧ t.regs.mkf = u.regs.mkf ∧ t.regs.marker = u.regs.marker := by
    intro u h8 h0 b t ht
    simp only [State.takeBit, BitResult.bit.injEq] at ht
    rw [← ht.2]
    refine ⟨?_, rfl, rfl⟩
    have : u.regs.bitcnt.toNat ≠ 0 := fun hz => h0 (by apply BitVec.eq_of_toNat_eq; simpa using hz)
    simp only [BitVec.toNat_sub]
    have h1 : (1 : BitVec 4).toNat = 1 := rfl
    omega
  rcases nextBit_cases s with ⟨h0, h'⟩ | ⟨_, ⟨_, _, _, h'⟩ | ⟨b', u, h1, _, h'⟩ | ⟨_, _, _, _, _, h'⟩ |
    ⟨u, v, h1, h2, h'⟩ | ⟨_, _, _, _, _, _, h'⟩⟩ <;> rw [h'] at h
  · exact key s hc h0 b t h
  · simp at h
  · have := key (u.loadByte b') (by simp) (by simp) b t h
    have hu := (getByte_same s).1 _ _ h1
    simpa [hu.2.2.1, hu.2.2.2] using this
  · simp at h
  · have := key (v.loadByte 0xFF#8) (by simp) (by simp) b t h
    have hu := (getByte_same s).1 _ _ h1
    have hv := (getByte_same u).1 _ _ h2
    simpa [hu.2.2.1, hu.2.2.2, hv.2.2.1, hv.2.2.2] using this
  · simp at h

end Sys2Proof.Machine
end

