-- ==== Sys2Proof/Laws/HostPort.lean ====
section
/-! SUPPORT. What an access of the host can do, said once (R24, R26, R29, R70, R71, R77). -/

namespace Sys2Proof.Machine

/-- A host read changes at most `HOSTERR` and what the host last read. -/
theorem hostRead_frame (s : State) (space index : Nat) :
    s.hostRead space index =
      { s with regs.hosterr := (s.hostRead space index).regs.hosterr
               hostData := (s.hostRead space index).hostData } := by
  unfold State.hostRead
  cases s.hostValue space index <;> rfl

/-- All that a host write can do: be refused, or, outside a run, write `CTRL`, a register or a cell. -/
theorem hostWrite_cases (s : State) (space index : Nat) (v : Word) :
    s.hostWrite space index v = s.setHosterr ∨
    (s.regs.state ≠ .run ∧ space = 0 ∧ index = 1 ∧ s.hostWrite space index v = s.writeCtrl (v.setWidth 16)) ∨
    (∃ r, s.regs.state ≠ .run ∧ space = 0 ∧ WReg.ofIndex? index = some r ∧
      s.hostWrite space index v = s.writeReg r (v.setWidth 16)) ∨
    (∃ id, s.regs.state ≠ .run ∧ spaceMem space = some id ∧ index < id.cells s.params ∧
      s.hostWrite space index v = s.hostWriteMem id index v) := by
  by_cases hr : s.regs.state = .run
  · exact .inl (by simp [State.hostWrite, hr])
  · by_cases h0 : space = 0
    · by_cases h1 : index = 1
      · exact .inr (.inl ⟨hr, h0, h1, by simp [State.hostWrite, hr, h0, State.hostWriteReg, h1]⟩)
      · cases hw : WReg.ofIndex? index with
        | none => exact .inl (by simp [State.hostWrite, hr, h0, State.hostWriteReg, h1, hw])
        | some r => exact .inr (.inr (.inl ⟨r, hr, h0, rfl, by simp [State.hostWrite, hr, h0, State.hostWriteReg, h1, hw]⟩))
    · cases hm : spaceMem space with
      | none => exact .inl (by simp [State.hostWrite, hr, h0, hm])
      | some id =>
        by_cases hc : index < id.cells s.params
        · exact .inr (.inr (.inr ⟨id, hr, rfl, hc, by simp [State.hostWrite, hr, h0, hm, hc]⟩))
        · exact .inl (by simp [State.hostWrite, hr, h0, hm, hc])

/-- All that a write of `CTRL` can do (R26, R120, R281). -/
theorem writeCtrl_cases (s : State) (v : Half) :
    (v.getLsbD 1 = true ∧ s.writeCtrl v = s.softReset) ∨
    (v.getLsbD 1 = false ∧ s.writeCtrl v = s) ∨
    (v.getLsbD 1 = false ∧ v.getLsbD 0 = true ∧ (s.regs.state = .idle ∨ s.regs.state = .halted) ∧
      s.writeCtrl v = { s with regs.cp := s.regs.cpstart, regs.state := .run }) := by
  unfold State.writeCtrl
  cases h1 : v.getLsbD 1
  · cases h0 : v.getLsbD 0
    · exact .inr (.inl ⟨rfl, by simp⟩)
    · cases hs : s.regs.state
      · exact .inr (.inr ⟨rfl, rfl, .inl rfl, by simp [State.start, hs]⟩)
      · exact .inr (.inl ⟨rfl, by simp [State.start, hs]⟩)
      · exact .inr (.inr ⟨rfl, rfl, .inr rfl, by simp [State.start, hs]⟩)
      · exact .inr (.inl ⟨rfl, by simp [State.start, hs]⟩)
  · exact .inl ⟨rfl, by simp⟩

end Sys2Proof.Machine
end

