-- ==== Sys2Proof/Laws/Memory.lean ====
section
/-! SUPPORT. The laws of one memory: read after write, canonical form, bounds. -/

namespace Sys2Proof.Machine

variable {w : Nat}

@[simp] theorem Memory.lookup_nil (i : Nat) : Memory.lookup ([] : Memory w) i = none := rfl

theorem Memory.lookup_cons (j : Nat) (u : BitVec w) (rest : Memory w) (i : Nat) :
    Memory.lookup ((j, u) :: rest) i = if i = j then some u else Memory.lookup rest i := rfl

/-- Reading a cell just written gives the value written. -/
@[simp] theorem Memory.lookup_store_same (m : Memory w) (i : Nat) (v : BitVec w) :
    (m.store i v).lookup i = some v := by
  induction m with
  | nil => simp [Memory.store, Memory.lookup]
  | cons c rest ih =>
    obtain ⟨j, u⟩ := c
    unfold Memory.store
    split_ifs with h1 h2
    · simp [Memory.lookup]
    · simp [Memory.lookup]
    · simpa [Memory.lookup, h2] using ih

/-- A write leaves every other cell alone. -/
theorem Memory.lookup_store_other (m : Memory w) (i j : Nat) (v : BitVec w) (h : j ≠ i) :
    (m.store i v).lookup j = m.lookup j := by
  induction m with
  | nil => simp [Memory.store, Memory.lookup, h]
  | cons c rest ih =>
    obtain ⟨k, u⟩ := c
    unfold Memory.store
    split_ifs with h1 h2
    · simp [Memory.lookup, h]
    · subst h2; simp [Memory.lookup, h]
    · by_cases hk : j = k
      · simp [Memory.lookup, hk]
      · simpa [Memory.lookup, hk] using ih

theorem Memory.lookup_store (m : Memory w) (i j : Nat) (v : BitVec w) :
    (m.store i v).lookup j = if j = i then some v else m.lookup j := by
  split_ifs with h
  · subst h; simp
  · exact Memory.lookup_store_other m i j v h

@[simp] theorem Memory.storeAll_nil (m : Memory w) : m.storeAll [] = m := rfl

@[simp] theorem Memory.storeAll_cons (m : Memory w) (i : Nat) (v : BitVec w) (ws : List (Nat × BitVec w)) :
    m.storeAll ((i, v) :: ws) = (m.store i v).storeAll ws := rfl

theorem Memory.storeAll_append (m : Memory w) (a b : List (Nat × BitVec w)) :
    m.storeAll (a ++ b) = (m.storeAll a).storeAll b := by
  induction a generalizing m with
  | nil => rfl
  | cons c rest ih => obtain ⟨i, v⟩ := c; simp [ih]

/-- A cell that is not among the cells written reads as before. -/
theorem Memory.lookup_storeAll_other (m : Memory w) (ws : List (Nat × BitVec w)) (j : Nat)
    (h : j ∉ ws.map Prod.fst) : (m.storeAll ws).lookup j = m.lookup j := by
  induction ws generalizing m with
  | nil => rfl
  | cons c rest ih =>
    obtain ⟨i, v⟩ := c
    simp only [List.map_cons, List.mem_cons, not_or] at h
    rw [Memory.storeAll_cons, ih _ h.2, Memory.lookup_store_other _ _ _ _ h.1]

/-- Where the cells written are distinct, each of them reads as its value. -/
theorem Memory.lookup_storeAll_mem (m : Memory w) (ws : List (Nat × BitVec w)) (hd : (ws.map Prod.fst).Nodup)
    (i : Nat) (v : BitVec w) (h : (i, v) ∈ ws) : (m.storeAll ws).lookup i = some v := by
  induction ws generalizing m with
  | nil => simp at h
  | cons c rest ih =>
    obtain ⟨j, u⟩ := c
    simp only [List.map_cons, List.nodup_cons] at hd
    rw [Memory.storeAll_cons]
    rcases List.mem_cons.1 h with h | h
    · cases h
      rw [Memory.lookup_storeAll_other _ _ _ hd.1, Memory.lookup_store_same]
    · exact ih _ hd.2 h

theorem Memory.risesAbove_store (m : Memory w) (lo i : Nat) (v : BitVec w) (h : m.risesAbove lo = true)
    (hi : lo < i) : (m.store i v).risesAbove lo = true := by
  induction m generalizing lo with
  | nil => simp [Memory.store, Memory.risesAbove, hi]
  | cons c rest ih =>
    obtain ⟨j, u⟩ := c
    simp only [Memory.risesAbove, Bool.and_eq_true, decide_eq_true_eq] at h
    unfold Memory.store
    split_ifs with h1 h2
    · simp [Memory.risesAbove, hi, h1, h.2]
    · subst h2; simp [Memory.risesAbove, hi, h.2]
    · simp only [Memory.risesAbove, Bool.and_eq_true, decide_eq_true_eq]
      exact ⟨h.1, ih j h.2 (by omega)⟩

/-- A write keeps the canonical form. -/
theorem Memory.wf_store (m : Memory w) (i : Nat) (v : BitVec w) (h : m.wf = true) : (m.store i v).wf = true := by
  cases m with
  | nil => rfl
  | cons c rest =>
    obtain ⟨j, u⟩ := c
    simp only [Memory.wf] at h
    unfold Memory.store
    split_ifs with h1 h2
    · simp [Memory.wf, Memory.risesAbove, h1, h]
    · subst h2; simpa [Memory.wf] using h
    · exact Memory.risesAbove_store rest j i v h (by omega)

theorem Memory.wf_storeAll (m : Memory w) (ws : List (Nat × BitVec w)) (h : m.wf = true) :
    (m.storeAll ws).wf = true := by
  induction ws generalizing m with
  | nil => exact h
  | cons c rest ih => obtain ⟨i, v⟩ := c; exact ih _ (Memory.wf_store m i v h)

theorem Memory.within_iff (n : Nat) (m : Memory w) : m.within n = true ↔ ∀ c ∈ m, c.1 < n := by
  induction m with
  | nil => simp [Memory.within]
  | cons c rest ih => obtain ⟨j, u⟩ := c; simp [Memory.within, ih]

theorem Memory.mem_store (m : Memory w) (i : Nat) (v : BitVec w) (c : Nat × BitVec w) (h : c ∈ m.store i v) :
    c = (i, v) ∨ c ∈ m := by
  induction m with
  | nil => simp only [Memory.store, List.mem_singleton] at h; exact .inl h
  | cons d rest ih =>
    obtain ⟨j, u⟩ := d
    unfold Memory.store at h
    split_ifs at h with h1 h2
    · simpa using h
    · rcases List.mem_cons.1 h with h | h
      · exact .inl h
      · exact .inr (List.mem_cons_of_mem _ h)
    · rcases List.mem_cons.1 h with h | h
      · exact .inr (by simp [h])
      · rcases ih h with h | h
        · exact .inl h
        · exact .inr (List.mem_cons_of_mem _ h)

theorem Memory.mem_storeAll (m : Memory w) (ws : List (Nat × BitVec w)) (c : Nat × BitVec w)
    (h : c ∈ m.storeAll ws) : c ∈ ws ∨ c ∈ m := by
  induction ws generalizing m with
  | nil => exact .inr h
  | cons d rest ih =>
    obtain ⟨i, v⟩ := d
    rcases ih _ h with h | h
    · exact .inl (List.mem_cons_of_mem _ h)
    · rcases Memory.mem_store m i v c h with h | h
      · exact .inl (by simp [h])
      · exact .inr h

/-- A write inside the memory keeps every listed cell inside it. -/
theorem Memory.within_store (n : Nat) (m : Memory w) (i : Nat) (v : BitVec w) (h : m.within n = true) (hi : i < n) :
    (m.store i v).within n = true := by
  rw [Memory.within_iff] at *
  intro c hc
  rcases Memory.mem_store m i v c hc with rfl | hc
  · exact hi
  · exact h c hc

theorem Memory.within_storeAll (n : Nat) (m : Memory w) (ws : List (Nat × BitVec w)) (h : m.within n = true)
    (hw : ∀ c ∈ ws, c.1 < n) : (m.storeAll ws).within n = true := by
  rw [Memory.within_iff] at *
  intro c hc
  rcases Memory.mem_storeAll m ws c hc with hc | hc
  · exact hw c hc
  · exact h c hc

/-- A written cell delivers what was written, whatever the draws. -/
theorem State.cell_of_lookup (s : State) (id : MemId) (m : Memory w) (i : Nat) (v : BitVec w)
    (h : m.lookup i = some v) : s.cell id m i = v := by simp [State.cell, h]

end Sys2Proof.Machine
end

