-- ==== Sys2Proof/Laws/Huffman.lean ====
section
/-! SUPPORT. The arithmetic of a canonical code and what the reconstruction loop of rule R221 leaves. -/

namespace Sys2Proof.Machine

@[simp] theorem firstCode_zero (n : Nat → Nat) : firstCode n 0 = 0 := rfl

@[simp] theorem firstCode_one (n : Nat → Nat) : firstCode n 1 = 0 := rfl

theorem firstCode_succ (n : Nat → Nat) (l : Nat) (h : 1 ≤ l) :
    firstCode n (l + 1) = 2 * (firstCode n l + n l) := by
  show 2 * (firstCode n l + if l = 0 then 0 else n l) = _
  rw [if_neg (by omega)]

theorem countsUpTo_succ (n : Nat → Nat) (l : Nat) : countsUpTo n (l + 1) = countsUpTo n l + n (l + 1) := rfl

theorem countsUpTo_mono (n : Nat → Nat) (a b : Nat) (h : a ≤ b) : countsUpTo n a ≤ countsUpTo n b := by
  induction b with
  | zero => simp_all
  | succ b ih =>
    rcases Nat.lt_or_ge a (b + 1) with h1 | h1
    · exact le_trans (ih (by omega)) (by rw [countsUpTo_succ]; omega)
    · have : a = b + 1 := by omega
      subst this; exact le_refl _

theorem codesFit_iff (n : Nat → Nat) (k : Nat) :
    codesFit n k = true ↔ ∀ l, 1 ≤ l → l ≤ k → firstCode n l + n l ≤ 2 ^ l := by
  induction k with
  | zero => simp only [codesFit, true_iff]; intro l h1 h2; omega
  | succ k ih =>
    simp only [codesFit, Bool.and_eq_true, decide_eq_true_eq, ih]
    constructor
    · rintro ⟨h1, h2⟩ l hl1 hl2
      rcases Nat.lt_or_ge l (k + 1) with h | h
      · exact h1 l hl1 (by omega)
      · have : l = k + 1 := by omega
        subst this; exact h2
    · intro h
      exact ⟨fun l h1 h2 => h l h1 (by omega), h (k + 1) (by omega) (le_refl _)⟩

/-- It is enough that the codes fit at the lengths that have codes, which is what the loop tests. -/
theorem codesFit_of_used (n : Nat → Nat) (k : Nat)
    (h : ∀ l, 1 ≤ l → l ≤ k → n l = 0 ∨ firstCode n l + n l ≤ 2 ^ l) : codesFit n k = true := by
  rw [codesFit_iff]
  intro l
  induction l with
  | zero => intro h1; omega
  | succ l ih =>
    intro _ hk
    rcases h (l + 1) (by omega) hk with h0 | h0
    · rcases Nat.eq_zero_or_pos l with hl | hl
      · subst hl; simp [h0]
      · have := ih hl (by omega)
        rw [firstCode_succ n l hl, h0, pow_succ]; omega
    · exact h0

/-- The writes of the reconstruction loop for the lengths `l .. l + k - 1`. -/
def loopWrites (t : Nat) (n : Nat → Nat) (k l : Nat) : List (Nat × Half) :=
  (List.range k).flatMap fun i =>
    derivedWrites t (l + i) (derivedOf n (l + i)).1 (derivedOf n (l + i)).2.1 (derivedOf n (l + i)).2.2

theorem loopWrites_succ (t : Nat) (n : Nat → Nat) (k l : Nat) :
    loopWrites t n (k + 1) l =
      derivedWrites t l (derivedOf n l).1 (derivedOf n l).2.1 (derivedOf n l).2.2 ++ loopWrites t n k (l + 1) := by
  unfold loopWrites
  rw [List.range_succ_eq_map, List.flatMap_cons, List.flatMap_map]
  simp only [Nat.add_zero]
  congr 1
  refine List.flatMap_congr fun i _ => ?_
  rw [show l + (i + 1) = l + 1 + i by omega]

/-- Some code of the lengths `l .. l + k - 1` is all ones. -/
def loopAllOnes (n : Nat → Nat) (k l : Nat) : Bool :=
  (List.range k).any fun i => decide (n (l + i) ≠ 0) && decide (firstCode n (l + i) + n (l + i) = 2 ^ (l + i))

theorem loopAllOnes_succ (n : Nat → Nat) (k l : Nat) :
    loopAllOnes n (k + 1) l =
      ((decide (n l ≠ 0) && decide (firstCode n l + n l = 2 ^ l)) || loopAllOnes n k (l + 1)) := by
  unfold loopAllOnes
  rw [List.range_succ_eq_map, List.any_cons, List.any_map]
  simp only [Nat.add_zero]
  congr 2
  funext i
  simp only [Function.comp]
  rw [show l + (i + 1) = l + 1 + i by omega]

/-- Where every length's codes fit, the loop writes every length's derived values and ends built (R221). -/
theorem buildLoop_built (t : Nat) (n : Nat → Nat) (k l : Nat) (m : Memory 16) (a : Bool) (hl : 1 ≤ l)
    (h : ∀ i < k, firstCode n (l + i) + n (l + i) ≤ 2 ^ (l + i)) :
    buildLoop t n k l m (firstCode n l) (countsUpTo n (l - 1)) a =
      .built (m.storeAll (loopWrites t n k l)) (a || loopAllOnes n k l) := by
  induction k generalizing l m a with
  | zero => simp [buildLoop, loopWrites, loopAllOnes]
  | succ k ih =>
    have hi : ∀ i < k, firstCode n (l + 1 + i) + n (l + 1 + i) ≤ 2 ^ (l + 1 + i) := by
      intro i hk
      have := h (i + 1) (by omega)
      rwa [show l + (i + 1) = l + 1 + i by omega] at this
    have h0 := h 0 (by omega)
    rw [Nat.add_zero] at h0
    have hc : countsUpTo n l = countsUpTo n (l - 1) + n l := by
      obtain ⟨l', rfl⟩ : ∃ l', l = l' + 1 := ⟨l - 1, by omega⟩
      rfl
    unfold buildLoop
    by_cases hn : n l = 0
    · rw [if_pos hn]
      have e1 : firstCode n l * 2 = firstCode n (l + 1) := by rw [firstCode_succ n l hl, hn]; ring
      have e2 : countsUpTo n (l - 1) = countsUpTo n (l + 1 - 1) := by rw [Nat.add_sub_cancel, hc, hn, Nat.add_zero]
      rw [e1, e2, ih (l + 1) _ _ (by omega) hi, loopWrites_succ, Memory.storeAll_append, loopAllOnes_succ]
      simp [derivedOf, hn]
    · rw [if_neg hn, if_neg (by omega)]
      have e1 : (firstCode n l + n l) * 2 = firstCode n (l + 1) := by rw [firstCode_succ n l hl]; ring
      have e2 : countsUpTo n (l - 1) + n l = countsUpTo n (l + 1 - 1) := by rw [Nat.add_sub_cancel, hc]
      have e3 : (firstCode n l + n l - 1 = 2 ^ l - 1) ↔ (firstCode n l + n l = 2 ^ l) := by
        have : 0 < 2 ^ l := Nat.two_pow_pos l
        omega
      rw [e1, e2, ih (l + 1) _ _ (by omega) hi, loopWrites_succ, Memory.storeAll_append, loopAllOnes_succ]
      simp [derivedOf, hn, e3, Bool.or_assoc]

/-- Where some length's codes do not fit, the loop ends there, having written only derived cells of the table
(R221). -/
theorem buildLoop_overflow (t : Nat) (n : Nat → Nat) (k l : Nat) (m : Memory 16) (a : Bool) (hl : 1 ≤ l)
    (h : ∃ i < k, n (l + i) ≠ 0 ∧ 2 ^ (l + i) < firstCode n (l + i) + n (l + i)) :
    ∃ j < k, buildLoop t n k l m (firstCode n l) (countsUpTo n (l - 1)) a =
      .overflow (m.storeAll (loopWrites t n j l)) := by
  induction k generalizing l m a with
  | zero => obtain ⟨i, hi, _⟩ := h; omega
  | succ k ih =>
    have hc : countsUpTo n l = countsUpTo n (l - 1) + n l := by
      obtain ⟨l', rfl⟩ : ∃ l', l = l' + 1 := ⟨l - 1, by omega⟩
      rfl
    have hnext : ¬ (n l ≠ 0 ∧ 2 ^ l < firstCode n l + n l) →
        ∃ i < k, n (l + 1 + i) ≠ 0 ∧ 2 ^ (l + 1 + i) < firstCode n (l + 1 + i) + n (l + 1 + i) := by
      intro hno
      obtain ⟨i, hi, h1, h2⟩ := h
      cases i with
      | zero => exact absurd ⟨h1, h2⟩ hno
      | succ i => refine ⟨i, by omega, ?_, ?_⟩ <;> rw [show l + 1 + i = l + (i + 1) by omega] <;> assumption
    unfold buildLoop
    by_cases hn : n l = 0
    · rw [if_pos hn]
      have e1 : firstCode n l * 2 = firstCode n (l + 1) := by rw [firstCode_succ n l hl, hn]; ring
      have e2 : countsUpTo n (l - 1) = countsUpTo n (l + 1 - 1) := by rw [Nat.add_sub_cancel, hc, hn, Nat.add_zero]
      rw [e1, e2]
      obtain ⟨j, hj, e⟩ := ih (l + 1) (m.storeAll (derivedWrites t l 0 0xFFFF 0)) a (by omega) (hnext (by simp [hn]))
      refine ⟨j + 1, by omega, ?_⟩
      rw [e, loopWrites_succ, Memory.storeAll_append]
      simp [derivedOf, hn]
    · rw [if_neg hn]
      by_cases hov : 2 ^ l < firstCode n l + n l
      · exact ⟨0, by omega, by simp [hov, loopWrites]⟩
      · rw [if_neg hov]
        have e1 : (firstCode n l + n l) * 2 = firstCode n (l + 1) := by rw [firstCode_succ n l hl]; ring
        have e2 : countsUpTo n (l - 1) + n l = countsUpTo n (l + 1 - 1) := by rw [Nat.add_sub_cancel, hc]
        rw [e1, e2]
        obtain ⟨j, hj, e⟩ := ih (l + 1) (m.storeAll (derivedWrites t l (firstCode n l) (firstCode n l + n l - 1)
          (countsUpTo n (l - 1)))) (a || decide (firstCode n l + n l - 1 = 2 ^ l - 1)) (by omega)
          (hnext (by tauto))
        refine ⟨j + 1, by omega, ?_⟩
        rw [e, loopWrites_succ, Memory.storeAll_append]
        simp [derivedOf, hn]

/-- The derived cells that the loop writes belong to the table and to the three arrays. -/
theorem mem_loopWrites (t : Nat) (n : Nat → Nat) (k l : Nat) (c : Nat × Half) :
    c ∈ loopWrites t n k l ↔ ∃ i < k,
      c = (hderIndex t .valptr (l + i), BitVec.ofNat 16 (derivedOf n (l + i)).2.2) ∨
      c = (hderIndex t .mincode (l + i), BitVec.ofNat 16 (derivedOf n (l + i)).1) ∨
      c = (hderIndex t .maxcode (l + i), BitVec.ofNat 16 (derivedOf n (l + i)).2.1) := by
  simp only [loopWrites, List.mem_flatMap, List.mem_range, derivedWrites, List.mem_cons, List.not_mem_nil, or_false]

/-- The derived cells of table `t` lie in its 64 cells (R70). -/
theorem hderIndex_table (t : Nat) (arr : DerivedArray) (l : Nat) (h1 : 1 ≤ l) (h2 : l ≤ 16) :
    hderIndex t arr l / 64 = t := by
  cases arr <;> simp only [hderIndex, DerivedArray.number] <;> omega

/-- What the loop writes lies in the table's 64 cells. -/
theorem loopWrites_table (t : Nat) (n : Nat → Nat) (k : Nat) (hk : k ≤ 16) :
    ∀ c ∈ loopWrites t n k 1, c.1 / 64 = t := by
  intro c hc
  obtain ⟨i, hi, rfl | rfl | rfl⟩ := (mem_loopWrites t n k 1 c).1 hc <;>
    exact hderIndex_table _ _ _ (by omega) (by omega)

/-- `hasAllOnes` is what the loop accumulates over all the lengths. -/
theorem hasAllOnes_eq (n : Nat → Nat) : hasAllOnes n = loopAllOnes n 16 1 := by
  unfold hasAllOnes loopAllOnes Config.maxBits
  rw [List.any_map]
  congr 1
  funext i
  simp only [Function.comp, Nat.add_comm 1 i]

/-- All that the body of `HBUILD` can do (R221): the table is not defined; its counts describe no code; or it is
built, with every derived value written. -/
theorem hbuildTable_cases (t : Nat) (s : State) :
    (s.regs.hdef.getLsbD t = false ∧ hbuildTable t s = .raised s .undef (BitVec.ofNat 16 t)) ∨
    (s.regs.hdef.getLsbD t = true ∧ tableValid (s.count t) = false ∧
      ∃ ws, (∀ c ∈ ws, c.1 / 64 = t) ∧
        hbuildTable t s =
          .raised { s.unbuild (~~~ (tableBit t)) with hder := s.hder.storeAll ws } .htable (BitVec.ofNat 16 t)) ∨
    (s.regs.hdef.getLsbD t = true ∧ tableValid (s.count t) = true ∧
      hbuildTable t s =
        .done (State.markBuilt
          { s.unbuild (~~~ (tableBit t)) with hder := s.hder.storeAll (loopWrites t (s.count t) 16 1) }
          t (hasAllOnes (s.count t)))) := by
  unfold hbuildTable
  cases hd : s.regs.hdef.getLsbD t
  · exact .inl ⟨rfl, by simp⟩
  · refine .inr ?_
    by_cases hc : Config.maxSym < countsUpTo (s.count t) Config.maxBits
    · refine .inl ⟨rfl, by simp [tableValid]; intro h; omega, [], by simp, ?_⟩
      simp only [Bool.true_eq_false, if_false, if_pos hc, Memory.storeAll_nil]
      rfl
    · simp only [Bool.true_eq_false, if_false, if_neg hc]
      cases hv : codesFit (s.count t) Config.maxBits
      · left
        refine ⟨trivial, by simp [tableValid, hv], ?_⟩
        have hex : ∃ i < 16, s.count t (1 + i) ≠ 0 ∧
            2 ^ (1 + i) < firstCode (s.count t) (1 + i) + s.count t (1 + i) := by
          by_contra hno
          have : codesFit (s.count t) Config.maxBits = true := by
            refine codesFit_of_used _ _ fun l h1 h2 => ?_
            have h16 : l ≤ 16 := h2
            by_contra hl
            refine hno ⟨l - 1, by omega, ?_⟩
            rw [show 1 + (l - 1) = l by omega]
            omega
          simp [this] at hv
        obtain ⟨j, hj, e⟩ := buildLoop_overflow t (s.count t) 16 1 s.hder false (by omega) hex
        refine ⟨loopWrites t (s.count t) j 1, loopWrites_table t _ j (by omega), ?_⟩
        simp only [firstCode_one] at e
        rw [show countsUpTo (s.count t) (1 - 1) = 0 from rfl] at e
        rw [e]
      · right
        refine ⟨trivial, by simp [tableValid, hv]; omega, ?_⟩
        have hfit := (codesFit_iff (s.count t) 16).1 hv
        have e := buildLoop_built t (s.count t) 16 1 s.hder false (by omega)
          (fun i hi => hfit (1 + i) (by omega) (by omega))
        simp only [firstCode_one, Bool.false_or] at e
        rw [show countsUpTo (s.count t) (1 - 1) = 0 from rfl] at e
        rw [e, hasAllOnes_eq]

/-- All that the loop of `HDEC` can do, as far as the state goes (R223): stop at a marker, deliver a symbol, or
fault, having changed nothing else but the bit reader. -/
theorem decodeLoop_cases (t k : Nat) (s : State) (l c : Nat) :
    (∃ u, sameButReader s u ∧ s.decodeLoop t k l c = .done u) ∨
    (∃ u v, sameButReader s u ∧ s.decodeLoop t k l c = .done (u.deliverSymbol v)) ∨
    (∃ u e info, sameButReader s u ∧ (e = .hcode ∨ e = .bounds) ∧ s.decodeLoop t k l c = .raised u e info) := by
  induction k generalizing s l c with
  | zero => exact .inr (.inr ⟨s, .hcode, _, sameButReader_refl s, .inl rfl, rfl⟩)
  | succ k ih =>
    have hs := nextBit_same s
    unfold State.decodeLoop
    cases hb : s.nextBit with
    | marker u => rw [hb] at hs; exact .inl ⟨u, hs, rfl⟩
    | bounds u info => rw [hb] at hs; exact .inr (.inr ⟨u, .bounds, info, hs, .inr rfl, rfl⟩)
    | bit b u =>
      rw [hb] at hs
      simp only
      split_ifs with hm
      · exact .inr (.inl ⟨u, _, hs, rfl⟩)
      · rcases ih u (l + 1) (2 * c + b.toNat) with ⟨w, h1, h2⟩ | ⟨w, v, h1, h2⟩ | ⟨w, e, i, h1, h2, h3⟩
        · exact .inl ⟨w, sameButReader_trans hs h1, h2⟩
        · exact .inr (.inl ⟨w, v, sameButReader_trans hs h1, h2⟩)
        · exact .inr (.inr ⟨w, e, i, sameButReader_trans hs h1, h2, h3⟩)

end Sys2Proof.Machine
end

