-- ==== Sys2Proof/Laws/Ops.lean ====
section
/-! SUPPORT. What the shared operations around a command can do: the end of a command, its operand, fetch and
decode, the step. -/

namespace Sys2Proof.Machine

@[simp] theorem finish_done (s : State) : finish (.done s) = .next s.advance := rfl

@[simp] theorem finish_raised (s : State) (e : ErrCode) (info : Half) :
    finish (.raised s e info) = .next (s.raise e info) := rfl

@[simp] theorem andThen_done (s : State) (k : State → CmdResult) : (CmdResult.done s).andThen k = k s := rfl

@[simp] theorem andThen_raised (s : State) (e : ErrCode) (info : Half) (k : State → CmdResult) :
    (CmdResult.raised s e info).andThen k = .raised s e info := rfl

/-- The end of a command is always a next state: advanced, or in `FAULT`. -/
theorem finish_cases (r : CmdResult) :
    (∃ s, r = .done s ∧ finish r = .next s.advance) ∨
    (∃ s e info, r = .raised s e info ∧ finish r = .next (s.raise e info)) := by
  cases r with
  | done s => exact .inl ⟨s, rfl, rfl⟩
  | raised s e info => exact .inr ⟨s, e, info, rfl, rfl⟩

theorem andThen_eq_done (r : CmdResult) (k : State → CmdResult) (t : State) :
    r.andThen k = .done t ↔ ∃ u, r = .done u ∧ k u = .done t := by
  cases r <;> simp [CmdResult.andThen]

theorem andThen_eq_raised (r : CmdResult) (k : State → CmdResult) (t : State) (e : ErrCode) (info : Half) :
    r.andThen k = .raised t e info ↔ r = .raised t e info ∨ ∃ u, r = .done u ∧ k u = .raised t e info := by
  cases r <;> simp [CmdResult.andThen]

theorem nodeLegal_iff (arg : BitVec 8) : nodeLegal arg = true ↔ arg.toNat ≤ 19 := by
  simp only [nodeLegal, Config.nTree, decide_eq_true_eq]; omega

theorem tableLegal_iff (arg : BitVec 8) : tableLegal arg = true ↔ arg.toNat ≤ 7 := by
  simp only [tableLegal, Config.nHtab, decide_eq_true_eq]; omega

theorem countLegal_iff (arg : BitVec 8) : countLegal arg = true ↔ 1 ≤ arg.toNat ∧ arg.toNat ≤ 16 := by
  simp only [countLegal, Bool.and_eq_true, decide_eq_true_eq]

theorem withNode_legal (op arg : BitVec 8) (s : State) (k : Nat → State → CmdResult) (h : nodeLegal arg = true) :
    withNode op arg s k = k arg.toNat s := by simp [withNode, h]

theorem withTable_legal (op arg : BitVec 8) (s : State) (k : Nat → State → CmdResult) (h : tableLegal arg = true) :
    withTable op arg s k = k arg.toNat s := by simp [withTable, h]

theorem withCount_legal (op arg : BitVec 8) (s : State) (k : Nat → State → CmdResult) (h : countLegal arg = true) :
    withCount op arg s k = k arg.toNat s := by simp [withCount, h]

/-- All that fetch and decode can come to. -/
theorem fetchDecode_cases (s : State) :
    (s.regs.state ≠ .run ∧ s.fetchDecode = .stop s) ∨
    (s.regs.state = .run ∧ s.params.cmdWords ≤ s.regs.cp.toNat ∧ s.fetchDecode = .stop (s.raise .fetch s.regs.cp)) ∨
    (s.regs.state = .run ∧ s.regs.cp.toNat < s.params.cmdWords ∧
      ((∃ e, decode (s.cmdAt s.regs.cp.toNat) = .error e ∧
          s.fetchDecode = .stop (s.raise .illegal (illegalInfo (s.cmdAt s.regs.cp.toNat)))) ∨
        ∃ i, decode (s.cmdAt s.regs.cp.toNat) = .ok i ∧ s.fetchDecode = .command i)) := by
  unfold State.fetchDecode
  by_cases h1 : s.regs.state = .run
  · by_cases h2 : s.params.cmdWords ≤ s.regs.cp.toNat
    · exact .inr (.inl ⟨h1, h2, by simp [h1, h2]⟩)
    · refine .inr (.inr ⟨h1, by omega, ?_⟩)
      cases h : decode (s.cmdAt s.regs.cp.toNat) with
      | error e => exact .inl ⟨e, rfl, by simp [h1, h2, h]⟩
      | ok i => exact .inr ⟨i, rfl, by simp [h1, h2, h]⟩
  · exact .inl ⟨h1, by simp [h1]⟩

/-- `exec` always answers a next state. -/
theorem exec_next (i : Instr) (s : State) : ∃ t, exec i s = .next t := by
  have hf : ∀ r : CmdResult, ∃ t, finish r = .next t := by
    intro r
    cases r with
    | done s => exact ⟨_, rfl⟩
    | raised s e info => exact ⟨_, rfl⟩
  cases i <;> first | exact ⟨_, rfl⟩ | exact hf _

/-- All that a step can do: the event due at the host port, or the sequencer's turn. -/
theorem step_cases (s : State) :
    (s.pending = [] ∧ step s = engineStep s) ∨
    (∃ rest, s.pending = .engineTurn :: rest ∧ step s = engineStep { s with pending := rest }) ∨
    (∃ rest space index, s.pending = .read space index :: rest ∧
      step s = .next (State.hostRead { s with pending := rest } space index)) ∨
    (∃ rest space index v, s.pending = .write space index v :: rest ∧
      step s = .next (State.hostWrite { s with pending := rest } space index v)) ∨
    (∃ rest, s.pending = .hardReset :: rest ∧ step s = .next (State.hardReset { s with pending := rest })) := by
  unfold step
  cases h : s.pending with
  | nil => exact .inl ⟨rfl, rfl⟩
  | cons e rest =>
    cases e with
    | engineTurn => exact .inr (.inl ⟨rest, rfl, rfl⟩)
    | read space index => exact .inr (.inr (.inl ⟨rest, space, index, rfl, rfl⟩))
    | write space index v => exact .inr (.inr (.inr (.inl ⟨rest, space, index, v, rfl, rfl⟩)))
    | hardReset => exact .inr (.inr (.inr (.inr ⟨rest, rfl, rfl⟩)))

theorem engineStep_stop (s t : State) (h : s.fetchDecode = .stop t) : engineStep s = .next t := by
  simp [engineStep, h]

theorem engineStep_command (s : State) (i : Instr) (h : s.fetchDecode = .command i) : engineStep s = exec i s := by
  simp [engineStep, h]

/-- The machine never stops: every step answers a next state, a fault of the WFE included (R253). -/
theorem step_next (s : State) : ∃ t, step s = .next t := by
  have he : ∀ u : State, ∃ t, engineStep u = .next t := by
    intro u
    rcases fetchDecode_cases u with ⟨_, h⟩ | ⟨_, _, h⟩ | ⟨_, _, ⟨_, _, h⟩ | ⟨i, _, h⟩⟩
    · exact ⟨_, engineStep_stop _ _ h⟩
    · exact ⟨_, engineStep_stop _ _ h⟩
    · exact ⟨_, engineStep_stop _ _ h⟩
    · rw [engineStep_command _ _ h]
      exact exec_next i u
  rcases step_cases s with ⟨_, h⟩ | ⟨_, _, h⟩ | ⟨_, _, _, _, h⟩ | ⟨_, _, _, _, _, h⟩ | ⟨_, _, h⟩
  · rw [h]; exact he _
  · rw [h]; exact he _
  all_goals exact ⟨_, h⟩

end Sys2Proof.Machine
end

