-- ==== Sys2Proof/Laws/Pass.lean ====
section
/-! SUPPORT. What a filter pass can do: when its checks hold, what it writes and what it leaves alone. -/

namespace Sys2Proof.Machine

theorem checkCfg_none_iff (s : State) : s.checkCfg = none ↔ s.bankLegal := by
  have hw : s.regs.width = 0 ↔ s.regs.width.toNat = 0 := by
    rw [BitVec.toNat_eq]; simp
  have hh : s.regs.height = 0 ↔ s.regs.height.toNat = 0 := by
    rw [BitVec.toNat_eq]; simp
  unfold State.checkCfg State.bankLegal
  simp only [hw, hh]
  split_ifs <;> simp <;> omega

theorem checkNode_none_iff (s : State) (n : Nat) : s.checkNode n = none ↔ s.nodeInside n := by
  unfold State.checkNode State.nodeInside
  dsimp only
  split_ifs <;> simp <;> omega

theorem checkLength_none_iff (n : Nat) (ok : Bool) : checkLength n ok = none ↔ ok = true := by
  cases ok <;> simp [checkLength]

theorem firstRaise_none_iff (l : List (Option Raise)) : firstRaise l = none ↔ ∀ r ∈ l, r = none := by
  induction l with
  | nil => simp [firstRaise]
  | cons r rest ih => cases r <;> simp [firstRaise, ih]

/-- A pass is accepted exactly where its three checks hold (R140, R141, R147, R176). -/
theorem check_none_iff (p : Pass) (n : Nat) (s : State) :
    p.check n s = none ↔ s.bankLegal ∧ s.nodeInside n ∧
      p.accepts s.regs.lsz.toNat s.regs.hsz.toNat (p.lineLength (s.node n)) = true := by
  unfold Pass.check
  rw [firstRaise_none_iff]
  simp [checkCfg_none_iff, checkNode_none_iff, checkLength_none_iff]

/-- All that a pass can do: refuse with nothing changed, or write. -/
theorem run_cases (p : Pass) (n : Nat) (s : State) :
    (∃ e info, p.check n s = some (e, info) ∧ p.run n s = .raised s e info) ∨
    (p.check n s = none ∧ p.run n s = .done (p.apply s (s.node n))) := by
  unfold Pass.run
  cases h : p.check n s with
  | none => exact .inr ⟨rfl, rfl⟩
  | some r => exact .inl ⟨r.1, r.2, rfl, rfl⟩

/-- A pass changes nothing but the memory it writes. -/
theorem apply_frame (p : Pass) (s : State) (e : Node) :
    p.apply s e = { s with scr := (p.apply s e).scr, plane := (p.apply s e).plane } ∧
    (p.fromPlane = true → (p.apply s e).plane = s.plane ∧ (p.apply s e).scr = s.scr.storeAll (p.writes s e)) ∧
    (p.fromPlane = false → (p.apply s e).scr = s.scr ∧ (p.apply s e).plane = s.plane.storeAll (p.writes s e)) := by
  unfold Pass.apply
  cases p.fromPlane <;> simp

@[simp] theorem apply_regs (p : Pass) (s : State) (e : Node) : (p.apply s e).regs = s.regs := by
  rw [(apply_frame p s e).1]

@[simp] theorem apply_params (p : Pass) (s : State) (e : Node) : (p.apply s e).params = s.params := by
  rw [(apply_frame p s e).1]

@[simp] theorem apply_node (p : Pass) (s : State) (e : Node) (n : Nat) : (p.apply s e).node n = s.node n := by
  rw [(apply_frame p s e).1]; rfl

@[simp] theorem apply_bank (p : Pass) (s : State) (e : Node) : (p.apply s e).bank = s.bank := by
  rw [(apply_frame p s e).1]; rfl

/-- The checks of a pass read nothing that a pass writes. -/
theorem check_apply (p q : Pass) (s : State) (e : Node) (n : Nat) : q.check n (p.apply s e) = q.check n s := by
  rw [(apply_frame p s e).1]; rfl

theorem anaLine_lengths (b : Bank) (x : List Word) :
    (anaLine b x).1.length = llen x.length ∧ (anaLine b x).2.length = hlen x.length := by
  simp [anaLine]

theorem llen_add_hlen (n : Nat) : llen n + hlen n = n := by unfold llen hlen; omega

theorem forwardLine_length (b : Bank) (inv : Bool) (x : List Word) : (forwardLine b inv x).length = x.length := by
  have h := anaLine_lengths b x
  have := llen_add_hlen x.length
  cases inv <;> simp [forwardLine, place, h.1, h.2] <;> omega

theorem inverseLine_length (b : Bank) (inv : Bool) (c : List Word) : (inverseLine b inv c).length = c.length := by
  simp [inverseLine, synLine]

@[simp] theorem input_length (p : Pass) (s : State) (e : Node) (m : Nat) :
    (p.input s e m).length = p.lineLength e := by simp [Pass.input]

@[simp] theorem output_length (p : Pass) (s : State) (e : Node) (m : Nat) :
    (p.output s e m).length = p.lineLength e := by
  unfold Pass.output Pass.line
  cases p.forward <;> simp [forwardLine_length, inverseLine_length]

/-- What a pass writes: cell `j` of line `m` gets element `j` of that line's output. -/
theorem mem_writes (p : Pass) (s : State) (e : Node) (c : Nat × Word) :
    c ∈ p.writes s e ↔ ∃ m < p.lineCount e, ∃ j < p.lineLength e,
      c = (p.cellIndex s.regs.width.toNat e m j, (p.output s e m).getD j 0) := by
  unfold Pass.writes Pass.lineWrites
  simp only [List.mem_flatMap, List.mem_range]
  constructor
  · rintro ⟨m, hm, hc⟩
    obtain ⟨j, hj, hcj⟩ := List.mem_iff_getElem.1 hc
    have hj' : j < p.lineLength e := by
      simp only [List.length_zip, List.length_map, List.length_range, output_length] at hj; omega
    refine ⟨m, hm, j, hj', ?_⟩
    rw [← hcj]
    simp [List.getElem_zip, hj', List.getD_eq_getElem?_getD]
  · rintro ⟨m, hm, j, hj, rfl⟩
    refine ⟨m, hm, ?_⟩
    rw [List.mem_iff_getElem]
    refine ⟨j, by simp [hj], ?_⟩
    simp [List.getElem_zip, hj, List.getD_eq_getElem?_getD]

theorem planeIndex_inj (width x y x' y' : Nat) (hx : x < width) (hx' : x' < width)
    (h : planeIndex width x y = planeIndex width x' y') : x = x' ∧ y = y' := by
  unfold planeIndex at h
  have hw : 0 < width := by omega
  have h1 : (y * width + x) / width = y := by
    rw [Nat.add_comm, Nat.add_mul_div_right _ _ hw, Nat.div_eq_of_lt hx]; omega
  have h2 : (y' * width + x') / width = y' := by
    rw [Nat.add_comm, Nat.add_mul_div_right _ _ hw, Nat.div_eq_of_lt hx']; omega
  have hy : y = y' := by rw [← h1, ← h2, h]
  subst hy
  exact ⟨by omega, rfl⟩

/-- Inside the plane, different cells of a region are different words. -/
theorem cellIndex_inj (p : Pass) (width : Nat) (e : Node) (hin : e.x0 + e.lx ≤ width) (m j m' j' : Nat)
    (hm : m < p.lineCount e) (hj : j < p.lineLength e) (hm' : m' < p.lineCount e) (hj' : j' < p.lineLength e)
    (h : p.cellIndex width e m j = p.cellIndex width e m' j') : m = m' ∧ j = j' := by
  unfold Pass.cellIndex Pass.lineCount Pass.lineLength at *
  cases hp : p.alongRows <;> simp only [hp, Bool.false_eq_true, if_true, if_false] at * <;>
    have := planeIndex_inj _ _ _ _ _ (by omega) (by omega) h <;> omega

/-- The words a pass writes are pairwise different. -/
theorem writes_nodup (p : Pass) (s : State) (e : Node) (hin : e.x0 + e.lx ≤ s.regs.width.toNat) :
    ((p.writes s e).map Prod.fst).Nodup := by
  have hl : ∀ m, (p.lineWrites s e m).map Prod.fst =
      (List.range (p.lineLength e)).map fun j => p.cellIndex s.regs.width.toNat e m j := by
    intro m
    unfold Pass.lineWrites
    rw [List.map_fst_zip]
    simp
  unfold Pass.writes
  rw [List.map_flatMap]
  simp only [hl]
  rw [List.nodup_flatMap]
  refine ⟨fun m hm => ?_, ?_⟩
  · refine List.Nodup.map_on ?_ List.nodup_range
    intro j hj j' hj' h
    simp only [List.mem_range] at hm hj hj'
    exact (cellIndex_inj p _ e hin m j m j' hm hj hm hj' h).2
  · refine List.Nodup.pairwise_of_forall_ne List.nodup_range ?_
    intro m hm m' hm' hne i hi hi'
    simp only [List.mem_map, List.mem_range] at hi hi' hm hm'
    obtain ⟨j, hj, rfl⟩ := hi
    obtain ⟨j', hj', h⟩ := hi'
    exact hne (cellIndex_inj p _ e hin m' j' m j hm' hj' hm hj h).1.symm

/-- A region inside the plane lies below `WIDTH * HEIGHT`. -/
theorem cellIndex_lt (p : Pass) (width height : Nat) (e : Node) (hx : e.x0 + e.lx ≤ width)
    (hy : e.y0 + e.ly ≤ height) (m j : Nat) (hm : m < p.lineCount e) (hj : j < p.lineLength e) :
    p.cellIndex width e m j < width * height := by
  have key : ∀ x y, x < width → y < height → planeIndex width x y < width * height := by
    intro x y hx hy
    unfold planeIndex
    have : (y + 1) * width ≤ height * width := Nat.mul_le_mul_right _ hy
    nlinarith
  unfold Pass.cellIndex Pass.lineCount Pass.lineLength at *
  cases hp : p.alongRows <;> simp only [hp, Bool.false_eq_true, if_true, if_false] at * <;>
    exact key _ _ (by omega) (by omega)

/-- Code and `ERRINFO` of the first failing check are what the pass raises. -/
theorem filterFault_check (p : Pass) (n : Nat) (s : State) (c : BitVec 8) (info : Half)
    (h : s.filterFault n (p.accepts s.regs.lsz.toNat s.regs.hsz.toNat (p.lineLength (s.node n))) = some (c, info)) :
    ∃ e : ErrCode, e.code = c ∧ p.check n s = some (e, info) := by
  have hw : s.regs.width = 0 ↔ s.regs.width.toNat = 0 := by rw [BitVec.toNat_eq]; simp
  have hh : s.regs.height = 0 ↔ s.regs.height.toNat = 0 := by rw [BitVec.toNat_eq]; simp
  unfold State.filterFault at h
  unfold Pass.check State.checkCfg State.checkNode checkLength
  simp only [hw, hh, gt_iff_lt] at h ⊢
  split_ifs at h with h1 h2 h3 h4 h5 h6 h7 h8 h9
  all_goals simp only [Option.some.injEq, Prod.mk.injEq] at h
  all_goals obtain ⟨rfl, rfl⟩ := h
  iterate 5
    exact ⟨.cfg, rfl, by
      first
        | simp only [*, firstRaise, if_true, if_false]; done
        | simp only [if_neg h1, if_neg h2, if_pos h3, firstRaise]⟩
  all_goals refine ⟨.geom, rfl, ?_⟩
  all_goals simp only [*, firstRaise, if_true, if_false, Bool.false_eq_true]

/-- Fault entry, in the terms claims use (R253). -/
theorem raise_withFault (s : State) (e : ErrCode) (i : Half) : s.raise e i = s.withFault e.code i := rfl

/-- Inside the region, the memory a pass wrote holds the pass's output. -/
theorem lookup_writes (p : Pass) (s : State) (n : Nat) (mm : Memory 32) (hin : s.nodeInside n) (m j : Nat)
    (hm : m < p.lineCount (s.node n)) (hj : j < p.lineLength (s.node n)) :
    (mm.storeAll (p.writes s (s.node n))).lookup (p.cellIndex s.regs.width.toNat (s.node n) m j) =
      (p.output s (s.node n) m)[j]? := by
  rw [Memory.lookup_storeAll_mem _ _ (writes_nodup p s _ hin.2.2.1) _ ((p.output s (s.node n) m).getD j 0)
    ((mem_writes _ _ _ _).2 ⟨m, hm, j, hj, rfl⟩)]
  have : j < (p.output s (s.node n) m).length := by simpa using hj
  rw [List.getD_eq_getElem?_getD, List.getElem?_eq_getElem this]
  rfl

/-- Outside the region, the memory a pass wrote is as before. -/
theorem lookup_writes_out (p : Pass) (s : State) (n : Nat) (mm : Memory 32) (i : Nat) (h : ¬ s.inRegion n i) :
    (mm.storeAll (p.writes s (s.node n))).lookup i = mm.lookup i := by
  apply Memory.lookup_storeAll_other
  intro hi
  simp only [List.mem_map] at hi
  obtain ⟨c, hc, rfl⟩ := hi
  obtain ⟨m, hm, j, hj, rfl⟩ := (mem_writes _ _ _ _).1 hc
  apply h
  unfold Pass.lineCount Pass.lineLength at *
  cases hp : p.alongRows <;> simp only [hp, if_true, Bool.false_eq_true, if_false] at hm hj
  · exact ⟨j, hj, m, hm, by simp [Pass.cellIndex, hp, planeIndex, State.rowCell]; omega⟩
  · exact ⟨m, hm, j, hj, by simp [Pass.cellIndex, hp, planeIndex, State.rowCell]; omega⟩

/-- With a legal configuration a pass can refuse only its node (R257). -/
theorem check_geom (p : Pass) (n : Nat) (s : State) (hb : s.bankLegal) (e : ErrCode) (info : Half)
    (h : p.check n s = some (e, info)) : e = .geom ∧ info = BitVec.ofNat 16 n := by
  have hc := (checkCfg_none_iff s).2 hb
  unfold Pass.check at h
  rw [hc] at h
  simp only [firstRaise] at h
  unfold State.checkNode checkLength at h
  dsimp only at h
  split_ifs at h <;> simp [firstRaise] at h <;> exact ⟨h.1.symm, h.2.symm⟩

/-- A whole-tree loop is the loop over its first nodes, then over the others. -/
theorem runNodes_append (first second : Pass) (l₁ l₂ : List Nat) (s : State) :
    runNodes first second (l₁ ++ l₂) s = (runNodes first second l₁ s).andThen (runNodes first second l₂) := by
  induction l₁ generalizing s with
  | nil => rfl
  | cons n l ih =>
    simp only [List.cons_append, runNodes]
    cases (first.run n s).andThen (second.run n) with
    | done u => exact ih u
    | raised u e i => rfl

/-- Where every pass of a whole-tree loop is accepted, the loop is done and has changed only the two planes. -/
theorem runNodes_accepted (first second : Pass) (l : List Nat) (s : State)
    (h : ∀ n ∈ l, first.check n s = none ∧ second.check n s = none) :
    ∃ plane scr, runNodes first second l s = .done { s with plane := plane, scr := scr } := by
  induction l generalizing s with
  | nil => exact ⟨s.plane, s.scr, rfl⟩
  | cons n l ih =>
    have h1 : first.run n s = .done (first.apply s (s.node n)) := by
      rw [Pass.run, (h n (by simp)).1]
    have h2 : second.run n (first.apply s (s.node n)) =
        .done (second.apply (first.apply s (s.node n)) (s.node n)) := by
      rw [Pass.run, check_apply, (h n (by simp)).2, apply_node]
    obtain ⟨plane, scr, e⟩ := ih (second.apply (first.apply s (s.node n)) (s.node n)) fun m hm => by
      simp only [check_apply]
      exact h m (by simp [hm])
    refine ⟨plane, scr, ?_⟩
    simp only [runNodes, h1, andThen_done, h2]
    rw [e, (apply_frame second _ _).1, (apply_frame first _ _).1]

end Sys2Proof.Machine
end

