-- ==== Sys2Proof/Laws/PerInstr.lean ====
section
/-! SUPPORT. Statements made of every command as a term, one lemma per constructor. -/

namespace Sys2Proof

theorem opField_formatC (op arg : BitVec 8) : opField (formatC op arg) = op := by
  apply BitVec.eq_of_getLsbD_eq
  intro i hi
  simp only [opField, formatC, BitVec.getLsbD_extractLsb', BitVec.getLsbD_append]
  simp [hi]

theorem zeroField_formatC (op arg : BitVec 8) : zeroField (formatC op arg) = 0 := by
  apply BitVec.eq_of_getLsbD_eq
  intro i hi
  simp only [zeroField, formatC, BitVec.getLsbD_extractLsb', BitVec.getLsbD_append]
  simp [hi]
  intro h; omega

theorem argField_formatC (op arg : BitVec 8) : argField (formatC op arg) = arg := by
  apply BitVec.eq_of_getLsbD_eq
  intro i hi
  simp only [argField, formatC, BitVec.getLsbD_extractLsb', BitVec.getLsbD_append]
  simp [hi]
  intro h; omega

theorem opField_formatR (op reg : BitVec 8) (imm : BitVec 16) : opField (formatR op reg imm) = op := by
  apply BitVec.eq_of_getLsbD_eq
  intro i hi
  simp only [opField, formatR, BitVec.getLsbD_extractLsb', BitVec.getLsbD_append]
  simp [hi]

theorem regField_formatR (op reg : BitVec 8) (imm : BitVec 16) : regField (formatR op reg imm) = reg := by
  apply BitVec.eq_of_getLsbD_eq
  intro i hi
  simp only [regField, formatR, BitVec.getLsbD_extractLsb', BitVec.getLsbD_append]
  simp [hi]
  intro h; omega

theorem immField_formatR (op reg : BitVec 8) (imm : BitVec 16) : immField (formatR op reg imm) = imm := by
  apply BitVec.eq_of_getLsbD_eq
  intro i hi
  simp only [immField, formatR, BitVec.getLsbD_extractLsb', BitVec.getLsbD_append]
  simp [hi]
  intro h; omega

/-- The index of a writable register names it. -/
theorem WReg.ofIndex_index (r : WReg) : WReg.ofIndex? r.index.toNat = some r := by cases r <;> rfl

end Sys2Proof

namespace Sys2Proof.Laws.EncodedOp

/-- The `op` byte of a command's word is the command's (R100, R102). -/
def Statement (i : Instr) : Prop := opField (encode i) = i.op

theorem nop : Statement .nop := opField_formatC _ _

theorem halt : Statement .halt := opField_formatC _ _

theorem setr (reg : WReg) (imm : BitVec 16) : Statement (.setr reg imm) := opField_formatR _ _ _

theorem frow (node : BitVec 8) : Statement (.frow node) := opField_formatC _ _

theorem fcol (node : BitVec 8) : Statement (.fcol node) := opField_formatC _ _

theorem icol (node : BitVec 8) : Statement (.icol node) := opField_formatC _ _

theorem irow (node : BitVec 8) : Statement (.irow node) := opField_formatC _ _

theorem decomp : Statement .decomp := opField_formatC _ _

theorem recon : Statement .recon := opField_formatC _ _

theorem bsinit : Statement .bsinit := opField_formatC _ _

theorem hbuild (id : BitVec 8) : Statement (.hbuild id) := opField_formatC _ _

theorem hsel (id : BitVec 8) : Statement (.hsel id) := opField_formatC _ _

theorem hdec : Statement .hdec := opField_formatC _ _

theorem getb (n : BitVec 8) : Statement (.getb n) := opField_formatC _ _

end Sys2Proof.Laws.EncodedOp
end

