-- ==== Sys2Proof/Tests/Slice0.lean ====
section
/-! SUPPORT. The model's own tests, with expected results from `95_test_vectors.md` or worked by hand from the
rules, and for every obligation with hypotheses a witness that meets them. -/

namespace Sys2Proof.Tests

open Sys2Proof.Machine

/-! ## Well-formedness: each check refuses its ill-formed term (R103 (d) to (f)) -/

theorem test_node_twenty_is_ill_formed :
    (Instr.frow 20).wellFormed = false ∧ (Instr.fcol 20).wellFormed = false ∧
    (Instr.icol 20).wellFormed = false ∧ (Instr.irow 255).wellFormed = false := by decide

theorem test_table_eight_is_ill_formed :
    (Instr.hbuild 8).wellFormed = false ∧ (Instr.hsel 8).wellFormed = false := by decide

theorem test_count_zero_is_ill_formed : (Instr.getb 0).wellFormed = false := by decide

theorem test_count_seventeen_is_ill_formed : (Instr.getb 17).wellFormed = false := by decide

theorem test_boundary_operands_are_well_formed :
    (Instr.frow 19).wellFormed = true ∧ (Instr.hsel 7).wellFormed = true ∧
    (Instr.getb 1).wellFormed = true ∧ (Instr.getb 16).wellFormed = true := by decide

/-! ## Decode: every command's word, from vector E1 and the examples of R105 -/

theorem test_decode_nop : decode 0x00000000#32 = .ok .nop := by decide
theorem test_decode_halt : decode 0x01000000#32 = .ok .halt := by decide
theorem test_decode_setr_lsz : decode 0x020A0005#32 = .ok (.setr .lsz 5) := by decide
theorem test_decode_setr_nnodes : decode 0x0207FFFF#32 = .ok (.setr .nnodes 0xFFFF) := by decide
theorem test_decode_frow : decode 0x10000013#32 = .ok (.frow 19) := by decide
theorem test_decode_fcol : decode 0x11000000#32 = .ok (.fcol 0) := by decide
theorem test_decode_icol : decode 0x12000003#32 = .ok (.icol 3) := by decide
theorem test_decode_irow : decode 0x13000003#32 = .ok (.irow 3) := by decide
theorem test_decode_decomp : decode 0x14000000#32 = .ok .decomp := by decide
theorem test_decode_recon : decode 0x15000000#32 = .ok .recon := by decide
theorem test_decode_bsinit : decode 0x20000000#32 = .ok .bsinit := by decide
theorem test_decode_hbuild : decode 0x21000007#32 = .ok (.hbuild 7) := by decide
theorem test_decode_hsel : decode 0x22000000#32 = .ok (.hsel 0) := by decide
theorem test_decode_hdec : decode 0x23000000#32 = .ok .hdec := by decide
theorem test_decode_getb :
    decode 0x24000001#32 = .ok (.getb 1) ∧ decode 0x24000010#32 = .ok (.getb 16) := by decide

/-- `SETR` of the other eight writable registers, the indexes of R24 (vectors E3, S4, S6). -/
theorem test_decode_setr_registers :
    decode 0x02060007#32 = .ok (.setr .cpstart 7) ∧ decode 0x02080008#32 = .ok (.setr .width 8) ∧
    decode 0x02090008#32 = .ok (.setr .height 8) ∧ decode 0x020B0007#32 = .ok (.setr .hsz 7) ∧
    decode 0x020C0000#32 = .ok (.setr .bsptr 0) ∧ decode 0x020D0006#32 = .ok (.setr .bsend 6) ∧
    decode 0x02111234#32 = .ok (.setr .hdef 0x1234) ∧ decode 0x02170000#32 = .ok (.setr .resptr 0) := by decide

/-- Vector E2: the illegal words and why. -/
theorem test_illegal_words :
    decode 0xFF000000#32 = .error .unknownOp ∧ decode 0xFFFFFFFF#32 = .error .unknownOp ∧
    decode 0x03000000#32 = .error .unknownOp ∧ decode 0x16000000#32 = .error .unknownOp ∧
    decode 0x25000000#32 = .error .unknownOp ∧ decode 0x30000000#32 = .error .unknownOp ∧
    decode 0x00000001#32 = .error .argNotZero ∧ decode 0x01000001#32 = .error .argNotZero ∧
    decode 0x14000001#32 = .error .argNotZero ∧
    decode 0x10000100#32 = .error .zeroField ∧ decode 0x10010000#32 = .error .zeroField ∧
    decode 0x10000014#32 = .error .nodeRange ∧ decode 0x21000008#32 = .error .tableRange ∧
    decode 0x24000000#32 = .error .countRange ∧ decode 0x24000011#32 = .error .countRange ∧
    decode 0x02020001#32 = .error .regNotWritable ∧ decode 0x02010001#32 = .error .regNotWritable ∧
    decode 0x021200FF#32 = .error .regNotWritable ∧ decode 0x02180000#32 = .error .regNotWritable ∧
    decode 0x02050000#32 = .error .regNotWritable := by decide

/-- Vector E3. -/
theorem test_pseudo_commands :
    (Pseudo.dnode 2).expand.map encode = [0x10000002#32, 0x11000002#32] ∧
    (Pseudo.rnode 2).expand.map encode = [0x12000002#32, 0x13000002#32] ∧
    (Pseudo.setgeom 8 8).expand.map encode = [0x02080008#32, 0x02090008#32] ∧
    (Pseudo.settaps 9 7).expand.map encode = [0x020A0009#32, 0x020B0007#32] ∧
    (Pseudo.bswin 0 6).expand.map encode = [0x020C0000#32, 0x020D0006#32, 0x20000000#32] := by decide

/-- The host's question on rows of the table. -/
theorem test_table_words :
    decodeTableWord 32 0x14000000 = some .decomp ∧ decodeTableWord 32 0x24000000 = none := by decide

/-! ## States for the one-step tests -/

def small : Params := { planeWords := 64, cmdWords := 16, bsBytes := 8, resWords := 4 }

def idle : State := State.resetWith small

def running : State := { idle with regs.state := .run }

/-- A run whose host events are these. -/
def waiting (r : RunState) (events : List HostEvent) : State := { idle with regs.state := r, pending := events }

/-- What a step or a command leads to; the state itself where it stops. -/
def after (s : State) (o : Host.Outcome State Fault Refusal) : State :=
  match o with
  | .next t => t
  | .fault _ => s
  | .refused _ => s

/-- The tree with one node: a 2 by 2 region at the origin. -/
def oneNode : Memory 16 := [(0, 0), (1, 0), (2, 2), (3, 2), (4, 0), (5, 0)]

/-- The 2/2 forward bank of section 4 of the vectors on a plane 4 wide and 2 high, rows 3 7 and 1 8. -/
def forward22 : State :=
  { running with
    regs.lsz := 2, regs.hsz := 2, regs.width := 4, regs.height := 2, regs.nnodes := 1
    tree := oneNode
    lotap := [(0, 0x3F000000#32), (1, 0x3F000000#32)]
    hitap := [(0, 0x3F800000#32), (1, 0xBF800000#32)]
    plane := [(0, 0x40400000#32), (1, 0x40E00000#32), (4, 0x3F800000#32), (5, 0x41000000#32)]
    scr := [(0, 0x40A00000#32), (1, 0x40800000#32), (4, 0x40900000#32), (5, 0x40E00000#32)] }

/-- The 2/2 inverse bank, with the planes that the forward pass leaves. -/
def inverse22 : State :=
  { forward22 with
    lotap := [(0, 0x3F800000#32), (1, 0x3F800000#32)]
    hitap := [(0, 0xBF000000#32), (1, 0x3F000000#32)]
    plane := [(0, 0x40980000#32), (1, 0x40B00000#32), (4, 0xBF000000#32), (5, 0x40400000#32)] }

/-- Table `t` with counts 0 2 1 3 and the symbols 0x0A to 0x0F, as in program P3. -/
def tableState (t : Nat) : State :=
  { running with
    regs.hdef := BitVec.ofNat 8 (2 ^ t), regs.bsend := 2
    hbits := ((List.range 16).map (t * 16 + ·)).zip [0, 2, 1, 3, 0, 0, 0, 0, 0, 0, 0, 0, 0, 0, 0, 0]
    hval := ((List.range 6).map (t * 256 + ·)).zip [0x0A, 0x0B, 0x0C, 0x0D, 0x0E, 0x0F]
    bs := [(0, 0xA5#8), (1, 0xFF#8), (2, 0xD9#8)] }

/-- The table built and selected: the next bits are 1010 0101 and a marker. -/
def builtState (t : Nat) : State :=
  { after idle (exec (.hbuild (BitVec.ofNat 8 t)) (tableState t)) with
    regs.hselId := BitVec.ofNat 3 t, regs.hselValid := true, regs.bsend := 3 }

/-! ## The sequencer and the host port -/

/-- S1: what the host reads after a reset. -/
theorem test_reset_registers :
    (after idle (step (waiting .idle [.read 0 0]))).hostData = 0x5751 ∧
    (after idle (step (waiting .idle [.read 0 7]))).hostData = 0x14 := by decide

/-- S3: `NOP` advances `CP`. -/
theorem test_nop_advances : (after idle (exec .nop running)).regs.cp = 1 := by decide

/-- S2: `HALT` gives `STATUS` 0x0002 and keeps `CP`. -/
theorem test_halt_status :
    (after idle (exec .halt running)).regs.statusWord = 0x0002 ∧ (after idle (exec .halt running)).regs.cp = 0 := by
  decide

/-- S6: `SETR LSZ, 0xFFFF` stores 0x1F. -/
theorem test_setr_masks : (after idle (exec (.setr .lsz 0xFFFF) running)).regs.lsz = 0x1F := by decide

/-- S6: `SETR HDEF, 0x1234` stores 0x34 and masks `HBUILT`. -/
theorem test_setr_hdef_unbuilds :
    (after idle (exec (.setr .hdef 0x1234) { running with regs.hbuilt := 0xFF })).regs.hbuilt = 0x34 ∧
    (after idle (exec (.setr .hdef 0x1234) { running with regs.hbuilt := 0xFF })).regs.hdef = 0x34 := by decide

/-- F1: an illegal word is `E_ILLEGAL` with `ERRINFO` its high half, `CP` at the word. -/
theorem test_illegal_fault :
    let t := after idle (step { running with cmd := [(0, 0xFF000000#32)] })
    t.regs.statusWord = 0x0003 ∧ t.regs.err = 1 ∧ t.regs.errinfo = 0xFF00 ∧ t.regs.cp = 0 := by decide

/-- S5 with 16 command words: the fetch past the end. -/
theorem test_fetch_past_the_end :
    let t := after idle (step { running with regs.cp := 16 })
    t.regs.err = 2 ∧ t.regs.errinfo = 0x0010 ∧ t.regs.cp = 0x0010 := by decide

/-- S7: `CTRL` 0x0003 in `FAULT` resets and does not start. -/
theorem test_reset_wins_over_start :
    let t := after idle (step { waiting .fault [.write 0 1 3#32] with regs.err := 1 })
    t.regs.statusWord = 0 ∧ t.regs.err = 0 ∧ t.regs.nnodes = 20 := by decide

/-- S8: a write of `STATUS` is refused; a flag cell of the tree stores bit 0. -/
theorem test_host_writes :
    (after idle (step (waiting .idle [.write 0 2 1#32]))).regs.statusWord = 0x0040 ∧
    (after idle (step (waiting .idle [.write 5 12 0xFFFF#32]))).tree = [(12, 1#16)] ∧
    (after idle (step (waiting .idle [.write 5 14 1#32]))).regs.hosterr = false := by decide

/-- H1 through the host port: table 0 built, `MINCODE[0][4]` reads 10, `VALPTR[0][4]` reads 3, array 3 reads 0. -/
theorem test_host_reads_derived :
    let host (i : Nat) := (after idle (step { builtState 0 with regs.state := .halted, pending := [.read 10 i] })).hostData
    host 3 = 10 ∧ host 35 = 3 ∧ host 51 = 0 := by decide +kernel

/-- The host places a table word and the next step runs it. -/
theorem test_with_fetch_word :
    (after idle (step (State.reset.withFetchWord 32 0x01000000))).regs.state = .halted ∧
    (after idle (step (State.reset.withFetchWord 32 0x00000000))).regs.cp = 1 := by decide

/-! ## Filters -/

/-- A1: the 5/3 forward bank on an even line. -/
theorem test_ana_line_five_three :
    anaLine
      { lo := [0xBE000000#32, 0x3E800000#32, 0x3F400000#32, 0x3E800000#32, 0xBE000000#32]
        hi := [0xBF000000#32, 0x3F800000#32, 0xBF000000#32] }
      [0x40400000#32, 0x40E00000#32, 0x3F800000#32, 0x41000000#32,
       0x40000000#32, 0x41100000#32, 0x40800000#32, 0x40C00000#32] =
    ([0x40B00000#32, 0x40780000#32, 0x40A40000#32, 0x40C00000#32],
     [0x40A00000#32, 0x40D00000#32, 0x40C00000#32, 0x40000000#32]) := by decide +kernel

/-- A3: the 2/2 inverse bank on a line of 5, whose last output meets the zero sample of type Z. -/
theorem test_syn_line_two_two :
    synLine { lo := [0x3F800000#32, 0x3F800000#32], hi := [0xBF000000#32, 0x3F000000#32] } 5
      ([0x40A00000#32, 0x40900000#32, 0x40000000#32], [0x40800000#32, 0x40E00000#32]) =
    [0x40400000#32, 0x40E00000#32, 0x3F800000#32, 0x41000000#32, 0x40000000#32] := by decide +kernel

/-- A2: 5/3 accepts 3 and refuses 2, in both directions. -/
theorem test_acceptance :
    anaOk 5 3 2 = false ∧ synOk 3 5 2 = false ∧ anaOk 5 3 3 = true ∧ synOk 3 5 3 = true := by decide

/-- R145 by hand: rows 3 7 and 1 8 give 5 4 and 4.5 7. -/
theorem test_frow : (after idle (exec (.frow 0) forward22)).scr =
    [(0, 0x40A00000#32), (1, 0x40800000#32), (4, 0x40900000#32), (5, 0x40E00000#32)] := by decide +kernel

/-- `LSZ = 1` is `E_CFG(1)` (R140; F8a with 1 for 0). -/
theorem test_frow_bad_taps :
    let t := after idle (exec (.frow 0) { forward22 with regs.lsz := 1 })
    t.regs.err = 3 ∧ t.regs.errinfo = 1 ∧ t.scr = forward22.scr := by decide

/-- R145 by hand: columns 5 4.5 and 4 7 give 4.75 -0.5 and 5.5 3. -/
theorem test_fcol : (after idle (exec (.fcol 0) forward22)).plane =
    [(0, 0x40980000#32), (1, 0x40B00000#32), (4, 0xBF000000#32), (5, 0x40400000#32)] := by decide +kernel

/-- With `inv_cl` set the highpass half comes first (R146). -/
theorem test_fcol_inverted :
    (after idle (exec (.fcol 0) { forward22 with tree := oneNode.store 5 1 })).plane =
      [(0, 0xBF000000#32), (1, 0x40400000#32), (4, 0x40980000#32), (5, 0x40B00000#32)] := by decide +kernel

/-- The inverse of the column pass (R175). -/
theorem test_icol : (after idle (exec (.icol 0) { inverse22 with scr := [] })).scr = forward22.scr := by
  decide +kernel

/-- A node past the plane is `E_GEOM` with its number (R141). -/
theorem test_icol_outside :
    let t := after idle (exec (.icol 0) { inverse22 with tree := oneNode.store 0 3 })
    t.regs.err = 4 ∧ t.regs.errinfo = 0 := by decide

/-- The inverse of the row pass (R175). -/
theorem test_irow : (after idle (exec (.irow 0) inverse22)).plane = forward22.plane := by decide +kernel

theorem test_decomp : (after idle (exec .decomp forward22)).plane = inverse22.plane ∧
    (after idle (exec .decomp forward22)).regs.cp = 1 := by decide +kernel

/-- `NNODES > 20` is `E_CFG(6)` (R31). -/
theorem test_decomp_nnodes :
    let t := after idle (exec .decomp { forward22 with regs.nnodes := 21 })
    t.regs.err = 3 ∧ t.regs.errinfo = 6 := by decide

theorem test_recon : (after idle (exec .recon inverse22)).plane = forward22.plane ∧
    (after idle (exec .recon inverse22)).regs.cp = 1 := by decide +kernel

theorem test_recon_empty_tree : after idle (exec .recon { inverse22 with regs.nnodes := 0 }) =
    { inverse22 with regs.nnodes := 0, regs.cp := 1 } := by decide

/-! ## Floats: results worked from R11 -/

/-- A tie goes to the even neighbour: `1 + 2^-24 = 1`, `(1 + 2^-23) + 2^-24 = 1 + 2^-22`. -/
theorem test_fadd_ties_to_even :
    fadd 0x3F800000#32 0x33800000#32 = 0x3F800000#32 ∧ fadd 0x3F800001#32 0x33800000#32 = 0x3F800002#32 := by
  decide +kernel

/-- Overflow, gradual underflow, and the signs of zero sums. -/
theorem test_float_corners :
    fmul 0x7F7FFFFF#32 0xC0000000#32 = 0xFF800000#32 ∧ fmul 0x00800000#32 0x3F000000#32 = 0x00400000#32 ∧
    fmul 0x00000001#32 0x3F000000#32 = 0x00000000#32 ∧ fadd 0x3F800000#32 0xBF800000#32 = 0x00000000#32 ∧
    fadd 0x80000000#32 0x80000000#32 = 0x80000000#32 := by decide +kernel

/-! ## The bit reader and the Huffman decoder -/

/-- R220. -/
theorem test_bsinit :
    let t := after idle (exec .bsinit { running with
      regs.bitcnt := 5, regs.bitbuf := 0xA5, regs.marker := 0xFFD9, regs.mkf := true })
    t.regs.bitcnt = 0 ∧ t.regs.bitbuf = 0 ∧ t.regs.marker = 0 ∧ t.regs.mkf = false := by decide

/-- P3's table by hand: codes 00 01 100 1010 1011 1100 (R221). -/
theorem test_hbuild :
    let t := after idle (exec (.hbuild 0) (tableState 0))
    (t.mincodeAt 0 2, t.maxcodeAt 0 2, t.valptrAt 0 2) = (0, 1, 0) ∧
    (t.mincodeAt 0 3, t.maxcodeAt 0 3, t.valptrAt 0 3) = (4, 4, 2) ∧
    (t.mincodeAt 0 4, t.maxcodeAt 0 4, t.valptrAt 0 4) = (10, 12, 3) ∧
    (t.mincodeAt 0 5, t.maxcodeAt 0 5) = (0, 0xFFFF) ∧ t.regs.hbuilt = 1 ∧ t.regs.warn = false := by
  decide +kernel

/-- Three codes of length 1 are no code: `E_HTABLE(t)` (R221). -/
theorem test_hbuild_too_many_codes :
    let t := after idle (exec (.hbuild 0) { tableState 0 with hbits := (tableState 0).hbits.store 0 3 })
    t.regs.err = 7 ∧ t.regs.errinfo = 0 ∧ t.regs.hbuilt = 0 := by decide +kernel

theorem test_hsel :
    (after idle (exec (.hsel 3) { running with regs.hbuilt := 0x08 })).regs.hselrWord = 0x0103 := by decide

theorem test_hsel_unbuilt :
    let t := after idle (exec (.hsel 3) { running with regs.hbuilt := 0xF7 })
    t.regs.err = 6 ∧ t.regs.errinfo = 3 := by decide

/-- The bits 1010 are the fourth code: symbol 0x0D (R223). -/
theorem test_hdec :
    let t := after idle (exec .hdec (builtState 0))
    t.regs.sym = 0x0D ∧ t.res = [(0, 0x000D#16)] ∧ t.regs.bitcnt = 4 ∧ t.regs.symv = true := by decide +kernel

/-- F10c: no table selected is `E_UNDEF` with `ERRINFO` 0xFFFF. -/
theorem test_hdec_unselected :
    let t := after idle (exec .hdec running)
    t.regs.err = 6 ∧ t.regs.errinfo = 0xFFFF := by decide

/-- The next 8 bits of A5 FF D9 are A5; the ninth meets the marker FFD9 (R210, R224). -/
theorem test_getb :
    let t := after idle (exec (.getb 8) (builtState 0))
    t.regs.bits = 0x00A5 ∧ t.regs.resptr = 1 ∧ t.regs.bitv = true := by decide +kernel

theorem test_getb_marker :
    let t := after idle (exec (.getb 9) (builtState 0))
    t.regs.marker = 0xFFD9 ∧ t.regs.mkf = true ∧ t.regs.bitv = false ∧ t.regs.resptr = 0 ∧ t.regs.cp = 2 := by
  decide +kernel

/-! ## Witnesses: states that meet the hypotheses of the obligations, each clause at a boundary of its range -/

theorem witness_DecodeOfEncode : (Instr.frow 19).wellFormed = true ∧ (Instr.getb 16).wellFormed = true := by decide

theorem witness_LegalWord : decode 0x24000010#32 = .ok (.getb 16) := by decide

/-- Each of the seven cases, at the first value past the legal range. -/
theorem witness_IllegalWords :
    let s := { running with regs.cp := 15, cmd := [(15, 0x10000014#32)] }
    s.pending = [] ∧ s.regs.state = .run ∧ s.regs.cp.toNat < s.params.cmdWords ∧
    decode (s.cmdAt s.regs.cp.toNat) = .error .nodeRange := by decide

theorem witness_StepExecutes :
    let s := { waiting .run [.engineTurn] with regs.cp := 15, cmd := [(15, 0x10000013#32)] }
    s.regs.state = .run ∧ s.regs.cp.toNat < s.params.cmdWords ∧
    decode (s.cmdAt s.regs.cp.toNat) = .ok (.frow 19) ∧ s.pending = .engineTurn :: [] ∧
    ({ s with pending := [] } : State).pending = [] := by decide

theorem witness_FetchPastTheEnd :
    let s := { running with regs.cp := 16 }
    let u := { waiting .halted [.write 0 1 1#32] with regs.cpstart := 16 }
    s.pending = [] ∧ s.regs.state = .run ∧ s.params.cmdWords ≤ s.regs.cp.toNat ∧
    u.pending = [.write 0 1 1#32] ∧ (u.regs.state = .idle ∨ u.regs.state = .halted) ∧
    u.params.cmdWords ≤ u.regs.cpstart.toNat := by decide

theorem witness_SequencerRests :
    idle.regs.state ≠ .run ∧ idle.pending = [] ∧ (waiting .fault [.engineTurn]).regs.state ≠ .run ∧
    (waiting .fault [.engineTurn]).pending = .engineTurn :: [] := by decide

theorem witness_EveryRunEnds :
    let s := { running with regs.cp := 15 }
    s.params.legal = true ∧ s.regs.state = .run ∧ s.pending = [] := by decide

theorem witness_StartBegins :
    (1#32).getLsbD 0 = true ∧ (1#32).getLsbD 1 = false ∧
    (waiting .idle [.write 0 1 1#32]).regs.state = .idle ∧ (waiting .halted [.write 0 1 1#32]).regs.state = .halted ∧
    (waiting .fault [.write 0 1 1#32]).regs.state = .fault ∧ (waiting .run [.write 0 1 1#32]).regs.state = .run ∧
    (waiting .run [.write 0 1 1#32]).pending = .write 0 1 1#32 :: [] := by decide

/-- An erased `CMD` of one word. -/
theorem witness_NopOnlyAdvances :
    let s := { State.resetWith { small with cmdWords := 1 } with regs.state := .run, cmd := [(0, 0#32)] }
    (0x00000001#32).toNat / 2 ^ 24 = 0 ∧ s.params.legal = true ∧ s.regs.state = .run ∧ s.pending = [] ∧
    (∀ i < s.params.cmdWords, s.cmdAt i = 0x00000000#32) := by decide

/-- For each `op` with an operand, a word at the last legal argument and one past it. -/
theorem witness_opDecodesTo :
    (0x10000013#32).toNat / 2 ^ 24 = 0x10 ∧ (0x10000013#32).toNat % 2 ^ 24 = 19 ∧ (0x10000014#32).toNat % 2 ^ 24 = 20 ∧
    (0x22000007#32).toNat / 2 ^ 24 = 0x22 ∧ (0x22000008#32).toNat % 2 ^ 24 = 8 ∧
    (0x24000000#32).toNat / 2 ^ 24 = 0x24 ∧ (0x24000011#32).toNat % 2 ^ 24 = 17 := by decide

theorem witness_HaltEnds :
    running.regs.consistent = true ∧ running.regs.state = .run ∧
    exec .halt running = .next { running with regs.state := .halted } := ⟨by decide, rfl, rfl⟩

/-- The command in a run, the host's write in each other value of `STATE`. -/
theorem witness_SetrEquals :
    running.regs.state = .run ∧ RunState.idle ≠ .run ∧ RunState.halted ≠ .run ∧ RunState.fault ≠ .run := by decide

/-- `HSEL 7` of a table not built; a forward pass with no taps; a whole tree of 21 nodes. -/
theorem witness_Faults :
    let s := { running with regs.nnodes := 21 }
    (Instr.hsel 7).wellFormed = true ∧ s.regs.state = .run ∧
    (after idle (exec (.hsel 7) s)).regs.state = .fault ∧ (after idle (exec (.hsel 7) s)).regs.err = 6 ∧
    singlePass (.frow 19) = true ∧
    (after idle (exec (.frow 19) s)).regs.state = .fault ∧ (after idle (exec (.frow 19) s)).regs.err = 3 ∧
    (after idle (exec .recon s)).regs.state = .fault ∧ (after idle (exec .recon s)).regs.err = 3 ∧
    (after idle (exec .recon s)).regs.errinfo = 6 := by decide

theorem witness_FaultIsLeftOnlyByReset :
    let s := waiting .fault [.write 0 1 1#32]
    s.regs.state = .fault ∧ s.pending = .write 0 1 1#32 :: [] ∧ (1#32).getLsbD 1 = false ∧
    step s = .next { s with pending := [] } := ⟨rfl, rfl, by decide, rfl⟩

theorem witness_CommandsKeep : exec .nop running = .next { running with regs.cp := 1 } := rfl

/-- The window's two ends for each type of end: `W`, `H` and `Z` on three samples. -/
theorem witness_Extension :
    windowLo 3 ⟨.W, .W, false⟩ = -2 ∧ windowHi 3 ⟨.W, .W, false⟩ = 4 ∧
    windowLo 3 ⟨.H, .H, true⟩ = -3 ∧ windowHi 3 ⟨.H, .H, true⟩ = 5 ∧ windowHi 3 ⟨.H, .Z, true⟩ = 6 := by decide

theorem witness_AnaOk : (2 ≤ 5 ∧ 5 ≤ 16 ∧ 2 ≤ 3 ∧ 3 ≤ 16 ∧ 5 % 2 = 3 % 2) ∧ anaOk 5 3 3 = true ∧ anaOk 16 2 8 = true ∧
    anaOk 16 2 7 = false := by decide

theorem witness_SynOk : (2 ≤ 3 ∧ 3 ≤ 16 ∧ 2 ≤ 5 ∧ 5 ≤ 16 ∧ 3 % 2 = 5 % 2) ∧ synOk 3 5 3 = true ∧ synOk 3 5 2 = false := by
  decide

theorem witness_Acceptance : (2 ≤ 16 ∧ 16 ≤ 16 ∧ 16 % 2 = 2 % 2) ∧ 8 ≤ 9 ∧ anaOk 16 2 8 = true ∧ synOk 2 16 8 = true := by
  decide

theorem witness_ConstantLine :
    let b : Bank := { lo := List.replicate 5 0x3F800000#32, hi := List.replicate 3 0x3F800000#32 }
    2 ≤ b.lo.length ∧ b.lo.length ≤ 16 ∧ 2 ≤ b.hi.length ∧ b.hi.length ≤ 16 ∧
    b.lo.length % 2 = b.hi.length % 2 ∧ anaOk b.lo.length b.hi.length 3 = true := by decide

/-- The one-node state is accepted by all four passes, on the shortest lines there are. -/
theorem witness_Passes :
    (0#8).toNat ≤ 19 ∧ forward22.bankLegal ∧ forward22.nodeInside 0 ∧ forward22.anaAccepts (forward22.node 0).lx ∧
    forward22.anaAccepts (forward22.node 0).ly ∧ inverse22.bankLegal ∧ inverse22.nodeInside 0 ∧
    inverse22.synAccepts (inverse22.node 0).lx ∧ inverse22.synAccepts (inverse22.node 0).ly := by
  unfold State.bankLegal State.nodeInside State.anaAccepts State.synAccepts
  decide

/-- Every line of `filterFault` is reached, each at the first refused value. -/
theorem witness_PassesRefuse :
    { forward22 with regs.lsz := 1 }.filterFault 0 true = some (3, 1) ∧
    { forward22 with regs.hsz := 17 }.filterFault 0 true = some (3, 2) ∧
    { forward22 with regs.hsz := 3 }.filterFault 0 true = some (3, 3) ∧
    { forward22 with regs.height := 0 }.filterFault 0 true = some (3, 4) ∧
    { forward22 with regs.height := 17 }.filterFault 0 true = some (3, 5) ∧
    { forward22 with tree := oneNode.store 2 0 }.filterFault 0 true = some (4, 0) ∧
    { forward22 with tree := oneNode.store 0 3 }.filterFault 0 true = some (4, 0) ∧
    { forward22 with tree := oneNode.store 1 1 }.filterFault 0 true = some (4, 0) ∧
    { forward22 with tree := oneNode.store 2 1 }.filterFault 0 (anaOk 2 2 1) = some (4, 0) := by decide

/-- Twenty nodes, all of them the 2 by 2 region. -/
def fullTree : Memory 16 :=
  (List.range 20).flatMap fun n => oneNode.map fun c => (n * 8 + c.1, c.2)

theorem witness_WholeTree :
    let s := { forward22 with regs.nnodes := 20, tree := fullTree }
    let r := { inverse22 with regs.nnodes := 20, tree := fullTree }
    s.regs.state = .run ∧ s.regs.nnodes.toNat ≤ 20 ∧ s.bankLegal ∧
    (∀ n < s.regs.nnodes.toNat, s.nodeInside n ∧ s.anaAccepts (s.node n).lx ∧ s.anaAccepts (s.node n).ly) ∧
    r.regs.state = .run ∧ r.regs.nnodes.toNat ≤ 20 ∧ r.bankLegal ∧
    (∀ n < r.regs.nnodes.toNat, r.nodeInside n ∧ r.synAccepts (r.node n).lx ∧ r.synAccepts (r.node n).ly) := by
  unfold State.bankLegal State.nodeInside State.anaAccepts State.synAccepts
  decide +kernel

/-- Node 19, the last, is a single row. -/
theorem witness_DecompStops :
    let s := { forward22 with regs.nnodes := 20, tree := fullTree.store (19 * 8 + 3) 1 }
    s.regs.state = .run ∧ s.regs.nnodes.toNat ≤ 20 ∧ 19 < s.regs.nnodes.toNat ∧ s.bankLegal ∧
    (∀ n < 19, s.nodeInside n ∧ s.anaAccepts (s.node n).lx ∧ s.anaAccepts (s.node n).ly) ∧
    ¬ (s.nodeInside 19 ∧ s.anaAccepts (s.node 19).lx ∧ s.anaAccepts (s.node 19).ly) := by
  unfold State.bankLegal State.nodeInside State.anaAccepts
  decide +kernel

/-- The first refused node in descending order: node 0, the last of twenty to be visited; and node 19, the first. -/
theorem witness_ReconStops :
    let s := { inverse22 with regs.nnodes := 20, tree := fullTree.store 3 1 }
    let r := { inverse22 with regs.nnodes := 20, tree := fullTree.store (19 * 8 + 3) 1 }
    s.regs.state = .run ∧ s.regs.nnodes.toNat = 20 ∧ s.bankLegal ∧
    (∀ n < 20, 0 < n → s.nodeInside n ∧ s.synAccepts (s.node n).lx ∧ s.synAccepts (s.node n).ly) ∧
    ¬ (s.nodeInside 0 ∧ s.synAccepts (s.node 0).lx ∧ s.synAccepts (s.node 0).ly) ∧
    r.regs.state = .run ∧ r.regs.nnodes.toNat = 20 ∧ r.bankLegal ∧
    ¬ (r.nodeInside 19 ∧ r.synAccepts (r.node 19).lx ∧ r.synAccepts (r.node 19).ly) := by
  unfold State.bankLegal State.nodeInside State.synAccepts
  decide +kernel

theorem witness_CheckNnodes :
    let s := { running with regs.nnodes := 20 }
    { running with regs.nnodes := 21 }.regs.nnodes.toNat > 20 ∧
    { running with regs.nnodes := 0 }.regs.nnodes.toNat = 0 ∧
    1 ≤ s.regs.nnodes.toNat ∧ s.regs.nnodes.toNat ≤ 20 ∧ ¬ s.bankLegal ∧
    ¬ ({ running with regs.nnodes := 1 } : State).bankLegal := by
  unfold State.bankLegal
  decide

/-- The plane changed outside the node's region only. -/
theorem witness_FrowReadsOnly :
    (0#8).toNat ≤ 19 ∧
    ∀ i, forward22.inRegion 0 i →
      State.planeAt { forward22 with plane := forward22.plane.store 2 0x3F800000#32 } i = forward22.planeAt i := by
  refine ⟨by decide, ?_⟩
  rintro i ⟨m, hm, j, hj, rfl⟩
  have h2 : (forward22.node 0).ly = 2 ∧ (forward22.node 0).lx = 2 := by decide
  rw [h2.1] at hm
  rw [h2.2] at hj
  interval_cases m <;> interval_cases j <;> decide

theorem witness_FrowDrawFree :
    (0#8).toNat ≤ 19 ∧ (∀ f < 6, (forward22.tree.lookup (0 * 8 + f)).isSome = true) ∧
    (∀ i < forward22.regs.lsz.toNat, (forward22.lotap.lookup i).isSome = true) ∧
    (∀ i < forward22.regs.hsz.toNat, (forward22.hitap.lookup i).isSome = true) ∧
    (∀ i, forward22.inRegion 0 i → (forward22.plane.lookup i).isSome = true) ∧
    ∃ t, exec (.frow 0) forward22 = .next t := by
  refine ⟨by decide, by decide, by decide, by decide, ?_, ⟨_, rfl⟩⟩
  rintro i ⟨m, hm, j, hj, rfl⟩
  have h2 : (forward22.node 0).ly = 2 ∧ (forward22.node 0).lx = 2 := by decide
  rw [h2.1] at hm
  rw [h2.2] at hj
  interval_cases m <;> interval_cases j <;> decide

/-- The cases of `NextBit`: bits left; no byte at `BSEND` and none at `BS_BYTES`; a data byte; an all-ones byte
that is the last, is stuffed, or begins a marker. -/
theorem witness_NextBit :
    let s := tableState 0
    { s with regs.bitcnt := 1 }.regs.bitcnt ≠ 0 ∧ s.regs.bitcnt = 0 ∧
    ¬ ({ s with regs.bsptr := 2 }.regs.bsptr.toNat < s.regs.bsend.toNat) ∧
    ¬ ({ s with regs.bsptr := 8 }.regs.bsptr.toNat < s.params.bsBytes) ∧
    s.regs.bsptr.toNat < s.regs.bsend.toNat ∧ s.regs.bsptr.toNat < s.params.bsBytes ∧ s.bsAt 0 ≠ 0xFF#8 ∧
    s.bsAt 1 = 0xFF#8 ∧ ¬ (1 + 1 < s.regs.bsend.toNat) ∧
    1 + 1 < { s with regs.bsend := 3 }.regs.bsend.toNat ∧ 1 + 1 < s.params.bsBytes ∧ s.bsAt 2 ≠ 0x00#8 ∧
    { s with bs := s.bs.store 2 0 }.bsAt 2 = 0x00#8 := by decide

/-- Table 7: not defined; defined with three codes of length 1; defined with a valid code. -/
theorem witness_Hbuild :
    (7#8).toNat ≤ 7 ∧ running.regs.hdef.getLsbD 7 = false ∧ (tableState 7).regs.hdef.getLsbD 7 = true ∧
    tableValid (State.count { tableState 7 with hbits := (tableState 7).hbits.store 112 3 } 7) = false ∧
    tableValid ((tableState 7).count 7) = true := by decide +kernel

theorem witness_Hsel :
    (7#8).toNat ≤ 7 ∧ { running with regs.hbuilt := 0x80 }.regs.hbuilt.getLsbD 7 = true ∧
    running.regs.hbuilt.getLsbD 7 = false := by decide

/-- After the four bits 1010 of `A5`. -/
def fourBitsRead : State :=
  { builtState 7 with regs.bsptr := 1, regs.bitbuf := 0xA5, regs.bitcnt := 4 }

/-- Table 7, and the bitstream goes on with 1010, the code of symbol 3. -/
theorem witness_HdecRecovers :
    let s := builtState 7
    7 = s.regs.hselId.toNat ∧ s.regs.hselValid = true ∧ s.regs.hbuilt.getLsbD 7 = true ∧
    tableValid (s.count 7) = true ∧ s.derivedExact 7 = true ∧ s.regs.mkf = false ∧
    s.regs.resptr.toNat < s.params.resWords ∧ 3 < countsUpTo (s.count 7) 16 ∧
    s.readBits (codeSize (s.count 7) 3) 0 = .value (codeOf (s.count 7) 3) fourBitsRead := by decide +kernel

theorem witness_HdecWithoutABit :
    let s := { running with regs.hselId := 7, regs.hselValid := true }
    running.regs.hselValid = false ∧ s.regs.hselValid = true ∧ s.regs.hbuilt.getLsbD s.regs.hselId.toNat = false ∧
    (builtState 7).regs.hbuilt.getLsbD 7 = true ∧ (builtState 7).regs.hselId.toNat = 7 ∧
    { builtState 7 with regs.mkf := true }.regs.mkf = true ∧ (builtState 7).regs.mkf = false ∧
    (builtState 7).params.resWords ≤ { builtState 7 with regs.resptr := 4 }.regs.resptr.toNat := by decide +kernel

/-- One table with the single code 0: sixteen ones match nothing; after eight ones the bitstream ends or a marker
stands there. -/
def oneCode (bytes : Memory 8) (bsend : Half) : State :=
  { builtState 7 with
    hbits := ((List.range 16).map (112 + ·)).zip [1, 0, 0, 0, 0, 0, 0, 0, 0, 0, 0, 0, 0, 0, 0, 0]
    hder := [(448, 0), (464, 0), (480, 0)]
    bs := bytes, regs.bsend := bsend }

theorem witness_HdecWithoutASymbol :
    let s := oneCode [(0, 0xFE#8), (1, 0xFF#8), (2, 0xD9#8)] 3
    let q := oneCode [(0, 0xFE#8)] 1
    let u := { s with regs.symv := false, regs.bsptr := 1, regs.bitbuf := 0xFE, regs.bitcnt := 0 }
    let v := { q with regs.symv := false, regs.bsptr := 1, regs.bitbuf := 0xFE, regs.bitcnt := 0 }
    7 = s.regs.hselId.toNat ∧ s.regs.hselValid = true ∧ s.regs.hbuilt.getLsbD 7 = true ∧ s.regs.mkf = false ∧
    s.regs.resptr.toNat < s.params.resWords ∧ State.readBits { s with regs.symv := false } 8 0 = .value 0xFE u ∧
    (∀ l < 9, 1 ≤ l → s.codeMatches 7 l (0xFE / 2 ^ (8 - l)) = false) ∧
    u.nextBit = .marker { u with regs.bsptr := 3, regs.mkf := true, regs.marker := 0xFFD9 } ∧
    State.readBits { q with regs.symv := false } 8 0 = .value 0xFE v ∧ v.nextBit = .bounds v 1 := by decide +kernel

theorem witness_HdecSixteenBits :
    let s := oneCode [(0, 0xFE#8), (1, 0xFE#8)] 2
    State.readBits { s with regs.symv := false } 16 0 =
      .value 0xFEFE { s with regs.symv := false, regs.bsptr := 2, regs.bitbuf := 0xFE, regs.bitcnt := 0 } ∧
    (∀ l < 17, 1 ≤ l → s.codeMatches 7 l (0xFEFE / 2 ^ (16 - l)) = false) := by decide +kernel

/-- `GETB`: stopped at a marker, `RES` full, and the three ends of a read. -/
theorem witness_Getb :
    let s := builtState 7
    let q := { s with regs.bsptr := 3 }
    1 ≤ (16#8).toNat ∧ (16#8).toNat ≤ 16 ∧
    { s with regs.mkf := true }.regs.mkf = true ∧ s.regs.mkf = false ∧
    s.params.resWords ≤ { s with regs.resptr := 4 }.regs.resptr.toNat ∧
    { s with regs.resptr := 3 }.regs.resptr.toNat < s.params.resWords ∧
    s.readBits 4 0 = .value 10 fourBitsRead ∧
    s.readBits 16 0 = .marker { s with
      regs.bsptr := 3, regs.bitbuf := 0xA5, regs.bitcnt := 0, regs.mkf := true, regs.marker := 0xFFD9 } ∧
    q.readBits 1 0 = .bounds q 3 := by decide +kernel

theorem witness_GetbAccumulator :
    let s := { running with regs.bitcnt := 8 }
    1 ≤ (8#8).toNat ∧ (8#8).toNat ≤ s.regs.bitcnt.toNat ∧ s.regs.bitcnt.toNat ≤ 8 ∧ s.regs.mkf = false ∧
    s.regs.resptr.toNat < s.params.resWords := by decide

theorem witness_PrefixFree :
    let n := (tableState 7).count 7
    tableValid n = true ∧ 2 < countsUpTo n 16 ∧ 5 < countsUpTo n 16 ∧ 2 ≠ 5 ∧ codeSize n 2 ≤ codeSize n 5 := by
  decide +kernel

theorem witness_LookupIndex :
    let s := builtState 7
    tableValid (s.count 7) = true ∧ s.derivedExact 7 = true ∧ s.codeMatches 7 4 12 = true := by decide +kernel

/-- A state with a built table and a command to run meets every invariant, and steps. -/
def readyToStep : State := { builtState 7 with cmd := [(1, 0x00000000#32)] }

theorem witness_Invariants :
    readyToStep.tablesExact ∧ readyToStep.memoriesLegal = true ∧ readyToStep.regs.consistent = true ∧
    readyToStep.regs.hbuilt = 0x80 ∧ ∃ t, step readyToStep = .next t := by
  refine ⟨?_, by decide +kernel, by decide +kernel, by decide +kernel, step_next _⟩
  unfold State.tablesExact
  decide +kernel

/-- A refused write of each kind: during a run, no such space, a read-only register, past the registers, `HDER`,
past a memory's end. -/
theorem witness_RefusedWrites :
    (waiting .run [.write 2 0 0#32]).regs.state = .run ∧ 11 ≤ 11 ∧
    0x16 ∈ [0x00, 0x02, 0x03, 0x04, 0x05, 0x0E, 0x0F, 0x10, 0x12, 0x13, 0x14, 0x15, 0x16] ∧ 0x18 ≤ 0x18 ∧
    47 % 64 < 48 ∧ spaceMem 2 = some .plane ∧ MemId.cells small .plane ≤ 64 ∧
    (waiting .idle [.read 2 64]).pending = .read 2 64 :: [] ∧ (waiting .run [.read 2 0]).regs.state = .run ∧
    (waiting .idle [.write 5 159 1#32]).regs.state ≠ .run ∧ 159 < 160 ∧ 6 ≤ 159 % 8 ∧
    (waiting .idle [.write 10 48 1#32]).regs.state ≠ .run ∧ 48 < 512 ∧ 48 ≤ 48 % 64 := by decide

theorem witness_HostReads :
    step (waiting .run [.read 0 0x17]) = .next (waiting .run []) ∧ 0x17 < 0x18 := ⟨rfl, by decide⟩

theorem witness_IdReads : (waiting .run [.read 0 0]).pending = .read 0 0 :: [] := rfl

/-- A hard reset during a run (U8). -/
theorem witness_HardReset :
    (waiting .run [.hardReset]).pending = .hardReset :: [] ∧ (waiting .run [.hardReset]).regs.state = .run := by decide

/-- Each clause at the ends of its range: the last data field and both flag fields of tree entry 19, the reserved
cells, the derived arrays of table 7. -/
theorem witness_HostReadsBack :
    let s := waiting .idle [.write 5 155 0xFFFF#32, .read 5 155]
    let b := { builtState 7 with regs.state := .halted, pending := [.read 10 (7 * 64 + 32 + (16 - 1))] }
    (s.regs.state ≠ .run ∧ spaceMem 5 = some .tree ∧ MemId.tree ≠ .hder ∧ 155 < MemId.cells s.params .tree ∧
      155 % 8 < 4 ∧ s.pending = [.write 5 155 0xFFFF#32, .read 5 155]) ∧
    (156 < 160 ∧ 4 ≤ 156 % 8 ∧ 157 % 8 ≤ 5 ∧
      (waiting .idle [.write 5 157 3#32, .read 5 157]).pending = [.write 5 157 3#32, .read 5 157]) ∧
    (159 < 160 ∧ 6 ≤ 158 % 8 ∧ 511 < 512 ∧ 48 ≤ 48 % 64 ∧ (waiting .idle [.read 10 511]).pending = .read 10 511 :: []) ∧
    b.regs.state ≠ .run ∧ 7 < 8 ∧ b.regs.hbuilt.getLsbD 7 = true ∧
    b.pending = .read 10 (7 * 64 + 32 + (16 - 1)) :: [] := by decide +kernel

theorem witness_SoftReset :
    (waiting .fault [.write 0 1 3#32]).pending = .write 0 1 3#32 :: [] ∧ (3#32).getLsbD 1 = true ∧
    (waiting .fault [.write 0 1 3#32]).regs.state ≠ .run ∧ (waiting .run [.write 0 1 3#32]).regs.state = .run := by
  decide

/-- In `FAULT` with every sticky flag set, a `START`. -/
theorem witness_StickyState :
    let s := { waiting .fault [.write 0 1 1#32] with regs.warn := true, regs.hosterr := true, regs.err := 8 }
    step s = .next { s with pending := [] } ∧ s.pending ≠ [.hardReset] ∧ (1#32).getLsbD 1 = false ∧
    s.regs.warn = true ∧ s.regs.hosterr = true ∧ s.regs.err ≠ 0 ∧ s.regs.state = .fault :=
  ⟨rfl, by decide, by decide, rfl, rfl, by decide, rfl⟩

theorem witness_TableWrites :
    (waiting .idle [.write 6 127 1#32]).regs.state ≠ .run ∧ 127 < 128 ∧ 7 = 127 / 16 ∧ 2047 < 2048 ∧ 7 = 2047 / 256 := by
  decide

theorem witness_Floats :
    isFinite 0x7F7FFFFF#32 = true ∧ isNaN 0x7F800001#32 = true ∧ isInf 0xFF800000#32 = true ∧
    isInf 0x7F800000#32 = true ∧ fsign 0xFF800000#32 ≠ fsign 0x7F800000#32 ∧ isZero 0x80000000#32 = true ∧
    isNaN 0x00000001#32 = false ∧ isZero 0x00000001#32 = false ∧ isFinite 0x00000001#32 = true ∧
    fsign 0xFF800000#32 = fsign 0xFF800000#32 := by decide

end Sys2Proof.Tests
end

section
/-! The build parameters (`00_scope.md` R8) through one step: what each part of a command leaves of them, then the
command, then the step. -/

namespace Sys2Proof.Machine

/-- The state a command's result carries, done or raised. -/
def CmdResult.state : CmdResult → State
  | .done s => s
  | .raised s _ _ => s

@[simp] theorem CmdResult.state_done (s : State) : (CmdResult.done s).state = s := rfl

@[simp] theorem CmdResult.state_raised (s : State) (e : ErrCode) (info : Half) :
    (CmdResult.raised s e info).state = s := rfl

/-- The end of a command keeps what its result's state has of the parameters. -/
theorem params_of_finish {r : CmdResult} {t : State} (h : finish r = .next t) : t.params = r.state.params := by
  rcases finish_cases r with ⟨s, rfl, hf⟩ | ⟨s, e, info, rfl, hf⟩ <;> cases hf.symm.trans h <;> rfl

theorem andThen_params {r : CmdResult} {k : State → CmdResult} (hk : ∀ u, (k u).state.params = u.params) :
    (r.andThen k).state.params = r.state.params := by
  cases r with
  | done u => exact hk u
  | raised u e info => rfl

theorem sameButReader_params {s t : State} (h : sameButReader s t) : t.params = s.params := by
  rw [h]

section Operands

variable {k : Nat → State → CmdResult} (hk : ∀ n u, (k n u).state.params = u.params) (op arg : BitVec 8) (s : State)
include hk

theorem withNode_params : (withNode op arg s k).state.params = s.params := by
  unfold withNode
  split
  · exact hk _ s
  · rfl

theorem withTable_params : (withTable op arg s k).state.params = s.params := by
  unfold withTable
  split
  · exact hk _ s
  · rfl

theorem withCount_params : (withCount op arg s k).state.params = s.params := by
  unfold withCount
  split
  · exact hk _ s
  · rfl

end Operands

theorem run_params (p : Pass) (n : Nat) (s : State) : (p.run n s).state.params = s.params := by
  rcases run_cases p n s with ⟨e, info, _, h⟩ | ⟨_, h⟩ <;> simp [h]

theorem runNodes_params (first second : Pass) (l : List Nat) (s : State) :
    (runNodes first second l s).state.params = s.params := by
  induction l generalizing s with
  | nil => rfl
  | cons n l ih => rw [runNodes, andThen_params ih, andThen_params (run_params second n), run_params]

theorem wholeTree_params {k : State → CmdResult} (hk : ∀ u, (k u).state.params = u.params) (s : State) :
    (wholeTree s k).state.params = s.params := by
  unfold wholeTree
  split
  · rfl
  · exact hk s

theorem hbuildTable_params (t : Nat) (s : State) : (hbuildTable t s).state.params = s.params := by
  rcases hbuildTable_cases t s with ⟨_, h⟩ | ⟨_, _, _, _, h⟩ | ⟨_, _, h⟩ <;> simp [h]

theorem hselTable_params (t : Nat) (s : State) : (hselTable t s).state.params = s.params := by
  unfold hselTable
  split <;> rfl

theorem readerReady_params {k : State → CmdResult} (hk : ∀ u, (k u).state.params = u.params) (s : State) :
    (readerReady s k).state.params = s.params := by
  unfold readerReady
  split_ifs
  · rfl
  · rfl
  · exact hk s

theorem decodeLoop_params (t k l c : Nat) (s : State) : (s.decodeLoop t k l c).state.params = s.params := by
  rcases decodeLoop_cases t k s l c with ⟨u, hu, h⟩ | ⟨u, v, hu, h⟩ | ⟨u, e, info, hu, _, h⟩ <;>
    simp [h, sameButReader_params hu]

theorem getbCount_params (n : Nat) (s : State) : (getbCount n s).state.params = s.params := by
  refine readerReady_params (fun u => ?_) s.clearBitv
  have hu := sameButReader_params (readBits_same u n 0)
  cases h : u.readBits n 0 <;> rw [h] at hu <;> exact hu

theorem exec_params (i : Instr) {s t : State} (h : exec i s = .next t) : t.params = s.params := by
  cases i with
  | nop => exact params_of_finish (r := .done s) h
  | halt => cases h; rfl
  | setr reg imm => exact (params_of_finish (r := .done (s.writeReg reg imm)) h).trans (State.writeReg_params s reg imm)
  | frow node => exact (params_of_finish h).trans (withNode_params (run_params .frow) _ node s)
  | fcol node => exact (params_of_finish h).trans (withNode_params (run_params .fcol) _ node s)
  | icol node => exact (params_of_finish h).trans (withNode_params (run_params .icol) _ node s)
  | irow node => exact (params_of_finish h).trans (withNode_params (run_params .irow) _ node s)
  | decomp => exact (params_of_finish h).trans (wholeTree_params (runNodes_params _ _ _) s)
  | recon => exact (params_of_finish h).trans (wholeTree_params (runNodes_params _ _ _) s)
  | bsinit => exact params_of_finish (r := .done s.clearReader) h
  | hbuild id => exact (params_of_finish h).trans (withTable_params hbuildTable_params _ id s)
  | hsel id => exact (params_of_finish h).trans (withTable_params hselTable_params _ id s)
  | hdec =>
    refine (params_of_finish h).trans ?_
    split_ifs
    · rfl
    · rfl
    · exact readerReady_params (decodeLoop_params _ _ _ _) s.clearSymv
  | getb n => exact (params_of_finish h).trans (withCount_params getbCount_params _ n s)

theorem engineStep_params {s t : State} (h : engineStep s = .next t) : t.params = s.params := by
  rcases fetchDecode_cases s with ⟨_, hf⟩ | ⟨_, _, hf⟩ | ⟨_, _, ⟨_, _, hf⟩ | ⟨i, _, hf⟩⟩
  · cases (engineStep_stop s _ hf).symm.trans h; rfl
  · cases (engineStep_stop s _ hf).symm.trans h; rfl
  · cases (engineStep_stop s _ hf).symm.trans h; rfl
  · exact exec_params i ((engineStep_command s i hf).symm.trans h)

theorem hostRead_params (s : State) (space index : Nat) : (s.hostRead space index).params = s.params := by
  rw [hostRead_frame]

theorem writeCtrl_params (s : State) (v : Half) : (s.writeCtrl v).params = s.params := by
  rcases writeCtrl_cases s v with ⟨_, h⟩ | ⟨_, h⟩ | ⟨_, _, _, h⟩ <;> simp [h]

theorem hostWriteMem_params (s : State) (id : MemId) (i : Nat) (v : Word) :
    (s.hostWriteMem id i v).params = s.params := by
  cases id with
  | tree => unfold State.hostWriteMem; dsimp only; split <;> rfl
  | hder => unfold State.hostWriteMem; dsimp only; split <;> rfl
  | _ => rfl

theorem hostWrite_params (s : State) (space index : Nat) (v : Word) :
    (s.hostWrite space index v).params = s.params := by
  rcases hostWrite_cases s space index v with h | ⟨_, _, _, h⟩ | ⟨r, _, _, _, h⟩ | ⟨id, _, _, _, h⟩ <;> rw [h]
  · rfl
  · exact writeCtrl_params s _
  · exact State.writeReg_params s r _
  · exact hostWriteMem_params s id index v

/-- Settles O50, by the cases of a step: the sequencer's turn, or one host event. -/
theorem parametersNeverChange : Obligations.ParametersNeverChange := by
  intro s t h
  rcases step_cases s with ⟨_, hs⟩ | ⟨_, _, hs⟩ | ⟨rest, space, index, _, hs⟩ | ⟨rest, space, index, v, _, hs⟩ |
    ⟨rest, _, hs⟩
  · exact engineStep_params (hs.symm.trans h)
  · exact (engineStep_params (hs.symm.trans h)).trans rfl
  · cases hs.symm.trans h; exact hostRead_params _ space index
  · cases hs.symm.trans h; exact hostWrite_params _ space index v
  · cases hs.symm.trans h; rfl

end Sys2Proof.Machine
end

section
/-! Binary32 arithmetic (`00_scope.md` R11): the fields of a packed pattern, and why `roundPattern` is the one
correct rounding. The exact magnitude is `n` units of `2^-(149 + extra)`; the rounding divides it by the quantum
`2^(quantumExp n extra + extra)`, and every other finite pattern either is a multiple of that quantum or lies below
the binade of `n`. -/

namespace Sys2Proof.Machine

/-! ### The fields of a pattern -/

theorem fsign_eq (a : Word) : fsign a = decide (2 ^ 31 ≤ a.toNat) := BitVec.msb_eq_decide a

theorem fexp_eq (a : Word) : fexp a = a.toNat / 2 ^ 23 % 2 ^ 8 := by
  rw [fexp, BitVec.extractLsb'_toNat, Nat.shiftRight_eq_div_pow]

theorem ffrac_eq (a : Word) : ffrac a = a.toNat % 2 ^ 23 := by
  rw [ffrac, BitVec.extractLsb'_toNat, Nat.shiftRight_zero]

theorem ffrac_lt (a : Word) : ffrac a < 2 ^ 23 := by
  rw [ffrac_eq]; omega

section Packed

variable (s : Bool) {p : Nat}

theorem toNat_fpack (h : p < 2 ^ 31) : (fpack s p).toNat = s.toNat * 2 ^ 31 + p := by
  rw [fpack, BitVec.toNat_append, BitVec.toNat_ofBool, BitVec.toNat_ofNat, Nat.mod_eq_of_lt h,
    ← Nat.shiftLeft_add_eq_or_of_lt h, Nat.shiftLeft_eq]

theorem fsign_fpack (h : p < 2 ^ 31) : fsign (fpack s p) = s := by
  rw [fsign_eq, toNat_fpack s h]
  cases s
  · exact decide_eq_false (by rw [Bool.toNat_false]; omega)
  · exact decide_eq_true (by rw [Bool.toNat_true]; omega)

theorem fexp_fpack (h : p < 2 ^ 31) : fexp (fpack s p) = p / 2 ^ 23 := by
  rw [fexp_eq, toNat_fpack s h]; omega

theorem ffrac_fpack (h : p < 2 ^ 31) : ffrac (fpack s p) = p % 2 ^ 23 := by
  rw [ffrac_eq, toNat_fpack s h]; omega

theorem isInf_fpack_infPattern : isInf (fpack s infPattern) = true := by
  simp [isInf, fexp_fpack, ffrac_fpack, infPattern]

theorem isFinite_fpack (h : p < infPattern) : isFinite (fpack s p) = true := by
  have h31 : p < 2 ^ 31 := h.trans (by decide)
  rw [infPattern] at h
  rw [isFinite, fexp_fpack s h31, decide_eq_true_eq]
  omega

/-- The patterns of one quantum `2^k` are consecutive: the `q`-th multiple of it is `q` patterns above `k` steps of
`2^23`. Both ends `q = 2^23` (but for `k = 0`) and `q = 2^24` belong to it. -/
theorem fmag_fpack {k q : Nat} (hp : k * 2 ^ 23 + q < 2 ^ 31) (hle : q ≤ 2 ^ 24) (hge : k = 0 ∨ 2 ^ 23 ≤ q) :
    fmag (fpack s (k * 2 ^ 23 + q)) = q * 2 ^ k := by
  rw [fmag, fexp_fpack s hp, ffrac_fpack s hp]
  by_cases hsub : k = 0 ∧ q < 2 ^ 23
  · obtain ⟨rfl, hq⟩ := hsub
    rw [if_pos (by omega)]
    omega
  rw [if_neg (by omega)]
  by_cases htop : q = 2 ^ 24
  · subst htop
    rw [show (k * 2 ^ 23 + 2 ^ 24) % 2 ^ 23 = 0 by omega, show (k * 2 ^ 23 + 2 ^ 24) / 2 ^ 23 - 1 = k + 1 by omega,
      pow_succ]
    omega
  · rw [show (k * 2 ^ 23 + q) / 2 ^ 23 - 1 = k by omega, show (k * 2 ^ 23 + q) % 2 ^ 23 + 2 ^ 23 = q by omega]

end Packed

/-- `1` for a sign bit that is clear, `-1` for one that is set. -/
def signFactor (s : Bool) : Int := if s then -1 else 1

theorem signFactor_mul_self (s : Bool) : signFactor s * signFactor s = 1 := by cases s <;> rfl

theorem natAbs_sub_signFactor_mul (s : Bool) (u v : Int) :
    (u - signFactor s * v).natAbs = (signFactor s * u - v).natAbs := by
  cases s <;> simp only [signFactor, Bool.false_eq_true, if_true, if_false] <;> omega

theorem fval_eq (a : Word) : fval a = signFactor (fsign a) * fmag a := by
  cases h : fsign a <;> simp [fval, signFactor, h]

theorem natAbs_fval (a : Word) : (fval a).natAbs = fmag a := by
  unfold fval; split <;> omega

theorem signFactor_mul_fval_le (s : Bool) (a : Word) : signFactor s * fval a ≤ fmag a := by
  rw [← natAbs_fval a]
  cases s <;> simp only [signFactor, Bool.false_eq_true, if_true, if_false] <;> omega

/-- The finite magnitudes that are not multiples of `2^k` are those below the binade where the quantum is `2^k`. -/
theorem dvd_fmag_or_lt (a : Word) (k : Nat) : 2 ^ k ∣ fmag a ∨ k ≠ 0 ∧ fmag a < 2 ^ 23 * 2 ^ k := by
  have hfrac := ffrac_lt a
  rcases Nat.eq_zero_or_pos k with rfl | hk
  · exact .inl (by simp)
  unfold fmag
  split_ifs with hexp
  · exact .inr ⟨by omega, by nlinarith [Nat.one_le_two_pow (n := k)]⟩
  · rcases Nat.lt_or_ge (fexp a - 1) k with hlt | hge
    · refine .inr ⟨by omega, ?_⟩
      obtain ⟨j, rfl⟩ : ∃ j, k = j + 1 := ⟨k - 1, by omega⟩
      calc (ffrac a + 2 ^ 23) * 2 ^ (fexp a - 1)
          < 2 ^ 24 * 2 ^ (fexp a - 1) := Nat.mul_lt_mul_of_pos_right (by omega) (Nat.two_pow_pos _)
        _ ≤ 2 ^ 24 * 2 ^ j := Nat.mul_le_mul_left _ (Nat.pow_le_pow_right (by omega) (by omega))
        _ = 2 ^ 23 * 2 ^ (j + 1) := by ring
    · exact .inl (Dvd.dvd.mul_left (Nat.pow_dvd_pow 2 hge) _)

/-! ### Rounding to a multiple of the quantum -/

/-- `roundShift` is within half a quantum of the exact value, and at half a quantum it is even. -/
theorem roundShift_half (n sh : Nat) :
    2 * n ≤ (2 * roundShift n sh + 1) * 2 ^ sh ∧ 2 * roundShift n sh * 2 ^ sh ≤ 2 * n + 2 ^ sh ∧
    (2 * n = (2 * roundShift n sh + 1) * 2 ^ sh ∨ 2 * roundShift n sh * 2 ^ sh = 2 * n + 2 ^ sh →
      roundShift n sh % 2 = 0) := by
  have hdiv := Nat.div_add_mod' n (2 ^ sh)
  have hmod := Nat.mod_lt n (Nat.two_pow_pos sh)
  unfold roundShift
  dsimp only
  generalize 2 ^ sh = d at *
  generalize n / d = q, n % d = r at *
  split_ifs with hup
  · have hodd : (2 * (q + 1) + 1) * d = 2 * (q * d) + 3 * d := by ring
    have heven : 2 * (q + 1) * d = 2 * (q * d) + 2 * d := by ring
    rw [hodd, heven]
    omega
  · have hodd : (2 * q + 1) * d = 2 * (q * d) + d := by ring
    rw [hodd, mul_assoc]
    omega

/-- No multiple of the quantum is nearer than `roundShift`, and another one that is as near leaves it even. -/
theorem roundShift_nearest (n sh : Nat) (z : Int) :
    (roundShift n sh * 2 ^ sh - n : Int).natAbs ≤ (z * 2 ^ sh - n).natAbs ∧
    ((roundShift n sh * 2 ^ sh - n : Int).natAbs = (z * 2 ^ sh - n).natAbs →
      z = roundShift n sh ∨ roundShift n sh % 2 = 0) := by
  obtain ⟨hlo, hhi, htie⟩ := roundShift_half n sh
  have hd : (0 : Int) < 2 ^ sh := by positivity
  zify at hlo hhi htie
  generalize roundShift n sh = q at *
  generalize (2 : Int) ^ sh = d at *
  rw [show (2 * (q : Int) + 1) * d = 2 * (q * d) + d by ring] at hlo htie
  rw [mul_assoc] at hhi htie
  rcases lt_trichotomy z q with hz | rfl | hz
  · have hzd : z * d ≤ q * d - d := by nlinarith
    omega
  · exact ⟨le_rfl, fun _ => .inl rfl⟩
  · have hzd : q * d + d ≤ z * d := by nlinarith
    omega

/-- Where a multiple of `2^23` quanta is not above the exact value, everything below it is farther than
`roundShift`. -/
theorem roundShift_nearer_than_below (n sh : Nat) (y : Int) (hn : 2 ^ 23 * 2 ^ sh ≤ n) (hy : y < 2 ^ 23 * 2 ^ sh) :
    (roundShift n sh * 2 ^ sh - n : Int).natAbs < (y - n).natAbs := by
  obtain ⟨hnear, _⟩ := roundShift_nearest n sh (2 ^ 23)
  zify at hn
  omega

/-! ### The quantum of the result -/

/-- The quantum of the result is `2^quantumExp` units of `2^-149`: 24 bits remain of `n` or, below the normal range,
the subnormal quantum is taken. -/
def quantumExp (n extra : Nat) : Nat := max (n.log2 - 23) extra - extra

/-- How many quanta the result is. -/
def significand (n extra : Nat) : Nat := roundShift n (quantumExp n extra + extra)

theorem roundPattern_eq (n extra : Nat) :
    roundPattern n extra = min (quantumExp n extra * 2 ^ 23 + significand n extra) infPattern := by
  unfold significand quantumExp
  rw [Nat.sub_add_cancel (Nat.le_max_right _ _)]
  rfl

theorem roundPattern_lt (n extra : Nat) : roundPattern n extra < 2 ^ 31 :=
  (Nat.min_le_right _ _).trans_lt (by decide)

theorem lt_quantum (n extra : Nat) : n < 2 ^ 24 * 2 ^ (quantumExp n extra + extra) :=
  calc n < 2 ^ (n.log2 + 1) := Nat.lt_log2_self
    _ ≤ 2 ^ (24 + (quantumExp n extra + extra)) :=
      Nat.pow_le_pow_right (by omega) (by unfold quantumExp; omega)
    _ = 2 ^ 24 * 2 ^ (quantumExp n extra + extra) := pow_add _ _ _

theorem quantum_le (n extra : Nat) :
    quantumExp n extra = 0 ∨ 2 ^ 23 * 2 ^ (quantumExp n extra + extra) ≤ n := by
  refine or_iff_not_imp_left.2 fun hk => ?_
  have hsum : 23 + (quantumExp n extra + extra) = n.log2 := by unfold quantumExp at *; omega
  rw [← pow_add, hsum]
  exact Nat.log2_self_le fun h0 => hk (by subst h0; simp [quantumExp, Nat.log2])

/-- The result is within half a quantum of the exact value, and at half a quantum it is even. -/
theorem significand_half (n extra : Nat) :
    2 * n ≤ (2 * significand n extra + 1) * 2 ^ (quantumExp n extra + extra) ∧
    2 * significand n extra * 2 ^ (quantumExp n extra + extra) ≤ 2 * n + 2 ^ (quantumExp n extra + extra) ∧
    (2 * n = (2 * significand n extra + 1) * 2 ^ (quantumExp n extra + extra) ∨
      2 * significand n extra * 2 ^ (quantumExp n extra + extra) = 2 * n + 2 ^ (quantumExp n extra + extra) →
      significand n extra % 2 = 0) :=
  roundShift_half n (quantumExp n extra + extra)

theorem significand_le (n extra : Nat) : significand n extra ≤ 2 ^ 24 := by
  have hlt := lt_quantum n extra
  obtain ⟨_, hhi, _⟩ := significand_half n extra
  by_contra hgt
  nlinarith [Nat.two_pow_pos (quantumExp n extra + extra)]

theorem significand_ge (n extra : Nat) : quantumExp n extra = 0 ∨ 2 ^ 23 ≤ significand n extra := by
  refine (quantum_le n extra).imp_right fun hle => ?_
  obtain ⟨hlo, _⟩ := significand_half n extra
  by_contra hlt
  nlinarith [Nat.two_pow_pos (quantumExp n extra + extra)]

/-- The least exact magnitude that overflows is half a quantum above the largest finite pattern: that pattern is odd,
so a tie there goes up. -/
theorem pattern_lt_infPattern_iff (n extra : Nat) :
    quantumExp n extra * 2 ^ 23 + significand n extra < infPattern ↔ n < (2 ^ 25 - 1) * 2 ^ (252 + extra) := by
  have hlt := lt_quantum n extra
  have hge := quantum_le n extra
  have hsle := significand_le n extra
  have hsge := significand_ge n extra
  obtain ⟨hlo, hhi, htie⟩ := significand_half n extra
  unfold infPattern
  generalize quantumExp n extra = k, significand n extra = q at *
  have hpos := Nat.two_pow_pos (252 + extra)
  rcases lt_trichotomy k 253 with hk | rfl | hk
  · have hpow : 2 ^ (k + extra) ≤ 2 ^ (252 + extra) := Nat.pow_le_pow_right (by omega) (by omega)
    exact iff_of_true (by omega) (by omega)
  · rw [show 253 + extra = 1 + (252 + extra) by omega, pow_add 2 1, pow_one] at *
    generalize 2 ^ (252 + extra) = d at *
    constructor
    · intro hp
      rcases Nat.lt_or_ge q (2 ^ 24 - 1) with hq | hq
      · have hle : (2 * q + 1) * (2 * d) ≤ (2 ^ 25 - 3) * (2 * d) := Nat.mul_le_mul_right _ (by omega)
        omega
      · obtain rfl : q = 2 ^ 24 - 1 := by omega
        omega
    · intro hn
      by_contra hp
      obtain rfl : q = 2 ^ 24 := by omega
      omega
  · have hpow : 2 ^ (254 + extra) ≤ 2 ^ (k + extra) := Nat.pow_le_pow_right (by omega) (by omega)
    rw [show 254 + extra = 252 + extra + 2 by omega, pow_add] at hpow
    exact iff_of_false (by omega) (by omega)

/-- No pattern's value, seen from the side `s` of the exact value, is nearer than the significand; one that is as near
is the same value or leaves the significand even. Multiples of the quantum are compared by `roundShift_nearest`; the
others lie below the binade. -/
theorem significand_nearest (s : Bool) (n extra : Nat) (c : Word) :
    (significand n extra * 2 ^ (quantumExp n extra + extra) - n : Int).natAbs ≤
      (signFactor s * fval c * 2 ^ extra - n).natAbs ∧
    ((significand n extra * 2 ^ (quantumExp n extra + extra) - n : Int).natAbs =
      (signFactor s * fval c * 2 ^ extra - n).natAbs →
      signFactor s * fval c = significand n extra * 2 ^ quantumExp n extra ∨ significand n extra % 2 = 0) := by
  rcases dvd_fmag_or_lt c (quantumExp n extra) with ⟨m, hm⟩ | ⟨hk, hlt⟩
  · obtain ⟨z, hz⟩ : ∃ z : Int, signFactor s * fval c = z * 2 ^ quantumExp n extra :=
      ⟨signFactor s * signFactor (fsign c) * m, by rw [fval_eq, hm]; push_cast; ring⟩
    obtain ⟨hle, htie⟩ := roundShift_nearest n (quantumExp n extra + extra) z
    rw [hz, mul_assoc z, ← pow_add]
    exact ⟨hle, fun heq => (htie heq).imp_left fun hq => by rw [hq]; rfl⟩
  · have hbelow : signFactor s * fval c < 2 ^ 23 * 2 ^ quantumExp n extra :=
      (signFactor_mul_fval_le s c).trans_lt (by exact_mod_cast hlt)
    have hfar := roundShift_nearer_than_below n (quantumExp n extra + extra) (signFactor s * fval c * 2 ^ extra)
      ((quantum_le n extra).resolve_left hk)
      (by rw [pow_add, ← mul_assoc]; exact mul_lt_mul_of_pos_right hbelow (by positivity))
    exact ⟨hfar.le, fun heq => absurd heq hfar.ne⟩

/-! ### The rounded pattern -/

theorem isInf_roundPattern (s : Bool) (n extra : Nat) (h : (2 ^ 25 - 1) * 2 ^ (252 + extra) ≤ n) :
    isInf (fpack s (roundPattern n extra)) = true := by
  have hinf := mt (pattern_lt_infPattern_iff n extra).1 (by omega)
  rw [roundPattern_eq, Nat.min_eq_right (by omega)]
  exact isInf_fpack_infPattern s

section InRange

variable (s : Bool) {n extra : Nat} (h : n < (2 ^ 25 - 1) * 2 ^ (252 + extra))
include h

theorem roundPattern_of_lt :
    roundPattern n extra = quantumExp n extra * 2 ^ 23 + significand n extra := by
  rw [roundPattern_eq, Nat.min_eq_left ((pattern_lt_infPattern_iff n extra).2 h).le]

theorem isFinite_roundPattern : isFinite (fpack s (roundPattern n extra)) = true :=
  isFinite_fpack s (by rw [roundPattern_of_lt h]; exact (pattern_lt_infPattern_iff n extra).2 h)

theorem fmag_roundPattern :
    fmag (fpack s (roundPattern n extra)) = significand n extra * 2 ^ quantumExp n extra := by
  have hp := roundPattern_lt n extra
  rw [roundPattern_of_lt h] at *
  exact fmag_fpack s hp (significand_le n extra) (significand_ge n extra)

theorem ffrac_roundPattern_mod_two :
    ffrac (fpack s (roundPattern n extra)) % 2 = significand n extra % 2 := by
  rw [ffrac_fpack s (roundPattern_lt n extra), roundPattern_of_lt h]
  omega

theorem signFactor_mul_fval_roundPattern :
    signFactor s * fval (fpack s (roundPattern n extra)) = significand n extra * 2 ^ quantumExp n extra := by
  rw [fval_eq, fsign_fpack s (roundPattern_lt n extra), fmag_roundPattern s h, ← mul_assoc, signFactor_mul_self,
    one_mul]
  push_cast
  rfl

/-- Correct rounding against every pattern `c`: none is nearer to the exact value, and one that is as near is the
result or leaves the result even. -/
theorem roundPattern_nearest (c : Word) :
    (fval (fpack s (roundPattern n extra)) * 2 ^ extra - signFactor s * n).natAbs ≤
      (fval c * 2 ^ extra - signFactor s * n).natAbs ∧
    ((fval (fpack s (roundPattern n extra)) * 2 ^ extra - signFactor s * n).natAbs =
      (fval c * 2 ^ extra - signFactor s * n).natAbs →
      fval c = fval (fpack s (roundPattern n extra)) ∨ ffrac (fpack s (roundPattern n extra)) % 2 = 0) := by
  have hr := signFactor_mul_fval_roundPattern s h
  obtain ⟨hle, htie⟩ := significand_nearest s n extra c
  rw [natAbs_sub_signFactor_mul, natAbs_sub_signFactor_mul, ← mul_assoc, ← mul_assoc, hr, mul_assoc, ← pow_add,
    ffrac_roundPattern_mod_two s h]
  refine ⟨hle, fun heq => (htie heq).imp_left fun hsame => ?_⟩
  exact mul_left_cancel₀ (left_ne_zero_of_mul_eq_one (signFactor_mul_self s)) (hsame.trans hr.symm)

end InRange

/-! ### The two operations on finite operands -/

theorem not_isNaN_of_isFinite {a : Word} (h : isFinite a = true) : isNaN a = false := by
  simp_all [isFinite, isNaN]

theorem not_isInf_of_isFinite {a : Word} (h : isFinite a = true) : isInf a = false := by
  simp_all [isFinite, isInf]

theorem not_isNaN_of_isInf {a : Word} (h : isInf a = true) : isNaN a = false := by
  simp_all [isInf, isNaN]

theorem not_isZero_of_isInf {a : Word} (h : isInf a = true) : isZero a = false := by
  simp_all [isInf, isZero]

theorem fmul_of_finite {a b : Word} (ha : isFinite a = true) (hb : isFinite b = true) :
    fmul a b = fpack (fsign a != fsign b) (roundPattern (fmag a * fmag b) 149) := by
  simp [fmul, not_isNaN_of_isFinite, not_isInf_of_isFinite, ha, hb]

/-- The sign of a sum of finite operands (R11): that of the exact sum, and of an exact zero the operands' where both
are negative, else plus. -/
def sumSign (a b : Word) : Bool :=
  if fval a + fval b = 0 then fsign a && fsign b else decide (fval a + fval b < 0)

theorem fadd_of_finite {a b : Word} (ha : isFinite a = true) (hb : isFinite b = true) :
    fadd a b = fpack (sumSign a b) (roundPattern (fval a + fval b).natAbs 0) := by
  simp [fadd, sumSign, not_isNaN_of_isFinite, not_isInf_of_isFinite, ha, hb]

theorem fval_mul_fval (a b : Word) :
    fval a * fval b = signFactor (fsign a != fsign b) * (fmag a * fmag b : Nat) := by
  rw [fval_eq a, fval_eq b]
  cases fsign a <;> cases fsign b <;> simp [signFactor]

theorem fval_add_fval (a b : Word) :
    fval a + fval b = signFactor (sumSign a b) * ((fval a + fval b).natAbs : Int) := by
  by_cases hzero : fval a + fval b = 0
  · simp [hzero]
  · rw [sumSign, if_neg hzero]
    unfold signFactor
    split_ifs with hneg <;> rw [decide_eq_true_eq] at hneg <;> omega

/-- Settles O58: the product is `roundPattern` of the exact magnitude under the exact sign. -/
theorem productIsRoundedToNearestEven : Obligations.ProductIsRoundedToNearestEven := by
  intro a b ha hb
  rw [fmul_of_finite ha hb, Int.natAbs_mul, natAbs_fval, natAbs_fval, fval_mul_fval, show 401 = 252 + 149 from rfl]
  exact ⟨fsign_fpack _ (roundPattern_lt _ _), isInf_roundPattern _ _ 149,
    fun h => ⟨isFinite_roundPattern _ h, fun c _ => roundPattern_nearest _ h c⟩⟩

theorem fadd_of_sum_zero {a b : Word} (ha : isFinite a = true) (hb : isFinite b = true) (h : fval a + fval b = 0) :
    fadd a b = if fsign a && fsign b then 0x80000000#32 else 0x00000000#32 := by
  rw [fadd_of_finite ha hb, sumSign, if_pos h, h]
  cases fsign a && fsign b <;> decide

/-- Settles O59: the sum is `roundPattern` of the exact magnitude under the exact sign, the quantum of every finite
pattern being a multiple of the unit. -/
theorem sumIsRoundedToNearestEven : Obligations.SumIsRoundedToNearestEven := by
  intro a b ha hb
  refine ⟨fun hne => ?_, fadd_of_sum_zero ha hb, ?_, fun h => ?_⟩
  · rw [fadd_of_finite ha hb, fsign_fpack _ (roundPattern_lt _ _), sumSign, if_neg hne]
  · rw [fadd_of_finite ha hb]
    exact isInf_roundPattern _ _ 0
  · rw [fadd_of_finite ha hb]
    refine ⟨isFinite_roundPattern (extra := 0) _ h, fun c _ => ?_⟩
    have hnear := roundPattern_nearest (extra := 0) (sumSign a b) h c
    rwa [← fval_add_fval, pow_zero, mul_one, mul_one] at hnear

/-! ### NaNs, infinities and the sign flip -/

theorem isNaN_freeNaN (op : Config.FloatOp) (a b : Word) : isNaN (freeNaN op a b) = true := by
  have hpred := (Config.nanPayloadPred op a b).isLt
  have hp : infPattern + (Config.nanPayloadPred op a b).val + 1 < 2 ^ 31 := by unfold infPattern; omega
  rw [isNaN, freeNaN, fexp_fpack _ hp, ffrac_fpack _ hp, infPattern, Bool.and_eq_true, decide_eq_true_eq,
    decide_eq_true_eq]
  omega

theorem fsign_fpack_infPattern (s : Bool) : fsign (fpack s infPattern) = s := fsign_fpack s (by decide)

theorem fmul_of_isNaN {a b : Word} (h : isNaN a = true ∨ isNaN b = true) : fmul a b = freeNaN .mul a b := by
  rw [fmul, if_pos (by simpa using h)]

theorem fadd_of_isNaN {a b : Word} (h : isNaN a = true ∨ isNaN b = true) : fadd a b = freeNaN .add a b := by
  rw [fadd, if_pos (by simpa using h)]

/-- With an infinite factor and no NaN, a zero factor makes the product invalid, and any other an infinity. -/
theorem fmul_of_isInf {a b : Word} (hinf : isInf a = true ∨ isInf b = true) (ha : isNaN a = false)
    (hb : isNaN b = false) :
    fmul a b = if isZero a || isZero b then freeNaN .mul a b else fpack (fsign a != fsign b) infPattern := by
  rw [fmul, if_neg (by simp [ha, hb]), if_pos (by simpa using hinf)]

theorem not_isNaN_of_isZero {a : Word} (h : isZero a = true) : isNaN a = false := by
  simp_all [isZero, isNaN]

/-- An infinite first term is the sum unless the second is the opposite infinity. -/
theorem fadd_of_isInf_left {a b : Word} (ha : isInf a = true) (hb : isNaN b = false) :
    fadd a b = if isInf b && (fsign a != fsign b) then freeNaN .add a b else a := by
  rw [fadd, if_neg (by simp [not_isNaN_of_isInf ha, hb]), if_pos ha]

theorem fadd_of_isInf_right {a b : Word} (ha : isFinite a = true) (hb : isInf b = true) : fadd a b = b := by
  rw [fadd, if_neg (by simp [not_isNaN_of_isFinite ha, not_isNaN_of_isInf hb]), if_neg (by simp [not_isInf_of_isFinite ha]),
    if_pos hb]

theorem fneg_fields (a : Word) :
    fsign (fneg a) = !(fsign a) ∧ fexp (fneg a) = fexp a ∧ ffrac (fneg a) = ffrac a := by
  refine ⟨?_, ?_, ?_⟩
  · simp [fsign, fneg]
  · rw [fexp, fneg, BitVec.extractLsb'_xor]; simp [fexp]
  · rw [ffrac, fneg, BitVec.extractLsb'_xor]; simp [ffrac]

/-- Settles O60: each clause is one branch of `fmul`, `fadd` or `fneg`. -/
theorem specialFloatsFollowR11 : Obligations.SpecialFloatsFollowR11 := by
  refine ⟨fun a b h => ?_, fun a b ha hb => ?_, fun a b ha hb hs => ?_, fun a b ha hn hz => ?_,
    fun a b ha hb => ?_, fun a b ha hb hs => ?_, fneg_fields⟩
  · rw [fmul_of_isNaN h, fadd_of_isNaN h]
    exact ⟨isNaN_freeNaN _ a b, isNaN_freeNaN _ a b⟩
  · rw [fmul_of_isInf (.inl ha) (not_isNaN_of_isInf ha) (not_isNaN_of_isZero hb),
      fmul_of_isInf (.inr ha) (not_isNaN_of_isZero hb) (not_isNaN_of_isInf ha), if_pos (by simp [hb]), if_pos (by simp [hb])]
    exact ⟨isNaN_freeNaN _ a b, isNaN_freeNaN _ b a⟩
  · rw [fadd_of_isInf_left ha (not_isNaN_of_isInf hb), if_pos (by simp [hb, hs])]
    exact isNaN_freeNaN _ a b
  · rw [fmul_of_isInf (.inl ha) (not_isNaN_of_isInf ha) hn, fmul_of_isInf (.inr ha) hn (not_isNaN_of_isInf ha),
      if_neg (by simp [hz, not_isZero_of_isInf ha]), if_neg (by simp [hz, not_isZero_of_isInf ha])]
    exact ⟨isInf_fpack_infPattern _, fsign_fpack_infPattern _, isInf_fpack_infPattern _, fsign_fpack_infPattern _⟩
  · rw [fadd_of_isInf_left ha (not_isNaN_of_isFinite hb), if_neg (by simp [not_isInf_of_isFinite hb]),
      fadd_of_isInf_right hb ha]
    exact ⟨rfl, rfl⟩
  · rw [fadd_of_isInf_left ha (not_isNaN_of_isInf hb), if_neg (by simp [hs])]

end Sys2Proof.Machine
end

section
/-! What a step can do, said once: every command is a chain of a few updates of the state and then one end
(`40_sequencer.md` R121, `60_exceptions.md` R253), and a property kept by each of them and by each access of the host
is kept by every step. -/

namespace Sys2Proof.Machine

/-- The cells of the list are all derived cells of table `t`. -/
def derivedCells (t : Nat) (ws : List (Nat × Half)) : Prop :=
  ∀ c ∈ ws, ∃ arr l, 1 ≤ l ∧ l ≤ 16 ∧ c.1 = hderIndex t arr l

/-- One update a command makes before its end, with what the command has established where it makes it: an accepted
pass, a register write, a move of the bit reader (R210), a delivery within `RES` (R46), a part of `HBUILD` (R221) or a
selection (R222). -/
inductive Update (s : State) : State → Prop
  | pass (p : Pass) (n : Nat) (accepted : p.check n s = none) : Update s (p.apply s (s.node n))
  | writeReg (r : WReg) (v : Half) : Update s (s.writeReg r v)
  | clearReader : Update s s.clearReader
  | skipByte : Update s { s with regs.bsptr := s.regs.bsptr + 1 }
  | loadByte (b : Byte) (noMarker : s.regs.mkf = false) : Update s (s.loadByte b)
  | takeBit (left : s.regs.bitcnt ≠ 0) : Update s { s with regs.bitcnt := s.regs.bitcnt - 1 }
  | setMarker (b2 : Byte) (nonzero : b2 ≠ 0x00#8) (empty : s.regs.bitcnt = 0) : Update s (s.setMarker b2)
  | clearSymv : Update s s.clearSymv
  | clearBitv : Update s s.clearBitv
  | deliverSymbol (v : Byte) (room : s.regs.resptr.toNat < s.params.resWords) : Update s (s.deliverSymbol v)
  | deliverBits (v : Half) (room : s.regs.resptr.toNat < s.params.resWords) : Update s (s.deliverBits v)
  | unbuild (t : Nat) : Update s (s.unbuild (~~~ (tableBit t)))
  | storeDerived (t : Nat) (ws : List (Nat × Half)) (ht : t < Config.nHtab) (unbuilt : s.regs.hbuilt.getLsbD t = false)
      (cells : derivedCells t ws) :
      Update s { s with hder := s.hder.storeAll ws }
  | markBuilt (t : Nat) (allones : Bool) (defined : s.regs.hdef.getLsbD t = true)
      (valid : tableValid (s.count t) = true) (exact : s.derivedExact t = true) : Update s (s.markBuilt t allones)
  | select (t : Nat) : Update s (s.select t)

/-- A chain of updates. -/
abbrev Reaches : State → State → Prop := Relation.ReflTransGen Update

theorem Update.reaches {s t : State} (h : Update s t) : Reaches s t := .single h

/-! ### The masks of built tables -/

theorem getLsbD_tableBit (t i : Nat) : (tableBit t).getLsbD i = (decide (i < 8) && decide (i = t)) := by
  simp only [tableBit, BitVec.getLsbD_shiftLeft, BitVec.getLsbD_one]
  by_cases hi : i < 8
  · by_cases hit : i = t
    · simp [hit]
    · simp [hi, hit]; omega
  · simp [hi]

@[simp] theorem getLsbD_setTableBit (m : BitVec 8) (t i : Nat) :
    (setTableBit m t).getLsbD i = (m.getLsbD i || (decide (i < 8) && decide (i = t))) := by
  rw [setTableBit, BitVec.getLsbD_or, getLsbD_tableBit]

/-- Taking the bit of one table out of a mask. -/
theorem getLsbD_and_not_tableBit (m : BitVec 8) (t i : Nat) :
    (m &&& ~~~ (tableBit t)).getLsbD i = (m.getLsbD i && decide (i ≠ t)) := by
  rw [BitVec.getLsbD_and, BitVec.getLsbD_not, getLsbD_tableBit]
  by_cases hi : i < 8
  · simp [hi]
  · simp [hi, BitVec.getLsbD_of_ge m i (by omega)]

/-! ### The bit reader's moves -/

/-- What `HDEC` and `GETB` check before they read a bit: no marker was met and `RES` is not full (R46, R211). -/
def State.readReady (s : State) : Prop := s.regs.mkf = false ∧ s.regs.resptr.toNat < s.params.resWords

theorem sameButReader_room {s t : State} (h : sameButReader s t) (hr : s.regs.resptr.toNat < s.params.resWords) :
    t.regs.resptr.toNat < t.params.resWords := by
  rw [h]; exact hr

theorem getByte_reaches {s t : State} {b : Byte} (h : s.getByte = .byte b t) : Reaches s t := by
  rcases getByte_cases s with ⟨_, h'⟩ | ⟨_, _, h'⟩ <;> rw [h'] at h <;> cases h
  exact Update.skipByte.reaches

/-- A byte that enters the accumulator gives its highest bit at once. -/
theorem loadByte_takeBit_reaches {s : State} (b : Byte) (hm : s.regs.mkf = false) :
    Reaches s (s.loadByte b).takeBit.state :=
  (Update.loadByte b hm).reaches.tail (.takeBit (by simp))

theorem nextBit_reaches {s : State} (hm : s.regs.mkf = false) : Reaches s s.nextBit.state := by
  rcases nextBit_cases s with ⟨h0, h⟩ | ⟨h0, ⟨t, info, h1, h⟩ | ⟨b, t, h1, _, h⟩ | ⟨t, u, info, h1, h2, h⟩ |
    ⟨t, u, h1, h2, h⟩ | ⟨t, b2, u, h1, h2, hb, h⟩⟩ <;> rw [h]
  · exact (Update.takeBit h0).reaches
  · rw [BitResult.state, (getByte_same s).2 _ _ h1]
  · obtain ⟨-, -, hmt, -⟩ := (getByte_same s).1 _ _ h1
    exact (getByte_reaches h1).trans (loadByte_takeBit_reaches b (hmt.trans hm))
  · rw [BitResult.state, (getByte_same t).2 _ _ h2]
    exact getByte_reaches h1
  · obtain ⟨-, -, hmt, -⟩ := (getByte_same s).1 _ _ h1
    obtain ⟨-, -, hmu, -⟩ := (getByte_same t).1 _ _ h2
    exact ((getByte_reaches h1).trans (getByte_reaches h2)).trans
      (loadByte_takeBit_reaches _ (hmu.trans (hmt.trans hm)))
  · obtain ⟨-, hct, -, -⟩ := (getByte_same s).1 _ _ h1
    obtain ⟨-, hcu, -, -⟩ := (getByte_same t).1 _ _ h2
    exact ((getByte_reaches h1).trans (getByte_reaches h2)).tail (.setMarker b2 hb (hcu.trans (hct.trans h0)))

/-- A bit read meets no marker. -/
theorem nextBit_bit_mkf {s t : State} {b : Bool} (h : s.nextBit = .bit b t) : t.regs.mkf = s.regs.mkf := by
  rcases nextBit_cases s with ⟨_, h'⟩ | ⟨_, ⟨_, _, _, h'⟩ | ⟨_, u, h1, _, h'⟩ | ⟨_, _, _, _, _, h'⟩ |
    ⟨u, v, h1, h2, h'⟩ | ⟨_, _, _, _, _, _, h'⟩⟩ <;> rw [h'] at h <;> cases h
  · rfl
  · exact ((getByte_same s).1 _ _ h1).2.2.1
  · exact ((getByte_same u).1 _ _ h2).2.2.1.trans ((getByte_same s).1 _ _ h1).2.2.1

theorem nextBit_bit_ready {s t : State} {b : Bool} (hs : s.readReady) (h : s.nextBit = .bit b t) : t.readReady := by
  have hsame := nextBit_same s
  rw [h] at hsame
  exact ⟨(nextBit_bit_mkf h).trans hs.1, sameButReader_room hsame hs.2⟩

theorem readBits_reaches {s : State} (hs : s.readReady) (n v : Nat) : Reaches s (s.readBits n v).state := by
  induction n generalizing s v with
  | zero => exact .refl
  | succ n ih =>
    have hbit := nextBit_reaches hs.1
    unfold State.readBits
    cases h : s.nextBit with
    | bit b t => rw [h] at hbit; exact hbit.trans (ih (nextBit_bit_ready hs h) _)
    | marker t => rw [h] at hbit; exact hbit
    | bounds t info => rw [h] at hbit; exact hbit

/-! ### The commands -/

theorem andThen_reaches {s : State} {r : CmdResult} {k : State → CmdResult} (hr : Reaches s r.state)
    (hk : ∀ u, Reaches u (k u).state) : Reaches s (r.andThen k).state := by
  cases r with
  | done u => exact hr.trans (hk u)
  | raised u e info => exact hr

theorem withNode_reaches {op arg : BitVec 8} {s : State} {k : Nat → State → CmdResult}
    (hk : ∀ n, Reaches s (k n s).state) : Reaches s (withNode op arg s k).state := by
  unfold withNode
  split
  · exact hk _
  · exact .refl

theorem withTable_reaches {op arg : BitVec 8} {s : State} {k : Nat → State → CmdResult}
    (hk : ∀ t < Config.nHtab, Reaches s (k t s).state) : Reaches s (withTable op arg s k).state := by
  unfold withTable
  split
  · next hlegal => exact hk _ (by simpa [tableLegal] using hlegal)
  · exact .refl

theorem withCount_reaches {op arg : BitVec 8} {s : State} {k : Nat → State → CmdResult}
    (hk : ∀ n, Reaches s (k n s).state) : Reaches s (withCount op arg s k).state := by
  unfold withCount
  split
  · exact hk _
  · exact .refl

theorem run_reaches (p : Pass) (n : Nat) (s : State) : Reaches s (p.run n s).state := by
  rcases run_cases p n s with ⟨e, info, _, h⟩ | ⟨hc, h⟩ <;> rw [h]
  · exact .refl
  · exact (Update.pass p n hc).reaches

theorem runNodes_reaches (first second : Pass) (l : List Nat) (s : State) :
    Reaches s (runNodes first second l s).state := by
  induction l generalizing s with
  | nil => exact .refl
  | cons n l ih => exact andThen_reaches (andThen_reaches (run_reaches first n s) (run_reaches second n)) ih

theorem wholeTree_reaches {s : State} {k : State → CmdResult} (hk : Reaches s (k s).state) :
    Reaches s (wholeTree s k).state := by
  unfold wholeTree
  split
  · exact .refl
  · exact hk

theorem readerReady_reaches {s : State} {k : State → CmdResult} (hk : s.readReady → Reaches s (k s).state) :
    Reaches s (readerReady s k).state := by
  unfold readerReady
  split_ifs with hm hr
  · exact .refl
  · exact .refl
  · exact hk ⟨by simpa using hm, by omega⟩

theorem decodeLoop_reaches {s : State} (hs : s.readReady) (t k l c : Nat) :
    Reaches s (s.decodeLoop t k l c).state := by
  induction k generalizing s l c with
  | zero => exact .refl
  | succ k ih =>
    have hbit := nextBit_reaches hs.1
    unfold State.decodeLoop
    cases h : s.nextBit with
    | marker u => rw [h] at hbit; exact hbit
    | bounds u info => rw [h] at hbit; exact hbit
    | bit b u =>
      rw [h] at hbit
      have hu := nextBit_bit_ready hs h
      dsimp only
      split
      · exact hbit.tail (.deliverSymbol _ hu.2)
      · exact hbit.trans (ih hu _ _)

theorem getbCount_reaches (n : Nat) (s : State) : Reaches s (getbCount n s).state := by
  refine (Update.clearBitv (s := s)).reaches.trans (readerReady_reaches fun hs => ?_)
  have hbits := readBits_reaches hs n 0
  have hsame := readBits_same s.clearBitv n 0
  cases h : s.clearBitv.readBits n 0 with
  | value v u => rw [h] at hbits hsame; exact hbits.tail (.deliverBits _ (sameButReader_room hsame hs.2))
  | marker u => rw [h] at hbits; exact hbits
  | bounds u info => rw [h] at hbits; exact hbits

theorem hselTable_reaches (t : Nat) (s : State) : Reaches s (hselTable t s).state := by
  unfold hselTable
  split
  · exact (Update.select t).reaches
  · exact .refl

/-! ### The reconstruction of a table -/

theorem derivedWrites_cells {t l : Nat} (h1 : 1 ≤ l) (h2 : l ≤ 16) (a b c : Nat) :
    derivedCells t (derivedWrites t l a b c) := by
  intro d hd
  simp only [derivedWrites, List.mem_cons, List.not_mem_nil, or_false] at hd
  rcases hd with rfl | rfl | rfl <;> exact ⟨_, l, h1, h2, rfl⟩

/-- What the loop of rule R221 has stored where it ends. -/
def BuildResult.memory : BuildResult → Memory 16
  | .built m _ => m
  | .overflow m => m

/-- The loop of rule R221 stores derived cells of its table only. -/
theorem buildLoop_writes (t : Nat) (n : Nat → Nat) (k l : Nat) (m : Memory 16) (code p : Nat) (a : Bool)
    (h1 : 1 ≤ l) (h2 : l + k ≤ 17) :
    ∃ ws, derivedCells t ws ∧ (buildLoop t n k l m code p a).memory = m.storeAll ws := by
  induction k generalizing l m code p a with
  | zero => exact ⟨[], by simp [derivedCells], rfl⟩
  | succ k ih =>
    have next : ∀ x y z code' p' a', ∃ ws, derivedCells t ws ∧
        (buildLoop t n k (l + 1) (m.storeAll (derivedWrites t l x y z)) code' p' a').memory = m.storeAll ws := by
      intro x y z code' p' a'
      obtain ⟨ws, hws, e⟩ := ih (l + 1) (m.storeAll (derivedWrites t l x y z)) code' p' a' (by omega) (by omega)
      refine ⟨derivedWrites t l x y z ++ ws, fun c hc => ?_, by rw [e, Memory.storeAll_append]⟩
      rcases List.mem_append.1 hc with hc | hc
      · exact derivedWrites_cells h1 (by omega) x y z c hc
      · exact hws c hc
    unfold buildLoop
    split_ifs
    · exact next _ _ _ _ _ _
    · exact ⟨[], by simp [derivedCells], rfl⟩
    · exact next _ _ _ _ _ _

theorem DerivedArray.number_lt (arr : DerivedArray) : arr.number < 3 := by cases arr <;> decide

theorem DerivedArray.number_inj {arr arr' : DerivedArray} (h : arr.number = arr'.number) : arr = arr' := by
  revert h
  cases arr <;> cases arr' <;> decide

theorem hderIndex_inj {t t' l l' : Nat} {arr arr' : DerivedArray} (h1 : 1 ≤ l) (h2 : l ≤ 16) (h1' : 1 ≤ l')
    (h2' : l' ≤ 16) (h : hderIndex t arr l = hderIndex t' arr' l') : t = t' ∧ arr = arr' ∧ l = l' := by
  have ha := arr.number_lt
  have ha' := arr'.number_lt
  unfold hderIndex at h
  exact ⟨by omega, DerivedArray.number_inj (by omega), by omega⟩

/-- The value rule R221 gives derived array `arr` at length `l`. -/
def derivedValue (n : Nat → Nat) (l : Nat) : DerivedArray → Nat
  | .mincode => (derivedOf n l).1
  | .maxcode => (derivedOf n l).2.1
  | .valptr => (derivedOf n l).2.2

/-- The derived arrays are exact where each of their cells holds its value. -/
theorem derivedExact_iff (s : State) (t : Nat) :
    s.derivedExact t = true ↔ ∀ arr l, 1 ≤ l → l ≤ 16 →
      s.hder.lookup (hderIndex t arr l) = some (BitVec.ofNat 16 (derivedValue (s.count t) l arr)) := by
  simp only [State.derivedExact, List.all_eq_true, List.mem_map, List.mem_range, Bool.and_eq_true, decide_eq_true_eq]
  constructor
  · intro h arr l h1 h2
    obtain ⟨⟨hmin, hmax⟩, hptr⟩ := h l ⟨l - 1, by simp only [Config.maxBits]; omega, by omega⟩
    cases arr
    · exact hmin
    · exact hmax
    · exact hptr
  · rintro h _ ⟨i, hi, rfl⟩
    have hl : i + 1 ≤ 16 := hi
    exact ⟨⟨h .mincode _ (by omega) hl, h .maxcode _ (by omega) hl⟩, h .valptr _ (by omega) hl⟩

/-- The completed loop writes each derived cell of the table with its value. -/
theorem mem_loopWrites_iff (t : Nat) (n : Nat → Nat) (c : Nat × Half) :
    c ∈ loopWrites t n 16 1 ↔ ∃ arr l, 1 ≤ l ∧ l ≤ 16 ∧
      c = (hderIndex t arr l, BitVec.ofNat 16 (derivedValue n l arr)) := by
  rw [mem_loopWrites]
  constructor
  · rintro ⟨i, hi, h | h | h⟩
    · exact ⟨.valptr, 1 + i, by omega, by omega, h⟩
    · exact ⟨.mincode, 1 + i, by omega, by omega, h⟩
    · exact ⟨.maxcode, 1 + i, by omega, by omega, h⟩
  · rintro ⟨arr, l, h1, h2, h⟩
    refine ⟨l - 1, by omega, ?_⟩
    rw [Nat.add_sub_cancel' h1]
    cases arr
    · exact .inr (.inl h)
    · exact .inr (.inr h)
    · exact .inl h

/-- A cell that a list of writes gives one value only reads as that value. -/
theorem Memory.lookup_storeAll_of_unique {w : Nat} {m : Memory w} {ws : List (Nat × BitVec w)} {i : Nat} {v : BitVec w}
    (hmem : (i, v) ∈ ws) (huniq : ∀ u, (i, u) ∈ ws → u = v) : (m.storeAll ws).lookup i = some v := by
  induction ws generalizing m with
  | nil => simp at hmem
  | cons c rest ih =>
    by_cases hrest : ∃ u, (i, u) ∈ rest
    · obtain ⟨u, hu⟩ := hrest
      obtain rfl := huniq u (List.mem_cons_of_mem _ hu)
      exact ih hu fun x hx => huniq x (List.mem_cons_of_mem _ hx)
    · obtain rfl : (i, v) = c := (List.mem_cons.1 hmem).resolve_right fun h => hrest ⟨v, h⟩
      rw [Memory.storeAll_cons, Memory.lookup_storeAll_other _ _ _ (by simpa using hrest), Memory.lookup_store_same]

/-- A completed loop leaves the table's arrays exact (R221). -/
theorem derivedExact_of_loopWrites {s : State} {t : Nat} {n : Nat → Nat} {m : Memory 16} (hn : s.count t = n)
    (h : s.hder = m.storeAll (loopWrites t n 16 1)) : s.derivedExact t = true := by
  rw [derivedExact_iff, h, hn]
  intro arr l h1 h2
  refine Memory.lookup_storeAll_of_unique ((mem_loopWrites_iff _ _ _).2 ⟨arr, l, h1, h2, rfl⟩) fun u hu => ?_
  obtain ⟨arr', l', h1', h2', hc⟩ := (mem_loopWrites_iff _ _ _).1 hu
  obtain ⟨hi, rfl⟩ := Prod.mk.inj hc
  obtain ⟨-, rfl, rfl⟩ := hderIndex_inj h1 h2 h1' h2' hi
  rfl

theorem loopWrites_cells (t : Nat) (n : Nat → Nat) : derivedCells t (loopWrites t n 16 1) := by
  intro c hc
  obtain ⟨arr, l, h1, h2, rfl⟩ := (mem_loopWrites_iff t n c).1 hc
  exact ⟨arr, l, h1, h2, rfl⟩

/-- Unbuilt first, table `t` may have its derived cells stored. -/
theorem storeDerived_reaches {t : Nat} (ht : t < Config.nHtab) {ws : List (Nat × Half)} (hws : derivedCells t ws)
    (s : State) : Reaches s { s.unbuild (~~~ (tableBit t)) with hder := s.hder.storeAll ws } :=
  (Update.unbuild t).reaches.tail (.storeDerived t ws ht ((getLsbD_and_not_tableBit _ t t).trans (by simp)) hws)

theorem hbuildTable_reaches {t : Nat} (ht : t < Config.nHtab) (s : State) : Reaches s (hbuildTable t s).state := by
  rcases hbuildTable_cases t s with ⟨_, h⟩ | ⟨hd, _, _, _, h⟩ | ⟨hd, hv, h⟩
  · rw [h]; exact .refl
  · unfold hbuildTable at h ⊢
    obtain ⟨ws, hws, e⟩ := buildLoop_writes t (s.count t) Config.maxBits 1 s.hder 0 0 false (by decide) (by decide)
    simp only [hd, Bool.true_eq_false, if_false] at h ⊢
    split_ifs at h ⊢
    · exact (Update.unbuild t).reaches
    · cases hb : buildLoop t (s.count t) Config.maxBits 1 s.hder 0 0 false with
      | built m a => rw [hb] at h; cases h
      | overflow m =>
        rw [hb] at e
        obtain rfl : m = s.hder.storeAll ws := e
        exact storeDerived_reaches ht hws s
  · rw [h]
    refine (storeDerived_reaches ht (loopWrites_cells t _) s).tail (.markBuilt t _ hd hv ?_)
    exact derivedExact_of_loopWrites (n := s.count t) (m := s.hder) rfl (by dsimp only)

/-! ### A command, and the step -/

/-- What a command comes to: its updates, then advanced, in `FAULT`, or halted (R121, R126, R253). -/
inductive CommandEnd (s : State) : State → Prop
  | done {u : State} (updates : Reaches s u) : CommandEnd s u.advance
  | raised {u : State} (updates : Reaches s u) (e : ErrCode) (info : Half) : CommandEnd s (u.raise e info)
  | halted : CommandEnd s { s with regs.state := .halted }

theorem CommandEnd.of_finish {s t : State} {r : CmdResult} (hr : Reaches s r.state) (h : finish r = .next t) :
    CommandEnd s t := by
  rcases finish_cases r with ⟨u, rfl, hf⟩ | ⟨u, e, info, rfl, hf⟩ <;> cases hf.symm.trans h
  · exact .done hr
  · exact .raised hr e info

/-- Every command is a chain of updates and an end. -/
theorem exec_commandEnd (i : Instr) {s t : State} (h : exec i s = .next t) : CommandEnd s t := by
  cases i with
  | nop => exact .of_finish (r := .done s) .refl h
  | halt => cases h; exact .halted
  | setr reg imm => exact .of_finish (r := .done (s.writeReg reg imm)) (Update.writeReg reg imm).reaches h
  | frow node => exact .of_finish (withNode_reaches fun n => run_reaches .frow n s) h
  | fcol node => exact .of_finish (withNode_reaches fun n => run_reaches .fcol n s) h
  | icol node => exact .of_finish (withNode_reaches fun n => run_reaches .icol n s) h
  | irow node => exact .of_finish (withNode_reaches fun n => run_reaches .irow n s) h
  | decomp => exact .of_finish (wholeTree_reaches (runNodes_reaches _ _ _ s)) h
  | recon => exact .of_finish (wholeTree_reaches (runNodes_reaches _ _ _ s)) h
  | bsinit => exact .of_finish (r := .done s.clearReader) Update.clearReader.reaches h
  | hbuild id => exact .of_finish (withTable_reaches fun _ ht => hbuildTable_reaches ht s) h
  | hsel id => exact .of_finish (withTable_reaches fun t _ => hselTable_reaches t s) h
  | hdec =>
    refine .of_finish ?_ h
    split_ifs
    · exact .refl
    · exact .refl
    · exact Update.clearSymv.reaches.trans (readerReady_reaches fun hs => decodeLoop_reaches hs _ _ _ _)
  | getb n => exact .of_finish (withCount_reaches fun n => getbCount_reaches n s) h

/-- A property that every part of a sequencer step keeps: each update, each end of a command, and the faults of fetch
and decode. -/
structure KeptByEngine (P : State → Prop) : Prop where
  update {s t : State} (h : Update s t) (hs : P s) : P t
  advance {s : State} (hs : P s) : P s.advance
  raise {s : State} (e : ErrCode) (info : Half) (hs : P s) : P (s.raise e info)
  halt {s : State} (running : s.regs.state = .run) (hs : P s) : P { s with regs.state := .halted }

/-- A property that every access of the host keeps, and the order of events with it. A register write is an update. -/
structure KeptByHost (P : State → Prop) : Prop where
  events {s : State} (rest : List HostEvent) (hs : P s) : P { s with pending := rest }
  answer {s : State} (refused : Bool) (v : Word) (hs : P s) : P { s with regs.hosterr := refused, hostData := v }
  start {s : State} (stopped : s.regs.state = .idle ∨ s.regs.state = .halted) (hs : P s) :
    P { s with regs.cp := s.regs.cpstart, regs.state := .run }
  cell {s : State} {id : MemId} {i : Nat} (inside : i < id.cells s.params) (v : Word) (hs : P s) :
    P (s.hostWriteMem id i v)
  softReset {s : State} (hs : P s) : P s.softReset
  hardReset {s : State} (hs : P s) : P s.hardReset

/-- A host write of `TREE` changes `TREE` only. -/
theorem hostWriteMem_tree_frame (s : State) (i : Nat) (v : Word) :
    s.hostWriteMem .tree i v = { s with tree := (s.hostWriteMem .tree i v).tree } := by
  unfold State.hostWriteMem
  dsimp only
  split <;> rfl

/-- A host write of `HDER` changes at most `HOSTERR` (R29, R71). -/
theorem hostWriteMem_hder_frame (s : State) (i : Nat) (v : Word) :
    s.hostWriteMem .hder i v = { s with regs.hosterr := (s.hostWriteMem .hder i v).regs.hosterr } := by
  unfold State.hostWriteMem
  dsimp only
  split <;> rfl

section Kept

variable {P : State → Prop} (he : KeptByEngine P)
include he

theorem KeptByEngine.reaches {s t : State} (h : Reaches s t) (hs : P s) : P t := by
  induction h with
  | refl => exact hs
  | tail _ h ih => exact he.update h ih

theorem KeptByEngine.exec {s t : State} (i : Instr) (running : s.regs.state = .run) (hs : P s)
    (h : exec i s = .next t) : P t := by
  cases exec_commandEnd i h with
  | done hu => exact he.advance (he.reaches hu hs)
  | raised hu e info => exact he.raise e info (he.reaches hu hs)
  | halted => exact he.halt running hs

theorem KeptByEngine.engineStep {s t : State} (hs : P s) (h : engineStep s = .next t) : P t := by
  rcases fetchDecode_cases s with ⟨_, hf⟩ | ⟨_, _, hf⟩ | ⟨hr, _, ⟨_, _, hf⟩ | ⟨i, _, hf⟩⟩
  · cases (engineStep_stop s _ hf).symm.trans h; exact hs
  · cases (engineStep_stop s _ hf).symm.trans h; exact he.raise _ _ hs
  · cases (engineStep_stop s _ hf).symm.trans h; exact he.raise _ _ hs
  · exact he.exec i hr hs ((engineStep_command s i hf).symm.trans h)

theorem KeptByHost.hostWrite (hh : KeptByHost P) {s : State} (hs : P s) (space index : Nat) (v : Word) :
    P (s.hostWrite space index v) := by
  rcases hostWrite_cases s space index v with h | ⟨_, _, _, h⟩ | ⟨r, _, _, _, h⟩ | ⟨id, _, _, hi, h⟩ <;> rw [h]
  · exact hh.answer true s.hostData hs
  · rcases writeCtrl_cases s (v.setWidth 16) with ⟨_, h⟩ | ⟨_, h⟩ | ⟨_, _, hstopped, h⟩ <;> rw [h]
    · exact hh.softReset hs
    · exact hs
    · exact hh.start hstopped hs
  · exact he.update (.writeReg r _) hs
  · exact hh.cell hi v hs

/-- A property kept by the sequencer and by the host is kept by every step. -/
theorem step_keeps (hh : KeptByHost P) {s t : State} (hs : P s) (h : step s = .next t) : P t := by
  rcases step_cases s with ⟨_, e⟩ | ⟨rest, _, e⟩ | ⟨rest, space, index, _, e⟩ | ⟨rest, space, index, v, _, e⟩ |
    ⟨rest, _, e⟩ <;> rw [e] at h
  · exact he.engineStep hs h
  · exact he.engineStep (hh.events rest hs) h
  · cases h; rw [hostRead_frame]; exact hh.answer _ _ (hh.events rest hs)
  · cases h; exact KeptByHost.hostWrite he hh (hh.events rest hs) space index v
  · cases h; exact hh.hardReset (hh.events rest hs)

end Kept

end Sys2Proof.Machine
end

section
/-! The legal memories (`10_state.md` R40, `20_memory.md` R70, R71) through one step: every write goes to a cell of its
memory, and none to a reserved one. -/

namespace Sys2Proof.Machine

/-- A memory of `n` cells in canonical form. -/
def Memory.legal {w : Nat} (n : Nat) (m : Memory w) : Prop := m.wf = true ∧ m.within n = true

theorem Memory.legal_nil {w : Nat} (n : Nat) : Memory.legal n ([] : Memory w) := ⟨rfl, rfl⟩

theorem Memory.legal_store {w n i : Nat} {m : Memory w} (h : m.legal n) (hi : i < n) (v : BitVec w) :
    (m.store i v).legal n :=
  ⟨Memory.wf_store m i v h.1, Memory.within_store n m i v h.2 hi⟩

theorem Memory.legal_storeAll {w n : Nat} {m : Memory w} {ws : List (Nat × BitVec w)} (h : m.legal n)
    (hws : ∀ c ∈ ws, c.1 < n) : (m.storeAll ws).legal n :=
  ⟨Memory.wf_storeAll m ws h.1, Memory.within_storeAll n m ws h.2 hws⟩

/-- `memoriesLegal` by name: each memory legal, and what the reserved cells of `TREE` and `HDER` ask. -/
structure State.LegalMemories (s : State) : Prop where
  cmd : s.cmd.legal (MemId.cells s.params .cmd)
  plane : s.plane.legal (MemId.cells s.params .plane)
  lotap : s.lotap.legal (MemId.cells s.params .lotap)
  hitap : s.hitap.legal (MemId.cells s.params .hitap)
  tree : s.tree.legal (MemId.cells s.params .tree)
  hbits : s.hbits.legal (MemId.cells s.params .hbits)
  hval : s.hval.legal (MemId.cells s.params .hval)
  bs : s.bs.legal (MemId.cells s.params .bs)
  res : s.res.legal (MemId.cells s.params .res)
  hder : s.hder.legal (MemId.cells s.params .hder)
  scr : s.scr.legal (MemId.cells s.params .scr)
  treeCells : ∀ c ∈ s.tree, treeCellLegal c = true
  hderCells : ∀ c ∈ s.hder, c.1 % 64 / 16 < 3

theorem memoriesLegal_iff (s : State) : s.memoriesLegal = true ↔ s.LegalMemories := by
  simp only [State.memoriesLegal, State.memoriesWf, State.memoriesWithin, Bool.and_eq_true, List.all_eq_true,
    decide_eq_true_eq]
  constructor
  · rintro ⟨⟨⟨hwf, hin⟩, htree⟩, hhder⟩
    obtain ⟨⟨⟨⟨⟨⟨⟨⟨⟨⟨w1, w2⟩, w3⟩, w4⟩, w5⟩, w6⟩, w7⟩, w8⟩, w9⟩, w10⟩, w11⟩ := hwf
    obtain ⟨⟨⟨⟨⟨⟨⟨⟨⟨⟨i1, i2⟩, i3⟩, i4⟩, i5⟩, i6⟩, i7⟩, i8⟩, i9⟩, i10⟩, i11⟩ := hin
    exact ⟨⟨w1, i1⟩, ⟨w2, i2⟩, ⟨w3, i3⟩, ⟨w4, i4⟩, ⟨w5, i5⟩, ⟨w6, i6⟩, ⟨w7, i7⟩, ⟨w8, i8⟩, ⟨w9, i9⟩, ⟨w10, i10⟩,
      ⟨w11, i11⟩, htree, hhder⟩
  · rintro ⟨⟨w1, i1⟩, ⟨w2, i2⟩, ⟨w3, i3⟩, ⟨w4, i4⟩, ⟨w5, i5⟩, ⟨w6, i6⟩, ⟨w7, i7⟩, ⟨w8, i8⟩, ⟨w9, i9⟩, ⟨w10, i10⟩,
      ⟨w11, i11⟩, htree, hhder⟩
    exact ⟨⟨⟨⟨⟨⟨⟨⟨⟨⟨⟨⟨⟨w1, w2⟩, w3⟩, w4⟩, w5⟩, w6⟩, w7⟩, w8⟩, w9⟩, w10⟩, w11⟩,
      ⟨⟨⟨⟨⟨⟨⟨⟨⟨⟨i1, i2⟩, i3⟩, i4⟩, i5⟩, i6⟩, i7⟩, i8⟩, i9⟩, i10⟩, i11⟩⟩, htree⟩, hhder⟩

/-- States with the same parameters and memories have legal memories together. -/
theorem State.LegalMemories.congr_regs {s t : State} (hs : s.LegalMemories)
    (h : t = { s with regs := t.regs, staleDraw := t.staleDraw, powerOn := t.powerOn, pending := t.pending,
                      hostData := t.hostData }) : t.LegalMemories := by
  rw [h]
  exact { hs with }

theorem legalMemories_of_hardReset (s : State) : s.hardReset.LegalMemories where
  cmd := Memory.legal_nil _
  plane := Memory.legal_nil _
  lotap := Memory.legal_nil _
  hitap := Memory.legal_nil _
  tree := Memory.legal_nil _
  hbits := Memory.legal_nil _
  hval := Memory.legal_nil _
  bs := Memory.legal_nil _
  res := Memory.legal_nil _
  hder := Memory.legal_nil _
  scr := Memory.legal_nil _
  treeCells := by simp
  hderCells := by simp

/-- An accepted pass writes inside its plane (R141). -/
theorem writes_lt_planeWords {p : Pass} {n : Nat} {s : State} (h : p.check n s = none) :
    ∀ c ∈ p.writes s (s.node n), c.1 < s.params.planeWords := by
  obtain ⟨⟨-, -, -, -, -, -, -, hplane⟩, ⟨-, -, hx, hy⟩, -⟩ := (check_none_iff p n s).1 h
  intro c hc
  obtain ⟨m, hm, j, hj, rfl⟩ := (mem_writes _ _ _ _).1 hc
  exact (cellIndex_lt p _ _ _ hx hy m j hm hj).trans_le hplane

theorem legalMemories_of_apply {p : Pass} {n : Nat} {s : State} (h : p.check n s = none) (hs : s.LegalMemories) :
    (p.apply s (s.node n)).LegalMemories := by
  have hws := writes_lt_planeWords h
  unfold Pass.apply
  split
  · exact { hs with scr := Memory.legal_storeAll hs.scr hws }
  · exact { hs with plane := Memory.legal_storeAll hs.plane hws }

theorem legalMemories_of_writeReg {s : State} (r : WReg) (v : Half) (hs : s.LegalMemories) :
    (s.writeReg r v).LegalMemories := by
  refine hs.congr_regs ?_
  cases r <;> rfl

theorem legalMemories_of_appendResult {s : State} (v : Half) (room : s.regs.resptr.toNat < s.params.resWords)
    (hs : s.LegalMemories) : (s.appendResult v).LegalMemories :=
  { hs with res := Memory.legal_store hs.res room v }

/-- A derived cell lies in `HDER`, outside its reserved array (R70, R71). -/
theorem hderIndex_legal {t l : Nat} (ht : t < Config.nHtab) (arr : DerivedArray) (h1 : 1 ≤ l) (h2 : l ≤ 16) :
    hderIndex t arr l < 512 ∧ hderIndex t arr l % 64 / 16 < 3 := by
  have ha := arr.number_lt
  unfold hderIndex
  simp only [Config.nHtab] at ht
  omega

theorem legalMemories_of_storeDerived {s : State} {t : Nat} {ws : List (Nat × Half)} (ht : t < Config.nHtab)
    (cells : derivedCells t ws) (hs : s.LegalMemories) :
    State.LegalMemories { s with hder := s.hder.storeAll ws } := by
  have hws : ∀ c ∈ ws, c.1 < 512 ∧ c.1 % 64 / 16 < 3 := by
    intro c hc
    obtain ⟨arr, l, h1, h2, hi⟩ := cells c hc
    rw [hi]
    exact hderIndex_legal ht arr h1 h2
  refine { hs with hder := Memory.legal_storeAll hs.hder fun c hc => (hws c hc).1, hderCells := fun c hc => ?_ }
  rcases Memory.mem_storeAll s.hder ws c hc with hc | hc
  · exact (hws c hc).2
  · exact hs.hderCells c hc

theorem legalMemories_of_update {s t : State} (h : Update s t) (hs : s.LegalMemories) : t.LegalMemories := by
  cases h with
  | pass p n accepted => exact legalMemories_of_apply accepted hs
  | writeReg r v => exact legalMemories_of_writeReg r v hs
  | deliverSymbol v room => exact legalMemories_of_appendResult (v.setWidth 16) room (hs.congr_regs rfl)
  | deliverBits v room => exact legalMemories_of_appendResult v room (hs.congr_regs rfl)
  | storeDerived t ws ht _ cells => exact legalMemories_of_storeDerived ht cells hs
  | _ => exact hs.congr_regs rfl

/-- What is stored of a written `TREE` cell is legal (R40, R71). -/
theorem treeCellLegal_of_mask {i : Nat} (hi : i % 8 < 6) (v : Half) : treeCellLegal (i, treeReadMask i v) = true := by
  by_cases h4 : i % 8 < 4
  · simp [treeCellLegal, hi, h4]
  · have hbit : (v &&& 1#16).toNat ≤ 1 := by
      rw [BitVec.toNat_and]
      exact Nat.and_le_right
    simpa [treeCellLegal, treeReadMask, hi, h4] using hbit

theorem legalMemories_of_hostWriteMem {s : State} {id : MemId} {i : Nat} (hi : i < id.cells s.params) (v : Word)
    (hs : s.LegalMemories) : (s.hostWriteMem id i v).LegalMemories := by
  cases id with
  | cmd => exact { hs with cmd := Memory.legal_store hs.cmd hi v }
  | plane => exact { hs with plane := Memory.legal_store hs.plane hi v }
  | lotap => exact { hs with lotap := Memory.legal_store hs.lotap hi v }
  | hitap => exact { hs with hitap := Memory.legal_store hs.hitap hi v }
  | tree =>
    unfold State.hostWriteMem
    dsimp only
    split
    · next h6 =>
      refine { hs with tree := Memory.legal_store hs.tree hi _, treeCells := fun c hc => ?_ }
      rcases Memory.mem_store _ _ _ _ hc with rfl | hc
      · exact treeCellLegal_of_mask h6 _
      · exact hs.treeCells c hc
    · exact hs
  | hbits => exact { hs with hbits := Memory.legal_store hs.hbits hi (v.setWidth 8) }
  | hval => exact { hs with hval := Memory.legal_store hs.hval hi (v.setWidth 8) }
  | bs => exact { hs with bs := Memory.legal_store hs.bs hi (v.setWidth 8) }
  | res => exact { hs with res := Memory.legal_store hs.res hi (v.setWidth 16) }
  | hder => rw [hostWriteMem_hder_frame]; exact hs.congr_regs rfl
  | scr => exact hs.congr_regs rfl

theorem legalMemories_keptByEngine : KeptByEngine State.LegalMemories where
  update := legalMemories_of_update
  advance hs := hs.congr_regs rfl
  raise _ _ hs := hs.congr_regs rfl
  halt _ hs := hs.congr_regs rfl

theorem legalMemories_keptByHost : KeptByHost State.LegalMemories where
  events _ hs := hs.congr_regs rfl
  answer _ _ hs := hs.congr_regs rfl
  start _ hs := hs.congr_regs rfl
  cell inside v hs := legalMemories_of_hostWriteMem inside v hs
  softReset hs := hs.congr_regs rfl
  hardReset {s} _ := legalMemories_of_hardReset s

/-- Settles O48: every update of a command and every access of the host writes legal cells only. -/
theorem memoriesStayLegal : Obligations.MemoriesStayLegal := by
  intro s t hs h
  rw [memoriesLegal_iff] at hs ⊢
  exact step_keeps legalMemories_keptByEngine legalMemories_keptByHost hs h

end Sys2Proof.Machine
end

section
/-! The registers' consistency (`10_state.md` R27, R34 to R37, `60_exceptions.md` R251) through one step. -/

namespace Sys2Proof.Machine

/-- `Regs.consistent` by name. -/
structure Regs.Consistent (r : Regs) : Prop where
  bitcnt : r.bitcnt.toNat ≤ 8
  built : ∀ i, r.hbuilt.getLsbD i = true → r.hdef.getLsbD i = true
  fault : r.state = .fault ↔ r.err ≠ 0
  err : r.err.toNat ≤ 8
  found : r.mkf = true → 0xFF01 ≤ r.marker.toNat ∧ r.bitcnt = 0
  noMarker : r.mkf = false → r.marker = 0

/-- One mask lies in another where each of its bits does. -/
theorem and_eq_left_iff_getLsbD {w : Nat} (a b : BitVec w) :
    a &&& b = a ↔ ∀ i, a.getLsbD i = true → b.getLsbD i = true := by
  constructor
  · intro h i hi
    rw [← h, BitVec.getLsbD_and, Bool.and_eq_true] at hi
    exact hi.2
  · intro h
    refine BitVec.eq_of_getLsbD_eq fun i _ => ?_
    rw [BitVec.getLsbD_and]
    cases hi : a.getLsbD i
    · rfl
    · rw [h i hi]; rfl

theorem consistent_iff (r : Regs) : r.consistent = true ↔ r.Consistent := by
  have hbuilt := and_eq_left_iff_getLsbD r.hbuilt r.hdef
  have hfault : (decide (r.state = .fault) == decide (r.err ≠ 0)) = true ↔ (r.state = .fault ↔ r.err ≠ 0) := by
    rw [beq_iff_eq, decide_eq_decide]
  simp only [Regs.consistent, Bool.and_eq_true, hfault, decide_eq_true_eq, hbuilt]
  cases hm : r.mkf
  · simp only [Bool.false_eq_true, if_false, decide_eq_true_eq]
    constructor
    · rintro ⟨⟨⟨⟨h1, h2⟩, h3⟩, h4⟩, h5⟩
      exact ⟨h1, h2, h3, h4, by simp [hm], fun _ => h5⟩
    · exact fun h => ⟨⟨⟨⟨h.bitcnt, h.built⟩, h.fault⟩, h.err⟩, h.noMarker hm⟩
  · simp only [if_true, Bool.and_eq_true, decide_eq_true_eq]
    constructor
    · rintro ⟨⟨⟨⟨h1, h2⟩, h3⟩, h4⟩, h5⟩
      exact ⟨h1, h2, h3, h4, fun _ => h5, by simp [hm]⟩
    · exact fun h => ⟨⟨⟨⟨h.bitcnt, h.built⟩, h.fault⟩, h.err⟩, h.found hm⟩

theorem consistent_reset : Regs.reset.Consistent := (consistent_iff _).1 (by decide)

/-- Registers that agree on the fields consistency speaks of are consistent together. -/
theorem Regs.Consistent.congr {r q : Regs} (h : r.Consistent)
    (e : q = { r with
      symv := q.symv, bitv := q.bitv, warn := q.warn, hosterr := q.hosterr, errinfo := q.errinfo, cp := q.cp
      cpstart := q.cpstart, nnodes := q.nnodes, width := q.width, height := q.height, lsz := q.lsz, hsz := q.hsz
      bsptr := q.bsptr, bsend := q.bsend, bitbuf := q.bitbuf, hwarn := q.hwarn, hselId := q.hselId
      hselValid := q.hselValid, sym := q.sym, bits := q.bits, resptr := q.resptr }) : q.Consistent := by
  rw [e]
  exact { h with }

/-- Unbuilding tables keeps the built ones defined (R36, R37). -/
theorem Regs.Consistent.unbuild {r : Regs} (h : r.Consistent) (mask : BitVec 8) :
    Regs.Consistent { r with hbuilt := r.hbuilt &&& mask } where
  bitcnt := h.bitcnt
  built i hi := h.built i (by rw [BitVec.getLsbD_and, Bool.and_eq_true] at hi; exact hi.1)
  fault := h.fault
  err := h.err
  found := h.found
  noMarker := h.noMarker

theorem consistent_of_writeReg {s : State} (r : WReg) (v : Half) (hs : s.regs.Consistent) :
    (s.writeReg r v).regs.Consistent := by
  cases r with
  | hdef =>
    refine { hs.unbuild (v.setWidth 8) with built := fun i hi => ?_ }
    rw [State.writeReg, State.unbuild, BitVec.getLsbD_and, Bool.and_eq_true] at hi
    exact hi.2
  | _ => exact hs.congr rfl

theorem consistent_of_markBuilt {s : State} {t : Nat} (allones : Bool) (defined : s.regs.hdef.getLsbD t = true)
    (hs : s.regs.Consistent) : (s.markBuilt t allones).regs.Consistent where
  bitcnt := hs.bitcnt
  built i hi := by
    rw [State.markBuilt_regs_hbuilt, getLsbD_setTableBit, Bool.or_eq_true] at hi
    rcases hi with hi | hi
    · exact hs.built i hi
    · simp only [Bool.and_eq_true, decide_eq_true_eq] at hi
      rw [hi.2]; exact defined
  fault := hs.fault
  err := hs.err
  found := hs.found
  noMarker := hs.noMarker

theorem toNat_sub_one {c : BitVec 4} (h : c ≠ 0) : (c - 1).toNat = c.toNat - 1 := by bv_omega

/-- A marker found: its second byte is not 0 (R35, R210). -/
theorem consistent_of_setMarker {s : State} {b2 : Byte} (nonzero : b2 ≠ 0x00#8) (empty : s.regs.bitcnt = 0)
    (hs : s.regs.Consistent) : (s.setMarker b2).regs.Consistent where
  bitcnt := hs.bitcnt
  built := hs.built
  fault := hs.fault
  err := hs.err
  found _ := by
    refine ⟨?_, empty⟩
    have hb : b2.toNat ≠ 0 := fun h => nonzero (BitVec.eq_of_toNat_eq h)
    rw [State.setMarker_regs_marker, BitVec.toNat_append, ← Nat.shiftLeft_add_eq_or_of_lt b2.isLt]
    exact Nat.add_le_add_left (Nat.one_le_iff_ne_zero.2 hb) (0xFF <<< 8)
  noMarker h := by simp at h

theorem consistent_of_update {s t : State} (h : Update s t) (hs : s.regs.Consistent) : t.regs.Consistent := by
  cases h with
  | pass p n accepted => rw [apply_regs]; exact hs
  | writeReg r v => exact consistent_of_writeReg r v hs
  | clearReader => exact { hs with bitcnt := by simp, found := by simp, noMarker := by simp }
  | loadByte b noMarker =>
    exact { hs with
      bitcnt := by simp
      found := by simp [noMarker]
      noMarker := fun _ => hs.noMarker noMarker }
  | takeBit left =>
    have hcnt := hs.bitcnt
    exact { hs with
      bitcnt := by rw [toNat_sub_one left]; omega
      found := fun h => absurd (hs.found h).2 left }
  | setMarker b2 nonzero empty => exact consistent_of_setMarker nonzero empty hs
  | unbuild t => exact hs.unbuild _
  | storeDerived t ws _ _ _ => exact hs
  | markBuilt t allones defined _ _ => exact consistent_of_markBuilt allones defined hs
  | _ => exact hs.congr rfl

theorem consistent_of_hostWriteMem {s : State} (id : MemId) (i : Nat) (v : Word) (hs : s.regs.Consistent) :
    (s.hostWriteMem id i v).regs.Consistent := by
  cases id with
  | tree => rw [hostWriteMem_tree_frame]; exact hs
  | hder => rw [hostWriteMem_hder_frame]; exact hs.congr rfl
  | hbits => exact hs.unbuild _
  | hval => exact hs.unbuild _
  | _ => exact hs.congr rfl

/-- The registers of a state are consistent. -/
def State.regsConsistent (s : State) : Prop := s.regs.Consistent

/-- A state that is not in `FAULT` has no error, and may leave it so (R27, R251). -/
theorem Regs.Consistent.withState {r : Regs} (h : r.Consistent) (hr : r.state ≠ .fault) {q : RunState}
    (hq : q ≠ .fault) : Regs.Consistent { r with state := q } :=
  { h with fault := iff_of_false hq fun he => hr (h.fault.2 he) }

theorem ErrCode.code_range (e : ErrCode) : e.code ≠ 0 ∧ e.code.toNat ≤ 8 := by cases e <;> decide

/-- A fault records a code of R251. -/
theorem Regs.Consistent.raise {r : Regs} (h : r.Consistent) (e : ErrCode) (info : Half) :
    Regs.Consistent { r with err := e.code, errinfo := info, state := .fault } :=
  { h with fault := iff_of_true rfl e.code_range.1, err := e.code_range.2 }

theorem regsConsistent_keptByEngine : KeptByEngine State.regsConsistent where
  update := consistent_of_update
  advance hs := Regs.Consistent.congr hs rfl
  raise e info hs := Regs.Consistent.raise hs e info
  halt running hs := Regs.Consistent.withState hs (by simp [running]) (by decide)

theorem regsConsistent_keptByHost : KeptByHost State.regsConsistent where
  events _ hs := hs
  answer _ _ hs := Regs.Consistent.congr hs rfl
  start {s} stopped hs := by
    have hr : s.regs.state ≠ .fault := by rcases stopped with h | h <;> simp [h]
    exact (Regs.Consistent.withState hs hr (q := .run) (by decide)).congr rfl
  cell {s id i} _ v hs := consistent_of_hostWriteMem id i v hs
  softReset _ := consistent_reset
  hardReset _ := consistent_reset

/-- Settles O49: every update of a command, every end and every access of the host keeps each of the relations. -/
theorem registersStayConsistent : Obligations.RegistersStayConsistent := by
  intro s t hs h
  rw [consistent_iff] at hs ⊢
  exact step_keeps regsConsistent_keptByEngine regsConsistent_keptByHost hs h

end Sys2Proof.Machine
end

section
/-! The truth of `HBUILT` (`10_state.md` R37, `43_huffman_decoder.md` R221) through one step: a table's arrays depend
on its own 16 counts and its own derived cells, and whatever writes either of these takes the table's bit away. -/

namespace Sys2Proof.Machine

/-! ### The canonical code reads the counts of lengths 1 to 16 -/

theorem countsUpTo_congr {n n' : Nat → Nat} {k : Nat} (h : ∀ l, 1 ≤ l → l ≤ k → n l = n' l) :
    countsUpTo n k = countsUpTo n' k := by
  induction k with
  | zero => rfl
  | succ k ih =>
    rw [countsUpTo_succ, countsUpTo_succ, ih fun l h1 h2 => h l h1 (by omega), h (k + 1) (by omega) (le_refl _)]

theorem firstCode_congr {n n' : Nat → Nat} {k : Nat} (h : ∀ l, 1 ≤ l → l < k → n l = n' l) :
    firstCode n k = firstCode n' k := by
  induction k with
  | zero => rfl
  | succ k ih =>
    rcases Nat.eq_zero_or_pos k with rfl | hk
    · rfl
    · rw [firstCode_succ n k hk, firstCode_succ n' k hk, ih fun l h1 h2 => h l h1 (by omega), h k hk (by omega)]

theorem tableValid_congr {n n' : Nat → Nat} (h : ∀ l, 1 ≤ l → l ≤ 16 → n l = n' l) : tableValid n = tableValid n' := by
  have hfit : codesFit n 16 = codesFit n' 16 := by
    rw [Bool.eq_iff_iff, codesFit_iff, codesFit_iff]
    refine forall_congr' fun l => forall_congr' fun h1 => forall_congr' fun h2 => ?_
    rw [h l h1 h2, firstCode_congr fun i hi1 hi2 => h i hi1 (by omega)]
  rw [tableValid, tableValid, countsUpTo_congr h, hfit]

theorem derivedOf_congr {n n' : Nat → Nat} {l : Nat} (h : ∀ i, 1 ≤ i → i ≤ 16 → n i = n' i) (h1 : 1 ≤ l) (h2 : l ≤ 16) :
    derivedOf n l = derivedOf n' l := by
  rw [derivedOf, derivedOf, h l h1 h2, firstCode_congr fun i hi1 hi2 => h i hi1 (by omega),
    countsUpTo_congr fun i hi1 hi2 => h i hi1 (by omega)]

theorem derivedValue_congr {n n' : Nat → Nat} {l : Nat} (h : ∀ i, 1 ≤ i → i ≤ 16 → n i = n' i) (h1 : 1 ≤ l)
    (h2 : l ≤ 16) (arr : DerivedArray) : derivedValue n l arr = derivedValue n' l arr := by
  cases arr <;> simp only [derivedValue, derivedOf_congr h h1 h2]

/-! ### One table -/

/-- Table `t` is valid and its derived arrays are those of its counts (R37). -/
def State.tableExact (s : State) (t : Nat) : Prop := tableValid (s.count t) = true ∧ s.derivedExact t = true

/-- A table's exactness reads its own counts and its own derived cells. -/
theorem State.tableExact.congr {s u : State} {t : Nat} (hs : s.tableExact t)
    (hcount : ∀ l, 1 ≤ l → l ≤ 16 → u.count t l = s.count t l)
    (hder : ∀ arr l, 1 ≤ l → l ≤ 16 → u.hder.lookup (hderIndex t arr l) = s.hder.lookup (hderIndex t arr l)) :
    u.tableExact t := by
  refine ⟨(tableValid_congr hcount).trans hs.1, (derivedExact_iff u t).2 fun arr l h1 h2 => ?_⟩
  rw [hder arr l h1 h2, derivedValue_congr hcount h1 h2, (derivedExact_iff s t).1 hs.2 arr l h1 h2]

/-- The tables stay exact where the counts, the derived cells and the draws do and no table is built. -/
theorem State.tablesExact.congr {s u : State} (hs : s.tablesExact) (hbits : u.hbits = s.hbits) (hder : u.hder = s.hder)
    (hpower : u.powerOn = s.powerOn)
    (hbuilt : ∀ t, u.regs.hbuilt.getLsbD t = true → s.regs.hbuilt.getLsbD t = true) : u.tablesExact := by
  intro t ht hb
  refine State.tableExact.congr (hs t ht (hbuilt t hb)) (fun l _ _ => ?_) fun _ _ _ _ => by rw [hder]
  simp only [State.count, State.hbitsAt, State.cell, hbits, hpower]

theorem tablesExact_of_unbuilt {s : State} (h : s.regs.hbuilt = 0) : s.tablesExact := by
  intro t _ hb
  rw [h] at hb
  simp at hb

/-! ### The updates that touch a table -/

theorem tablesExact_unbuild {s : State} (mask : BitVec 8) (hs : s.tablesExact) : (s.unbuild mask).tablesExact :=
  hs.congr rfl rfl rfl fun t hb => by
    rw [State.unbuild_regs_hbuilt, BitVec.getLsbD_and, Bool.and_eq_true] at hb
    exact hb.1

theorem tablesExact_writeReg {s : State} (r : WReg) (v : Half) (hs : s.tablesExact) : (s.writeReg r v).tablesExact := by
  cases r with
  | hdef => exact tablesExact_unbuild _ hs
  | _ => exact hs

/-- Derived cells of an unbuilt table say nothing of the others. -/
theorem tablesExact_storeDerived {s : State} {t : Nat} {ws : List (Nat × Half)}
    (unbuilt : s.regs.hbuilt.getLsbD t = false) (cells : derivedCells t ws) (hs : s.tablesExact) :
    State.tablesExact { s with hder := s.hder.storeAll ws } := by
  intro t' ht' hb
  refine State.tableExact.congr (hs t' ht' hb) (fun _ _ _ => rfl) fun arr l h1 h2 => ?_
  refine Memory.lookup_storeAll_other _ _ _ fun hmem => ?_
  obtain ⟨c, hc, hi⟩ := List.mem_map.1 hmem
  obtain ⟨arr', l', h1', h2', hi'⟩ := cells c hc
  obtain ⟨rfl, -, -⟩ := hderIndex_inj h1' h2' h1 h2 (hi'.symm.trans hi)
  exact absurd hb (by simp [unbuilt])

theorem tablesExact_markBuilt {s : State} {t : Nat} (allones : Bool) (exact : s.tableExact t) (hs : s.tablesExact) :
    (s.markBuilt t allones).tablesExact := by
  intro t' ht' hb
  rw [State.markBuilt_regs_hbuilt, getLsbD_setTableBit, Bool.or_eq_true] at hb
  rcases hb with hb | hb
  · exact hs t' ht' hb
  · simp only [Bool.and_eq_true, decide_eq_true_eq] at hb
    obtain ⟨-, rfl⟩ := hb
    exact exact

theorem tablesExact_of_update {s u : State} (h : Update s u) (hs : s.tablesExact) : u.tablesExact := by
  cases h with
  | pass p n accepted => rw [(apply_frame p s (s.node n)).1]; exact hs
  | writeReg r v => exact tablesExact_writeReg r v hs
  | unbuild t => exact tablesExact_unbuild _ hs
  | storeDerived t ws _ unbuilt cells => exact tablesExact_storeDerived unbuilt cells hs
  | markBuilt t allones _ valid exact => exact tablesExact_markBuilt allones ⟨valid, exact⟩ hs
  | _ => exact hs

/-! ### The host's writes -/

/-- A write into one table's counts leaves the other tables' counts (R70). -/
theorem count_store_other {s : State} {i t l : Nat} (h : t ≠ i / 16) (h1 : 1 ≤ l) (h2 : l ≤ 16) (v : Byte) :
    State.count { s with hbits := s.hbits.store i v } t l = s.count t l := by
  have hne : hbitsIndex t l ≠ i := by unfold hbitsIndex; omega
  simp only [State.count, State.hbitsAt, State.cell, Memory.lookup_store_other _ _ _ _ hne]

theorem tablesExact_writeCounts {s : State} (i : Nat) (v : Byte) (hs : s.tablesExact) :
    State.tablesExact { s.unbuild (~~~ (tableBit (i / 16))) with hbits := s.hbits.store i v } := by
  intro t ht hb
  have hbit := (getLsbD_and_not_tableBit s.regs.hbuilt (i / 16) t).symm.trans hb
  simp only [Bool.and_eq_true, decide_eq_true_eq] at hbit
  exact State.tableExact.congr (hs t ht hbit.1) (fun l h1 h2 => count_store_other hbit.2 h1 h2 v) fun _ _ _ _ => rfl

theorem tablesExact_hostWriteMem {s : State} (id : MemId) (i : Nat) (v : Word) (hs : s.tablesExact) :
    (s.hostWriteMem id i v).tablesExact := by
  cases id with
  | tree => rw [hostWriteMem_tree_frame]; exact hs
  | hder => rw [hostWriteMem_hder_frame]; exact hs
  | hbits => exact tablesExact_writeCounts i _ hs
  | hval => exact tablesExact_unbuild (~~~ (tableBit (i / 256))) hs
  | _ => exact hs

theorem tablesExact_keptByEngine : KeptByEngine State.tablesExact where
  update := tablesExact_of_update
  advance hs := hs
  raise _ _ hs := hs
  halt _ hs := hs

theorem tablesExact_keptByHost : KeptByHost State.tablesExact where
  events _ hs := hs
  answer _ _ hs := hs
  start _ hs := hs
  cell {_ id i} _ v hs := tablesExact_hostWriteMem id i v hs
  softReset _ := tablesExact_of_unbuilt rfl
  hardReset _ := tablesExact_of_unbuilt rfl

/-- Settles O47: only a completed `HBUILD` sets a bit of `HBUILT`, and every write of a table's counts or derived cells
comes with the bit cleared. -/
theorem builtTablesStayExact : Obligations.BuiltTablesStayExact := by
  intro s t hs h
  exact step_keeps tablesExact_keptByEngine tablesExact_keptByHost hs h

end Sys2Proof.Machine
end

section
/-! The memories the host owns (`10_state.md` R40 to R42, R45, `20_memory.md` R82) through one command. -/

namespace Sys2Proof.Machine

/-- What a command may leave different: `PLANE`, `SCR`, `RES`, `HDER`, the draw of unbuilt arrays and the registers, of
these `HOSTERR` as it was and `WARN` at most set. -/
structure CommandFrame (s t : State) : Prop where
  rest : t = { s with plane := t.plane, scr := t.scr, res := t.res, hder := t.hder, staleDraw := t.staleDraw,
                      regs := t.regs }
  hosterr : t.regs.hosterr = s.regs.hosterr
  warn : s.regs.warn = true → t.regs.warn = true

theorem CommandFrame.refl (s : State) : CommandFrame s s := ⟨rfl, rfl, id⟩

theorem CommandFrame.trans {s t u : State} (h1 : CommandFrame s t) (h2 : CommandFrame t u) : CommandFrame s u where
  rest := by
    have h := h2.rest
    rw [h1.rest] at h
    exact h
  hosterr := h2.hosterr.trans h1.hosterr
  warn h := h2.warn (h1.warn h)

theorem Update.frame {s t : State} (h : Update s t) : CommandFrame s t := by
  cases h with
  | pass p n accepted =>
    have hregs := apply_regs p s (s.node n)
    exact ⟨by unfold Pass.apply; split <;> rfl, by rw [hregs], by rw [hregs]; exact id⟩
  | writeReg r v => exact ⟨by cases r <;> rfl, by simp, by simp⟩
  | markBuilt t allones => exact ⟨rfl, rfl, fun h => by simp [h]⟩
  | _ => exact ⟨rfl, rfl, id⟩

theorem reaches_frame {s t : State} (h : Reaches s t) : CommandFrame s t := by
  induction h with
  | refl => exact .refl s
  | tail _ h ih => exact ih.trans h.frame

theorem exec_frame (i : Instr) {s t : State} (h : exec i s = .next t) : CommandFrame s t := by
  cases exec_commandEnd i h with
  | done hu => exact (reaches_frame hu).trans ⟨rfl, rfl, id⟩
  | raised hu e info => exact (reaches_frame hu).trans ⟨rfl, rfl, id⟩
  | halted => exact ⟨rfl, rfl, id⟩

/-- Settles O17: the frame of every update, along a command's chain of them and over its end. -/
theorem commandsKeepTheHostsMemories : Obligations.CommandsKeepTheHostsMemories := by
  intro i s t h
  obtain ⟨hrest, hhosterr, hwarn⟩ := exec_frame i h
  rw [hrest]
  exact ⟨rfl, rfl, rfl, rfl, rfl, rfl, rfl, rfl, rfl, rfl, rfl, hhosterr,
    fun ht => Bool.eq_false_iff.2 fun hs => by simp [hwarn hs] at ht⟩

end Sys2Proof.Machine
end

section
/-! The checks of the whole-tree commands (`10_state.md` R31, `41_filter_analysis.md` R152, `42_filter_synthesis.md`
R182, `60_exceptions.md` R256). -/

namespace Sys2Proof.Machine

/-- A bad configuration is reported with its sub-code before any node is looked at (R140, R256). -/
theorem checkCfg_of_not_bankLegal {s : State} (h : ¬ s.bankLegal) :
    ∃ info, 1 ≤ info ∧ info ≤ 5 ∧ s.checkCfg = some (.cfg, BitVec.ofNat 16 info) ∧
      ∀ n ok, s.filterFault n ok = some (3, BitVec.ofNat 16 info) := by
  have hw : s.regs.width = 0 ↔ s.regs.width.toNat = 0 := by rw [BitVec.toNat_eq]; simp
  have hh : s.regs.height = 0 ↔ s.regs.height.toNat = 0 := by rw [BitVec.toNat_eq]; simp
  unfold State.checkCfg State.filterFault
  simp only [hw, hh, gt_iff_lt]
  by_cases h1 : s.regs.lsz.toNat < 2 ∨ 16 < s.regs.lsz.toNat
  · exact ⟨1, by decide, by decide, if_pos h1, fun _ _ => if_pos h1⟩
  by_cases h2 : s.regs.hsz.toNat < 2 ∨ 16 < s.regs.hsz.toNat
  · simp only [if_neg h1]
    exact ⟨2, by decide, by decide, if_pos h2, fun _ _ => if_pos h2⟩
  by_cases h3 : s.regs.lsz.toNat % 2 = s.regs.hsz.toNat % 2
  swap
  · simp only [if_neg h1, if_neg h2]
    exact ⟨3, by decide, by decide, if_pos h3, fun _ _ => if_pos h3⟩
  by_cases h4 : s.regs.width.toNat = 0 ∨ s.regs.height.toNat = 0
  · simp only [if_neg h1, if_neg h2, if_neg (not_not.2 h3)]
    exact ⟨4, by decide, by decide, if_pos h4, fun _ _ => if_pos h4⟩
  by_cases h5 : s.params.planeWords < s.regs.width.toNat * s.regs.height.toNat
  · simp only [if_neg h1, if_neg h2, if_neg (not_not.2 h3), if_neg h4]
    exact ⟨5, by decide, by decide, if_pos h5, fun _ _ => if_pos h5⟩
  · exact absurd ⟨by omega, by omega, by omega, by omega, h3, by omega, by omega, by omega⟩ h

theorem run_of_checkCfg {s : State} {e : ErrCode} {info : Half} (h : s.checkCfg = some (e, info)) (p : Pass) (n : Nat) :
    p.run n s = .raised s e info := by
  rw [Pass.run, Pass.check, h, firstRaise]

/-- A loop over at least one node stops at the configuration check of its first pass. -/
theorem runNodes_of_checkCfg {s : State} {e : ErrCode} {info : Half} (h : s.checkCfg = some (e, info))
    (first second : Pass) {l : List Nat} (hl : l ≠ []) : runNodes first second l s = .raised s e info := by
  cases l with
  | nil => exact absurd rfl hl
  | cons n rest => rw [runNodes, run_of_checkCfg h, andThen_raised, andThen_raised]

/-- The two whole-tree commands are one form: a loop over as many nodes as `NNODES` says (R152, R182). -/
theorem exec_wholeTree {i : Instr} (h : i = .decomp ∨ i = .recon) (s : State) :
    ∃ first second l, l.length = s.regs.nnodes.toNat ∧ exec i s = finish (wholeTree s (runNodes first second l)) := by
  rcases h with rfl | rfl
  · exact ⟨.frow, .fcol, List.range s.regs.nnodes.toNat, by simp, rfl⟩
  · exact ⟨.icol, .irow, (List.range s.regs.nnodes.toNat).reverse, by simp, rfl⟩

/-- Settles O31: `NNODES` decides between the whole-tree check, the empty loop and the first pass's own checks. -/
theorem wholeTreeCommandsCheckNnodes : Obligations.WholeTreeCommandsCheckNnodes := by
  intro s i hi
  obtain ⟨first, second, l, hlen, he⟩ := exec_wholeTree hi s
  have within (h : s.regs.nnodes.toNat ≤ 20) : exec i s = finish (runNodes first second l s) := by
    rw [he, wholeTree, if_neg (by simpa [Config.nTree] using h)]
  refine ⟨fun h => ?_, fun h => ?_, fun h1 h2 hbad => ?_⟩
  · rw [he, wholeTree, if_pos h]
    rfl
  · rw [within (by omega), List.length_eq_zero_iff.1 (hlen.trans h)]
    rfl
  · obtain ⟨info, hlo, hhi, hcfg, hfault⟩ := checkCfg_of_not_bankLegal hbad
    refine ⟨info, hlo, hhi, fun n => hfault n true, ?_⟩
    have hl : l ≠ [] := List.ne_nil_of_length_pos (by omega)
    rw [within h2, runNodes_of_checkCfg hcfg first second hl]
    rfl

end Sys2Proof.Machine
end

section
/-! `GETB` from the accumulator (`10_state.md` R34, `43_huffman_decoder.md` R210, R224). -/

namespace Sys2Proof.Machine

theorem nextBit_of_bitcnt {s : State} (h : s.regs.bitcnt.toNat ≠ 0) :
    s.nextBit = .bit (s.regs.bitbuf.getLsbD (s.regs.bitcnt.toNat - 1))
      { s with regs.bitcnt := BitVec.ofNat 4 (s.regs.bitcnt.toNat - 1) } := by
  have h0 : s.regs.bitcnt ≠ 0 := fun h0 => h (by rw [h0]; rfl)
  have hsub : s.regs.bitcnt - 1 = BitVec.ofNat 4 (s.regs.bitcnt.toNat - 1) := by
    rw [← toNat_sub_one h0, BitVec.ofNat_toNat, BitVec.setWidth_eq]
  rw [State.nextBit, if_neg h0, State.takeBit, toNat_sub_one h0, hsub]

/-- The highest of `n + 1` bits and then the other `n`, as numbers. -/
theorem div_two_pow_mod_succ (x c n : Nat) (h : n + 1 ≤ c) :
    x / 2 ^ (c - (n + 1)) % 2 ^ (n + 1) =
      (x.testBit (c - 1)).toNat * 2 ^ n + x / 2 ^ (c - 1 - n) % 2 ^ n := by
  have hc : c - 1 - n = c - (n + 1) := by omega
  have hbit : (x.testBit (c - 1)).toNat = x / 2 ^ (c - (n + 1)) / 2 ^ n % 2 := by
    rw [Nat.toNat_testBit, Nat.div_div_eq_div_mul, ← pow_add]
    congr 3
    omega
  rw [hc, hbit, Nat.mod_pow_succ]
  ring

/-- Reading within the accumulator takes its highest unread bits, first bit most significant, and no byte. -/
theorem readBits_of_bitcnt {s : State} {n : Nat} (h : n ≤ s.regs.bitcnt.toNat) (v : Nat) :
    s.readBits n v =
      .value (v * 2 ^ n + s.regs.bitbuf.toNat / 2 ^ (s.regs.bitcnt.toNat - n) % 2 ^ n)
        { s with regs.bitcnt := BitVec.ofNat 4 (s.regs.bitcnt.toNat - n) } := by
  induction n generalizing s v with
  | zero => simp [State.readBits, Nat.mod_one]
  | succ n ih =>
    have hlt := s.regs.bitcnt.isLt
    have hcnt : (BitVec.ofNat 4 (s.regs.bitcnt.toNat - 1)).toNat = s.regs.bitcnt.toNat - 1 := by
      rw [BitVec.toNat_ofNat, Nat.mod_eq_of_lt (by omega)]
    rw [readBits_succ _ _ _ _ _ (nextBit_of_bitcnt (by omega)), ih (by rw [hcnt]; omega)]
    simp only [hcnt, BitsResult.value.injEq]
    refine ⟨?_, ?_⟩
    · rw [div_two_pow_mod_succ _ _ _ h, ← BitVec.testBit_toNat, pow_succ]
      ring
    · rw [Nat.sub_sub, Nat.add_comm 1 n]

/-- Past its checks, `GETB` delivers the bits it has read (R224). -/
theorem getbCount_of_value {s u : State} {n v : Nat} (hs : s.readReady) (h : s.clearBitv.readBits n 0 = .value v u) :
    getbCount n s = .done (u.deliverBits (BitVec.ofNat 16 v)) := by
  rw [getbCount, readerReady, if_neg (by simp [hs.1]), if_neg (by simpa using hs.2), h]

/-- Settles O43: with enough bits in the accumulator `GETB` passes its checks and reads only there. -/
theorem getbTakesTheAccumulatorsHighBits : Obligations.GetbTakesTheAccumulatorsHighBits := by
  intro s n h1 hn h8 hm hr
  have hlegal : countLegal n = true := (countLegal_iff n).2 ⟨h1, by omega⟩
  have hbits := readBits_of_bitcnt (s := s.clearBitv) (n := n.toNat) hn 0
  rw [Nat.zero_mul, Nat.zero_add] at hbits
  show finish (withCount 0x24 n s getbCount) = _
  rw [withCount_legal _ _ _ _ hlegal, getbCount_of_value ⟨hm, hr⟩ hbits]
  rfl

end Sys2Proof.Machine
end

section
/-! The host port (`10_state.md` R24 to R29, `20_memory.md` R70, R71, R77, R79): what each kind of access does, once,
and the statements about refused accesses, reads, writes and reset. -/

namespace Sys2Proof.Machine

theorem step_of_read {s : State} {rest : List HostEvent} {space index : Nat}
    (h : s.pending = .read space index :: rest) :
    step s = .next (State.hostRead { s with pending := rest } space index) := by
  rw [step, h]

theorem step_of_write {s : State} {rest : List HostEvent} {space index : Nat} {v : Word}
    (h : s.pending = .write space index v :: rest) :
    step s = .next (State.hostWrite { s with pending := rest } space index v) := by
  rw [step, h]

theorem step_of_hardReset {s : State} {rest : List HostEvent} (h : s.pending = .hardReset :: rest) :
    step s = .next (State.hardReset { s with pending := rest }) := by
  rw [step, h]

/-! ### Spaces and registers -/

theorem spaceMem_ne_zero {space : Nat} {id : MemId} (h : spaceMem space = some id) : space ≠ 0 := by
  rintro rfl
  cases h

theorem spaceMem_ne_scr (space : Nat) : spaceMem space ≠ some .scr := by
  unfold spaceMem
  split <;> simp

/-- Numbers above 10 are no spaces (R71). -/
theorem spaceMem_eq_none {space : Nat} (h : 11 ≤ space) : spaceMem space = none := by
  obtain ⟨k, rfl⟩ := Nat.exists_eq_add_of_le' h
  rfl

theorem ofIndex_eq_none {i : Nat} (h : 0x18 ≤ i) : WReg.ofIndex? i = none := by
  obtain ⟨k, rfl⟩ := Nat.exists_eq_add_of_le' h
  rfl

/-- Past index 0x17 there is no register (R24, R29). -/
theorem regs_hostRead_eq_none {i : Nat} (h : 0x18 ≤ i) (r : Regs) : r.hostRead i = none := by
  obtain ⟨k, rfl⟩ := Nat.exists_eq_add_of_le' h
  exact congrArg (Option.map r.readW) (ofIndex_eq_none h)

/-- Every index of the table under R24 has a register. -/
theorem regs_hostRead_isSome {i : Nat} (h : i < 0x18) (r : Regs) : ∃ v, r.hostRead i = some v := by
  interval_cases i <;> exact ⟨_, rfl⟩

/-! ### Reads -/

section Reads

variable {s : State} {space index : Nat}

theorem hostValue_reg (s : State) (index : Nat) :
    s.hostValue 0 index = (s.regs.hostRead index).map (·.setWidth 32) := by
  rw [State.hostValue, if_pos rfl]

theorem hostValue_mem {id : MemId} (hr : s.regs.state ≠ .run) (hm : spaceMem space = some id)
    (hi : index < id.cells s.params) : s.hostValue space index = some (s.memRead id index) := by
  simp only [State.hostValue, if_neg (spaceMem_ne_zero hm), if_neg hr, hm, if_pos hi]

theorem hostRead_of_value {v : Word} (h : s.hostValue space index = some v) :
    s.hostRead space index = { s with hostData := v } := by
  rw [State.hostRead, h]

/-- A refused read delivers 0 (R29). -/
theorem hostRead_of_none (h : s.hostValue space index = none) :
    s.hostRead space index = { s.setHosterr with hostData := 0 } := by
  rw [State.hostRead, h]

/-- The reads the port refuses (R29, R71). -/
theorem hostValue_eq_none (h : (s.regs.state = .run ∧ space ≠ 0) ∨ 11 ≤ space ∨ (space = 0 ∧ 0x18 ≤ index) ∨
    (∃ id, spaceMem space = some id ∧ id.cells s.params ≤ index)) : s.hostValue space index = none := by
  rcases h with ⟨hr, h0⟩ | h | ⟨rfl, hi⟩ | ⟨id, hm, hi⟩
  · rw [State.hostValue, if_neg h0, if_pos hr]
  · simp [State.hostValue, spaceMem_eq_none h, show space ≠ 0 by omega]
  · rw [hostValue_reg, regs_hostRead_eq_none hi]
    rfl
  · simp [State.hostValue, hm, spaceMem_ne_zero hm, hi]

/-- The step of an accepted read of a memory cell outside a run (R70). -/
theorem step_of_read_mem {id : MemId} {rest : List HostEvent} (h : s.pending = .read space index :: rest)
    (hr : s.regs.state ≠ .run) (hm : spaceMem space = some id) (hi : index < id.cells s.params) :
    step s = .next { s with pending := rest, hostData := s.memRead id index } := by
  rw [step_of_read h, hostRead_of_value (hostValue_mem (s := { s with pending := rest }) hr hm hi)]
  cases id <;> rfl

end Reads

/-! ### Writes -/

section Writes

variable {s : State} {space index : Nat} (v : Word)

theorem hostWrite_of_run (hr : s.regs.state = .run) : s.hostWrite space index v = s.setHosterr := by
  rw [State.hostWrite, if_pos hr]

theorem hostWrite_mem {id : MemId} (hr : s.regs.state ≠ .run) (hm : spaceMem space = some id)
    (hi : index < id.cells s.params) : s.hostWrite space index v = s.hostWriteMem id index v := by
  simp only [State.hostWrite, if_neg hr, if_neg (spaceMem_ne_zero hm), hm, if_pos hi]

/-- The step of an accepted write of a memory cell outside a run (R70). -/
theorem step_of_write_mem {v : Word} {id : MemId} {rest : List HostEvent} (h : s.pending = .write space index v :: rest)
    (hr : s.regs.state ≠ .run) (hm : spaceMem space = some id) (hi : index < id.cells s.params) :
    step s = .next (State.hostWriteMem { s with pending := rest } id index v) := by
  rw [step_of_write h, hostWrite_mem (s := { s with pending := rest }) v hr hm hi]

theorem hostWrite_past_the_end {id : MemId} (hm : spaceMem space = some id) (hi : id.cells s.params ≤ index) :
    s.hostWrite space index v = s.setHosterr := by
  simp [State.hostWrite, hm, spaceMem_ne_zero hm, hi]

/-- A register that is neither `CTRL` nor writable refuses the write (R24, R29). -/
theorem hostWrite_readOnly (h1 : index ≠ 1) (hw : WReg.ofIndex? index = none) :
    s.hostWrite 0 index v = s.setHosterr := by
  simp [State.hostWrite, State.hostWriteReg, h1, hw]

/-- The read-only indexes of the table under R24. -/
theorem readOnly_indexes :
    ∀ i ∈ [0x00, 0x02, 0x03, 0x04, 0x05, 0x0E, 0x0F, 0x10, 0x12, 0x13, 0x14, 0x15, 0x16],
      i ≠ 1 ∧ WReg.ofIndex? i = none := by decide

/-- `HDER` is read-only but for its reserved array (R29, R71). -/
theorem hostWrite_hder (h : index % 64 < 48) : s.hostWrite 10 index v = s.setHosterr := by
  have harr : index % 64 / 16 ≠ 3 := by omega
  simp [State.hostWrite, spaceMem, State.hostWriteMem, harr]

/-- The writes the port refuses (R29, R71, R78). -/
theorem hostWrite_refused (h : s.regs.state = .run ∨ 11 ≤ space ∨
    (space = 0 ∧ index ∈ [0x00, 0x02, 0x03, 0x04, 0x05, 0x0E, 0x0F, 0x10, 0x12, 0x13, 0x14, 0x15, 0x16]) ∨
    (space = 0 ∧ 0x18 ≤ index) ∨ (space = 10 ∧ index % 64 < 48) ∨
    (∃ id, spaceMem space = some id ∧ id.cells s.params ≤ index)) : s.hostWrite space index v = s.setHosterr := by
  rcases h with hr | h | ⟨rfl, hi⟩ | ⟨rfl, hi⟩ | ⟨rfl, hi⟩ | ⟨id, hm, hi⟩
  · exact hostWrite_of_run v hr
  · simp [State.hostWrite, spaceMem_eq_none h, show space ≠ 0 by omega]
  · obtain ⟨h1, hw⟩ := readOnly_indexes index hi
    exact hostWrite_readOnly v h1 hw
  · exact hostWrite_readOnly v (by omega) (ofIndex_eq_none hi)
  · exact hostWrite_hder v hi
  · exact hostWrite_past_the_end v hm hi

end Writes

/-- Settles O52: each refused access by its reason, and the accesses of cells that hold nothing. -/
theorem refusedHostAccessesOnlySetHosterr : Obligations.RefusedHostAccessesOnlySetHosterr := by
  intro s rest space index v
  refine ⟨fun hp h => ?_, fun hp h => ?_, fun hp => ?_, fun hp hr hi h6 => ?_, fun hp hr hi h48 => ?_⟩
  · rw [step_of_write hp, hostWrite_refused (s := { s with pending := rest }) v h]
    rfl
  · rw [step_of_read hp, hostRead_of_none (hostValue_eq_none (s := { s with pending := rest }) h)]
    rfl
  · rw [step_of_read hp, hostRead_of_value (v := 0) rfl]
  · rw [step_of_write_mem (id := .tree) hp hr rfl hi, State.hostWriteMem]
    simp [show ¬ index % 8 < 6 by omega]
  · rw [step_of_write_mem (id := .hder) hp hr rfl hi, State.hostWriteMem]
    simp [show index % 64 / 16 = 3 by omega]

/-- Settles O53: the frame of a read, and that every register has an answer whatever the state. -/
theorem hostReadsDoNotDisturb : Obligations.HostReadsDoNotDisturb := by
  intro s t rest space index hp h
  rw [step_of_read hp] at h
  cases h
  refine ⟨hostRead_frame { s with pending := rest } space index, ?_⟩
  rintro rfl hi
  obtain ⟨r, hval⟩ := regs_hostRead_isSome hi s.regs
  have hv : State.hostValue { s with pending := rest } 0 index = some (r.setWidth 32) := by
    rw [hostValue_reg, hval]
    rfl
  rw [hostRead_of_value hv, hval]
  exact ⟨rfl, rfl⟩

/-- Settles O54: `ID` is a constant of the port, read by no path that looks at the state. -/
theorem idReadsAlways : Obligations.IdReadsAlways := by
  intro s rest hp
  rw [step_of_read hp, hostRead_of_value (v := 0x5751) rfl]

/-! ### Reading back -/

/-- A memory the host may write with effect: all but `HDER`, which is read-only, and `SCR`, which is no space. -/
def hostWritable (id : MemId) : Prop := id ≠ .hder ∧ id ≠ .scr

/-- An accepted write of a memory changes neither what decides the next access nor `HOSTERR`. -/
theorem hostWriteMem_frame {id : MemId} (hid : hostWritable id) (s : State) (i : Nat) (v : Word) :
    (s.hostWriteMem id i v).regs.state = s.regs.state ∧ (s.hostWriteMem id i v).regs.hosterr = s.regs.hosterr ∧
      (s.hostWriteMem id i v).pending = s.pending := by
  cases id with
  | tree => rw [hostWriteMem_tree_frame]; exact ⟨rfl, rfl, rfl⟩
  | hder => exact absurd rfl hid.1
  | scr => exact absurd rfl hid.2
  | _ => exact ⟨rfl, rfl, rfl⟩

theorem cell_store_same {w : Nat} (s : State) (id : MemId) (m : Memory w) (i : Nat) (v : BitVec w) :
    s.cell id (m.store i v) i = v :=
  State.cell_of_lookup s id _ i v (Memory.lookup_store_same m i v)

/-- A plain cell reads back as the value written, cut to the cell's width (R70, R77). -/
theorem memRead_hostWriteMem {id : MemId} (hid : hostWritable id) (s : State) {i : Nat} (hi : id = .tree → i % 8 < 4)
    (v : Word) : (s.hostWriteMem id i v).memRead id i = (v.setWidth id.bits).setWidth 32 := by
  cases id with
  | tree =>
    have h4 := hi rfl
    simp only [State.hostWriteMem, State.memRead, treeReadMask, if_pos h4, if_pos (show i % 8 < 6 by omega),
      cell_store_same, MemId.bits]
  | hder => exact absurd rfl hid.1
  | scr => exact absurd rfl hid.2
  | hbits => exact congrArg (BitVec.setWidth 32) (cell_store_same _ _ _ _ _)
  | hval => exact congrArg (BitVec.setWidth 32) (cell_store_same _ _ _ _ _)
  | bs => exact congrArg (BitVec.setWidth 32) (cell_store_same _ _ _ _ _)
  | res => exact congrArg (BitVec.setWidth 32) (cell_store_same _ _ _ _ _)
  | _ => exact (cell_store_same _ _ _ _ _).trans (by simp [MemId.bits])

theorem toNat_setWidth_bits (id : MemId) (v : Word) :
    ((v.setWidth id.bits).setWidth 32).toNat = v.toNat % 2 ^ id.bits := by
  have hbits : 2 ^ id.bits ≤ 2 ^ 32 := Nat.pow_le_pow_right (by decide) (by cases id <;> decide)
  rw [BitVec.toNat_setWidth, BitVec.toNat_setWidth,
    Nat.mod_eq_of_lt ((Nat.mod_lt _ (Nat.two_pow_pos _)).trans_le hbits)]

/-- Of a written flag cell bit 0 is stored and read (R40, R70). -/
theorem hostWriteMem_flag (s : State) {i : Nat} (h4 : 4 ≤ i % 8) (h5 : i % 8 ≤ 5) (v : Word) :
    (s.hostWriteMem .tree i v).tree.lookup i = some (BitVec.ofNat 16 (v.toNat % 2)) ∧
      ((s.hostWriteMem .tree i v).memRead .tree i).toNat = v.toNat % 2 := by
  have hmask : ∀ u : Half, treeReadMask i u = u &&& 1 := fun u => by
    rw [treeReadMask, if_neg (by omega), if_pos (by omega)]
  have hbit : (v.setWidth 16 &&& 1 : Half) = BitVec.ofNat 16 (v.toNat % 2) := by
    apply BitVec.eq_of_toNat_eq
    simp [Nat.and_one_is_mod]
    omega
  have htwice : (BitVec.ofNat 16 (v.toNat % 2) &&& 1).toNat = v.toNat % 2 := by
    simp [Nat.and_one_is_mod]
  simp only [State.hostWriteMem, if_pos (show i % 8 < 6 by omega), State.memRead, cell_store_same, hmask, hbit,
    Memory.lookup_store_same, true_and]
  rw [BitVec.toNat_setWidth, htwice]
  omega

/-- Two steps that each answer a next state, run. -/
theorem run_two {s t u : State} (h1 : step s = .next t) (h2 : step t = .next u) :
    Sys2Proof.core.run 2 s = .next u := by
  have h1' : Sys2Proof.core.step s = .next t := h1
  have h2' : Sys2Proof.core.step t = .next u := h2
  simp only [Host.Core.run, h1', h2']

/-- An accepted write, then a read of the same cell: the run delivers what the written memory reads as there. -/
theorem run_write_read {s : State} {space index : Nat} {id : MemId} {v : Word} (hr : s.regs.state ≠ .run)
    (hm : spaceMem space = some id) (hid : hostWritable id) (hi : index < id.cells s.params)
    (hp : s.pending = [.write space index v, .read space index]) :
    ∃ u : State, Sys2Proof.core.run 2 s =
        .next { u.hostWriteMem id index v with
                pending := [], hostData := (u.hostWriteMem id index v).memRead id index } ∧
      (u.hostWriteMem id index v).regs.hosterr = s.regs.hosterr := by
  obtain ⟨hstate, hhosterr, hpending⟩ := hostWriteMem_frame hid { s with pending := [.read space index] } index v
  refine ⟨{ s with pending := [.read space index] }, ?_, hhosterr⟩
  refine run_two (step_of_write_mem hp hr hm hi) (step_of_read_mem hpending (hstate ▸ hr) hm ?_)
  rw [hostWriteMem_params]
  exact hi

/-- A reserved cell reads 0 (R71). -/
theorem memRead_reserved (s : State) {index : Nat} :
    (6 ≤ index % 8 → s.memRead .tree index = 0) ∧ (48 ≤ index % 64 → s.memRead .hder index = 0) := by
  refine ⟨fun h => ?_, fun h => ?_⟩
  · simp [State.memRead, treeReadMask, show ¬ index % 8 < 4 by omega, show ¬ index % 8 < 6 by omega]
  · simp [State.memRead, State.hderRead, show index % 64 / 16 = 3 by omega]

/-- A derived cell of a built table reads as it is stored (R43). -/
theorem memRead_derived {s : State} {t l : Nat} (hb : s.regs.hbuilt.getLsbD t = true) (arr : DerivedArray) (h1 : 1 ≤ l)
    (h2 : l ≤ 16) :
    s.memRead .hder (hderIndex t arr l) = (s.cell .hder s.hder (hderIndex t arr l)).setWidth 32 := by
  have harr : hderIndex t arr l % 64 / 16 ≠ 3 := by
    have ha := arr.number_lt
    unfold hderIndex
    omega
  rw [State.memRead, State.hderRead, if_neg harr, hderIndex_table t arr l h1 h2, if_pos hb]

theorem step_of_read_derived {s : State} {rest : List HostEvent} {t l i : Nat} (arr : DerivedArray)
    (hr : s.regs.state ≠ .run) (ht : t < 8) (h1 : 1 ≤ l) (h2 : l ≤ 16) (hb : s.regs.hbuilt.getLsbD t = true)
    (hi : hderIndex t arr l = i) (hp : s.pending = .read 10 i :: rest) :
    step s = .next { s with
      pending := rest, hostData := (s.cell .hder s.hder (hderIndex t arr l)).setWidth 32 } := by
  subst hi
  rw [step_of_read_mem hp hr (id := .hder) rfl (hderIndex_legal ht arr h1 h2).1, memRead_derived hb arr h1 h2]

/-- Settles O55: each kind of cell by what a write stores there and a read takes from it. -/
theorem hostReadsBackWhatItWrote : Obligations.HostReadsBackWhatItWrote := by
  refine ⟨fun s space index id v hr hm hder hi htree hp => ?_, fun s index v hr hi h4 h5 hp => ?_,
    fun s rest space index hr h hp => ?_, fun s rest t l hr ht h1 h2 hb => ⟨?_, ?_, ?_⟩⟩
  · have hid : hostWritable id := ⟨hder, fun h => spaceMem_ne_scr space (h ▸ hm)⟩
    obtain ⟨u, hrun, hhosterr⟩ := run_write_read hr hm hid hi hp
    refine ⟨_, hrun, ?_, hhosterr⟩
    rw [memRead_hostWriteMem hid u htree, toNat_setWidth_bits]
  · obtain ⟨u, hrun, hhosterr⟩ := run_write_read (id := .tree) hr rfl ⟨by decide, by decide⟩ hi hp
    obtain ⟨hstored, hread⟩ := hostWriteMem_flag u h4 h5 v
    exact ⟨_, hrun, hread, hstored, hhosterr⟩
  · rcases h with ⟨rfl, hi, h6⟩ | ⟨rfl, hi, h48⟩
    · rw [step_of_read_mem (id := .tree) hp hr rfl hi, (memRead_reserved s).1 h6]
    · rw [step_of_read_mem (id := .hder) hp hr rfl hi, (memRead_reserved s).2 h48]
  · exact step_of_read_derived .mincode hr ht h1 h2 hb (by simp [hderIndex, DerivedArray.number])
  · exact step_of_read_derived .maxcode hr ht h1 h2 hb (by simp [hderIndex, DerivedArray.number])
  · exact step_of_read_derived .valptr hr ht h1 h2 hb (by simp [hderIndex, DerivedArray.number])

/-- Settles O57: both spaces unbuild the table their cell belongs to. -/
theorem tableWritesUnbuild : Obligations.TableWritesUnbuild := by
  intro s rest space index t v hp hr h
  rcases h with ⟨rfl, hi, rfl⟩ | ⟨rfl, hi, rfl⟩
  · exact ⟨_, step_of_write_mem (id := .hbits) hp hr rfl hi, fun i _ => getLsbD_and_not_tableBit _ _ i, rfl,
      fun _ => ⟨rfl, rfl⟩, by simp, rfl⟩
  · exact ⟨_, step_of_write_mem (id := .hval) hp hr rfl hi, fun i _ => getLsbD_and_not_tableBit _ _ i, rfl,
      by simp, fun _ => ⟨rfl, rfl⟩, rfl⟩

/-! ### Reset -/

theorem reset_registers : ∀ i < 0x18, i ≠ 0x00 → i ≠ 0x07 → Regs.reset.hostRead i = some 0 := by decide

/-- Settles O51: the reset state by its definition, the invariants there, and a hard reset from any state. -/
theorem resetValuesAndInvariants : Obligations.ResetValuesAndInvariants := by
  refine ⟨⟨rfl, rfl, reset_registers, rfl, by decide, tablesExact_of_unbuilt rfl, rfl,
    (consistent_iff _).2 consistent_reset⟩, fun s rest hp => ?_⟩
  exact ⟨_, step_of_hardReset hp, rfl, rfl, rfl, rfl, rfl, rfl, rfl, rfl, rfl, rfl, rfl, rfl, rfl, rfl, rfl,
    Nat.succ_ne_self _, Nat.succ_ne_self _⟩

end Sys2Proof.Machine
end

section
/-! The round trip of the encoding (`30_encoding.md` R100 to R104): the fields of a word as numbers, what each shape of
decode accepts, what `decode` does at each `op` byte, and from it the commands' words and the illegal ones. -/

namespace Sys2Proof

open Sys2Proof.Machine

/-! ### The fields of a word (R100) -/

theorem opField_toNat (w : Word) : (opField w).toNat = w.toNat / 2 ^ 24 := by
  have hw := w.isLt
  rw [opField, BitVec.extractLsb'_toNat, Nat.shiftRight_eq_div_pow]
  omega

theorem zeroField_toNat (w : Word) : (zeroField w).toNat = w.toNat / 2 ^ 8 % 2 ^ 16 := by
  rw [zeroField, BitVec.extractLsb'_toNat, Nat.shiftRight_eq_div_pow]

theorem argField_toNat (w : Word) : (argField w).toNat = w.toNat % 2 ^ 8 := by
  rw [argField, BitVec.extractLsb'_toNat, Nat.shiftRight_zero]

theorem regField_toNat (w : Word) : (regField w).toNat = w.toNat / 2 ^ 16 % 2 ^ 8 := by
  rw [regField, BitVec.extractLsb'_toNat, Nat.shiftRight_eq_div_pow]

theorem immField_toNat (w : Word) : (immField w).toNat = w.toNat % 2 ^ 16 := by
  rw [immField, BitVec.extractLsb'_toNat, Nat.shiftRight_zero]

theorem illegalInfo_eq (w : Word) : illegalInfo w = BitVec.ofNat 16 (w.toNat / 2 ^ 16) := by
  apply BitVec.eq_of_toNat_eq
  rw [illegalInfo, BitVec.extractLsb'_toNat, Nat.shiftRight_eq_div_pow, BitVec.toNat_ofNat]

theorem formatC_toNat (op arg : BitVec 8) : (formatC op arg).toNat = op.toNat * 2 ^ 24 + arg.toNat := by
  have harg := arg.isLt
  simp only [formatC, BitVec.toNat_append, BitVec.toNat_ofNat, Nat.shiftLeft_eq, Nat.zero_mod, zero_mul,
    Nat.zero_or]
  rw [Nat.mul_comm, ← Nat.two_pow_add_eq_or_of_lt (by omega)]

theorem formatR_toNat (op reg : BitVec 8) (imm : BitVec 16) :
    (formatR op reg imm).toNat = op.toNat * 2 ^ 24 + (reg.toNat * 2 ^ 16 + imm.toNat) := by
  have hreg := reg.isLt
  have himm := imm.isLt
  simp only [formatR, BitVec.toNat_append, Nat.shiftLeft_eq]
  rw [Nat.mul_comm reg.toNat, ← Nat.two_pow_add_eq_or_of_lt himm, Nat.mul_comm op.toNat,
    ← Nat.two_pow_add_eq_or_of_lt (by omega)]

/-- A word whose zero field is 0 is its `op` and its `arg`: no other bit is left. -/
theorem formatC_fields {w : Word} (h : zeroField w = 0) : formatC (opField w) (argField w) = w := by
  have hz : w.toNat / 2 ^ 8 % 2 ^ 16 = 0 := by rw [← zeroField_toNat, h]; rfl
  apply BitVec.eq_of_toNat_eq
  rw [formatC_toNat, opField_toNat, argField_toNat]
  omega

/-- Format R has no spare bit. -/
theorem formatR_fields (w : Word) : formatR (opField w) (regField w) (immField w) = w := by
  apply BitVec.eq_of_toNat_eq
  rw [formatR_toNat, opField_toNat, regField_toNat, immField_toNat]
  omega

/-! ### The writable registers (R103 (g)) -/

/-- The registers of `WReg.ofIndex?`, from the index back. -/
theorem WReg.index_of_ofIndex {i : BitVec 8} {r : WReg} (h : WReg.ofIndex? i.toNat = some r) : r.index = i := by
  apply BitVec.eq_of_toNat_eq
  unfold WReg.ofIndex? at h
  split at h <;> cases h <;> exact Eq.symm ‹_›

theorem WReg.ofIndex_eq_none_iff (i : Nat) :
    WReg.ofIndex? i = none ↔ i ∉ [0x06, 0x07, 0x08, 0x09, 0x0A, 0x0B, 0x0C, 0x0D, 0x11, 0x17] := by
  simp only [List.mem_cons, List.not_mem_nil, or_false, not_or]
  unfold WReg.ofIndex?
  split <;> simp_all

/-! ### The three shapes of decode -/

theorem decodeNone_eq_ok_iff {w : Word} {i j : Instr} :
    decodeNone w i = .ok j ↔ zeroField w = 0 ∧ argField w = 0 ∧ i = j := by
  unfold decodeNone
  split_ifs <;> simp_all

theorem decodeArg_eq_ok_iff {w : Word} {legal : BitVec 8 → Bool} {e : DecodeError} {mk : BitVec 8 → Instr}
    {j : Instr} :
    decodeArg w legal e mk = .ok j ↔ zeroField w = 0 ∧ legal (argField w) = true ∧ mk (argField w) = j := by
  unfold decodeArg
  split_ifs <;> simp_all

theorem decodeSetr_eq_ok_iff {w : Word} {j : Instr} :
    decodeSetr w = .ok j ↔ ∃ r, WReg.ofIndex? (regField w).toNat = some r ∧ .setr r (immField w) = j := by
  unfold decodeSetr
  cases WReg.ofIndex? (regField w).toNat <;> simp

theorem decodeNone_formatC (op : BitVec 8) (i : Instr) : decodeNone (formatC op 0) i = .ok i :=
  decodeNone_eq_ok_iff.2 ⟨zeroField_formatC _ _, argField_formatC _ _, rfl⟩

theorem decodeArg_formatC {op arg : BitVec 8} {legal : BitVec 8 → Bool} {e : DecodeError} {mk : BitVec 8 → Instr}
    (h : legal arg = true) : decodeArg (formatC op arg) legal e mk = .ok (mk arg) := by
  rw [decodeArg_eq_ok_iff, argField_formatC]
  exact ⟨zeroField_formatC _ _, h, rfl⟩

theorem decodeSetr_formatR (op : BitVec 8) (r : WReg) (imm : BitVec 16) :
    decodeSetr (formatR op r.index imm) = .ok (.setr r imm) := by
  rw [decodeSetr_eq_ok_iff, regField_formatR, immField_formatR]
  exact ⟨r, WReg.ofIndex_index r, rfl⟩

/-! ### From a command to its word and back (R102) -/

theorem opField_encode (i : Instr) : opField (encode i) = i.op := by
  cases i with
  | setr reg imm => exact opField_formatR _ _ _
  | _ => exact opField_formatC _ _

/-- Settles O1: the `op` byte leads to the command's own row, and there each field reads back as it was put. -/
theorem decodeOfEncodeIsTheCommand : Obligations.DecodeOfEncodeIsTheCommand := by
  intro i hwf
  unfold decode
  rw [opField_encode]
  cases i with
  | setr reg imm => exact decodeSetr_formatR _ reg imm
  | frow | fcol | icol | irow | hbuild | hsel | getb => exact decodeArg_formatC hwf
  | nop | halt | decomp | recon | bsinit | hdec => exact decodeNone_formatC _ _

/-! ### The rows of decode -/

/-- The row of `w`'s `op` byte takes no operand: its command's word is the `op` byte alone. -/
def TakesNone (w : Word) : Prop :=
  ∃ i, decode w = decodeNone w i ∧ i.wellFormed = true ∧ encode i = formatC (opField w) 0

/-- The row of `w`'s `op` byte takes an operand that must be `legal`. -/
def TakesArg (w : Word) (legal : BitVec 8 → Bool) : Prop :=
  ∃ e mk, decode w = decodeArg w legal e mk ∧
    ∀ arg, (mk arg).wellFormed = legal arg ∧ encode (mk arg) = formatC (opField w) arg

/-- What `decode` does, by the word's `op` byte (R102): one case per shape of row, and the bytes that are no `op`. -/
inductive DecodeRow (w : Word) : Prop where
  | noOperand (hop : (opField w).toNat ∈ [0x00, 0x01, 0x14, 0x15, 0x20, 0x23]) (row : TakesNone w)
  | node (hop : (opField w).toNat ∈ [0x10, 0x11, 0x12, 0x13]) (row : TakesArg w nodeLegal)
  | table (hop : (opField w).toNat ∈ [0x21, 0x22]) (row : TakesArg w tableLegal)
  | count (hop : (opField w).toNat = 0x24) (row : TakesArg w countLegal)
  | setr (hop : (opField w).toNat = 0x02) (row : decode w = decodeSetr w)
  | unknown (hop : (opField w).toNat ∉
      [0x00, 0x01, 0x02, 0x10, 0x11, 0x12, 0x13, 0x14, 0x15, 0x20, 0x21, 0x22, 0x23, 0x24])
      (row : decode w = .error .unknownOp)

theorem takesNone_of_op {w : Word} {i : Instr} (hdec : decode w = decodeNone w i)
    (hop : (opField w).toNat = i.op.toNat) (hwf : i.wellFormed = true) (hword : encode i = formatC i.op 0) :
    TakesNone w :=
  ⟨i, hdec, hwf, BitVec.eq_of_toNat_eq hop ▸ hword⟩

theorem takesArg_of_op {w : Word} {legal : BitVec 8 → Bool} {e : DecodeError} {mk : BitVec 8 → Instr}
    (hdec : decode w = decodeArg w legal e mk) (hop : (opField w).toNat = (mk 0).op.toNat)
    (hrow : ∀ arg, (mk arg).wellFormed = legal arg ∧ encode (mk arg) = formatC (mk 0).op arg) : TakesArg w legal :=
  ⟨e, mk, hdec, BitVec.eq_of_toNat_eq hop ▸ hrow⟩

/-- The arms of `decode`, in its order, sorted by shape of row. -/
theorem decode_row (w : Word) : DecodeRow w := by
  have hdec := decode.eq_1 w
  split at hdec
  case h_1 hop | h_2 hop | h_8 hop | h_9 hop | h_10 hop | h_13 hop =>
    exact .noOperand (by simp [hop]) (takesNone_of_op hdec hop rfl rfl)
  case h_4 hop | h_5 hop | h_6 hop | h_7 hop =>
    exact .node (by simp [hop]) (takesArg_of_op hdec hop fun _ => ⟨rfl, rfl⟩)
  case h_11 hop | h_12 hop => exact .table (by simp [hop]) (takesArg_of_op hdec hop fun _ => ⟨rfl, rfl⟩)
  case h_14 hop => exact .count hop (takesArg_of_op hdec hop fun _ => ⟨rfl, rfl⟩)
  case h_3 hop => exact .setr hop hdec
  case h_15 => exact .unknown (by simp_all) hdec

theorem TakesNone.encode_eq {w : Word} {i : Instr} (row : TakesNone w) (h : decode w = .ok i) :
    i.wellFormed = true ∧ encode i = w := by
  obtain ⟨j, hdec, hwf, hword⟩ := row
  obtain ⟨hzero, harg, rfl⟩ := decodeNone_eq_ok_iff.1 (hdec ▸ h)
  exact ⟨hwf, by rw [hword, ← harg, formatC_fields hzero]⟩

theorem TakesArg.encode_eq {w : Word} {legal : BitVec 8 → Bool} {i : Instr} (row : TakesArg w legal)
    (h : decode w = .ok i) : i.wellFormed = true ∧ encode i = w := by
  obtain ⟨e, mk, hdec, hrow⟩ := row
  obtain ⟨hzero, hlegal, rfl⟩ := decodeArg_eq_ok_iff.1 (hdec ▸ h)
  obtain ⟨hwf, hword⟩ := hrow (argField w)
  exact ⟨hwf.trans hlegal, hword.trans (formatC_fields hzero)⟩

theorem encode_eq_of_decodeSetr {w : Word} {i : Instr} (hop : (opField w).toNat = 0x02) (h : decodeSetr w = .ok i) :
    i.wellFormed = true ∧ encode i = w := by
  obtain ⟨r, hr, rfl⟩ := decodeSetr_eq_ok_iff.1 h
  refine ⟨rfl, ?_⟩
  calc encode (.setr r (immField w))
    _ = formatR (opField w) (regField w) (immField w) := by
        rw [BitVec.eq_of_toNat_eq (y := 0x02#8) hop, ← WReg.index_of_ofIndex hr]; rfl
    _ = w := formatR_fields w

/-- Settles O2: in each row the fields that decode reads, or compares with 0, are all of the word. -/
theorem legalWordIsItsEncoding : Obligations.LegalWordIsItsEncoding := by
  intro w i h
  cases decode_row w with
  | noOperand hop row => exact row.encode_eq h
  | node hop row | table hop row | count hop row => exact row.encode_eq h
  | setr hop row => exact encode_eq_of_decodeSetr hop (row ▸ h)
  | unknown hop row => exact nomatch row.symm.trans h

/-- The legal words are the words of the well-formed commands, each of its own. -/
theorem decode_eq_ok_iff {w : Word} {i : Instr} : decode w = .ok i ↔ i.wellFormed = true ∧ encode i = w :=
  ⟨legalWordIsItsEncoding w i, fun ⟨hwf, hw⟩ => hw ▸ decodeOfEncodeIsTheCommand i hwf⟩

/-- Settles O4: each word is the encoding of its command. -/
theorem sampleWordsDecode : Obligations.SampleWordsDecode := by
  simp only [Obligations.SampleWordsDecode, decode_eq_ok_iff]
  decide

/-! ### The illegal words (R103) -/

/-- R103's cases (a) to (g), of the fields as numbers. -/
def IllegalFields (op spare arg reg : Nat) : Prop :=
  op ∉ [0x00, 0x01, 0x02, 0x10, 0x11, 0x12, 0x13, 0x14, 0x15, 0x20, 0x21, 0x22, 0x23, 0x24] ∨
  (op ∈ [0x00, 0x01, 0x10, 0x11, 0x12, 0x13, 0x14, 0x15, 0x20, 0x21, 0x22, 0x23, 0x24] ∧ spare ≠ 0) ∨
  (op ∈ [0x00, 0x01, 0x14, 0x15, 0x20, 0x23] ∧ arg ≠ 0) ∨
  (op ∈ [0x10, 0x11, 0x12, 0x13] ∧ arg > 19) ∨
  (op ∈ [0x21, 0x22] ∧ arg > 7) ∨
  (op = 0x24 ∧ (arg = 0 ∨ arg > 16)) ∨
  (op = 0x02 ∧ reg ∉ [0x06, 0x07, 0x08, 0x09, 0x0A, 0x0B, 0x0C, 0x0D, 0x11, 0x17])

/-! Of the seven cases, those that can hold in each kind of row. -/

theorem illegalFields_noOperand {op : Nat} (hop : op ∈ [0x00, 0x01, 0x14, 0x15, 0x20, 0x23]) (spare arg reg : Nat) :
    IllegalFields op spare arg reg ↔ spare ≠ 0 ∨ arg ≠ 0 := by
  unfold IllegalFields
  fin_cases hop <;> simp

theorem illegalFields_node {op : Nat} (hop : op ∈ [0x10, 0x11, 0x12, 0x13]) (spare arg reg : Nat) :
    IllegalFields op spare arg reg ↔ spare ≠ 0 ∨ arg > 19 := by
  unfold IllegalFields
  fin_cases hop <;> simp

theorem illegalFields_table {op : Nat} (hop : op ∈ [0x21, 0x22]) (spare arg reg : Nat) :
    IllegalFields op spare arg reg ↔ spare ≠ 0 ∨ arg > 7 := by
  unfold IllegalFields
  fin_cases hop <;> simp

theorem illegalFields_count (spare arg reg : Nat) :
    IllegalFields 0x24 spare arg reg ↔ spare ≠ 0 ∨ arg = 0 ∨ arg > 16 := by
  simp [IllegalFields]

theorem illegalFields_setr (spare arg reg : Nat) :
    IllegalFields 0x02 spare arg reg ↔
      reg ∉ [0x06, 0x07, 0x08, 0x09, 0x0A, 0x0B, 0x0C, 0x0D, 0x11, 0x17] := by
  simp [IllegalFields]

/-- Illegal is: decodes to no command. -/
theorem exists_error_iff {ε α : Type} (r : Except ε α) : (∃ e, r = .error e) ↔ ¬ ∃ a, r = .ok a := by
  cases r <;> simp

/-- R103 (g). -/
theorem decodeSetr_error_iff (w : Word) :
    (∃ e, decodeSetr w = .error e) ↔
      (regField w).toNat ∉ [0x06, 0x07, 0x08, 0x09, 0x0A, 0x0B, 0x0C, 0x0D, 0x11, 0x17] := by
  rw [← WReg.ofIndex_eq_none_iff]
  unfold decodeSetr
  cases WReg.ofIndex? (regField w).toNat <;> simp

theorem TakesNone.error_iff {w : Word} (row : TakesNone w) :
    (∃ e, decode w = .error e) ↔ (zeroField w).toNat ≠ 0 ∨ (argField w).toNat ≠ 0 := by
  obtain ⟨i, hdec, -⟩ := row
  simp only [hdec, exists_error_iff, decodeNone_eq_ok_iff, exists_and_left, exists_eq', and_true, not_and_or,
    BitVec.toNat_eq, BitVec.ofNat_eq_ofNat, BitVec.toNat_zero, ne_eq]

theorem TakesArg.error_iff {w : Word} {legal : BitVec 8 → Bool} (row : TakesArg w legal) :
    (∃ e, decode w = .error e) ↔ (zeroField w).toNat ≠ 0 ∨ ¬ legal (argField w) = true := by
  obtain ⟨e, mk, hdec, -⟩ := row
  simp only [hdec, exists_error_iff, decodeArg_eq_ok_iff, exists_and_left, exists_eq', and_true, not_and_or,
    BitVec.toNat_eq, BitVec.ofNat_eq_ofNat, BitVec.toNat_zero, ne_eq]

theorem decode_error_iff (w : Word) :
    (∃ e, decode w = .error e) ↔
      IllegalFields (opField w).toNat (zeroField w).toNat (argField w).toNat (regField w).toNat := by
  cases decode_row w with
  | noOperand hop row => rw [row.error_iff, illegalFields_noOperand hop]
  | node hop row => rw [row.error_iff, illegalFields_node hop, nodeLegal_iff, not_le]
  | table hop row => rw [row.error_iff, illegalFields_table hop, tableLegal_iff, not_le]
  | count hop row =>
    rw [row.error_iff, hop, illegalFields_count, countLegal_iff, not_and_or, not_le, not_le, Nat.lt_one_iff]
  | setr hop row => rw [row, decodeSetr_error_iff, hop, illegalFields_setr]
  | unknown hop row => exact iff_of_true ⟨_, row⟩ (.inl hop)

theorem step_of_no_event {s : State} (hp : s.pending = []) : step s = engineStep s := by
  simp only [step, hp]

/-- An illegal word that is fetched ends the step in `FAULT` (R121, R254). -/
theorem engineStep_of_illegal {s : State} (hrun : s.regs.state = .run) (hcp : s.regs.cp.toNat < s.params.cmdWords)
    {e : DecodeError} (he : decode (s.cmdAt s.regs.cp.toNat) = .error e) :
    engineStep s = .next (s.raise .illegal (illegalInfo (s.cmdAt s.regs.cp.toNat))) := by
  rcases fetchDecode_cases s with ⟨hstate, _⟩ | ⟨_, hend, _⟩ | ⟨_, _, ⟨_, _, hstop⟩ | ⟨i, hi, _⟩⟩
  · exact absurd hrun hstate
  · exact absurd hend (not_le.2 hcp)
  · exact engineStep_stop s _ hstop
  · exact nomatch he.symm.trans hi

/-- Settles O3: row by row the decoder refuses what R103 lists, and the fault that the fetch raises records the word's
upper half. -/
theorem illegalWordsAreExactlyR103 : Obligations.IllegalWordsAreExactlyR103 := by
  refine ⟨fun w => ?_, fun s hp hrun hcp ⟨e, he⟩ => ?_⟩
  · rw [decode_error_iff, opField_toNat, zeroField_toNat, argField_toNat, regField_toNat, IllegalFields]
  · rw [step_of_no_event hp, engineStep_of_illegal hrun hcp he, illegalInfo_eq]
    rfl

end Sys2Proof
end

section
/-! The sequencer's turn (`40_sequencer.md` R121 to R124): what it comes to in each state, and why a run ends. A command
that does not end the run moves `CP` on by one and leaves the machine in the same run, so the commands left in `CMD`
count down to the fetch past its end. -/

namespace Sys2Proof.Machine

/-! ### One turn -/

theorem step_of_engineTurn {s : State} {rest : List HostEvent} (hp : s.pending = .engineTurn :: rest) :
    step s = engineStep { s with pending := rest } := by
  rw [step, hp]

/-- Outside `RUN` nothing is fetched (R121, R259). -/
theorem engineStep_of_not_run {s : State} (hr : s.regs.state ≠ .run) : engineStep s = .next s :=
  engineStep_stop s s (by rw [State.fetchDecode, if_pos hr])

/-- A fetch past the end of `CMD` (R122, R255). -/
theorem engineStep_past_the_end {s : State} (hr : s.regs.state = .run) (hcp : s.params.cmdWords ≤ s.regs.cp.toNat) :
    engineStep s = .next (s.raise .fetch s.regs.cp) :=
  engineStep_stop s _ (by rw [State.fetchDecode, if_neg (not_not.2 hr), if_pos hcp])

/-- A legal word at `CP` is executed (R121). -/
theorem engineStep_of_decode {s : State} {i : Instr} (hr : s.regs.state = .run)
    (hcp : s.regs.cp.toNat < s.params.cmdWords) (hi : decode (s.cmdAt s.regs.cp.toNat) = .ok i) :
    engineStep s = exec i s := by
  refine engineStep_command s i ?_
  rw [State.fetchDecode, if_neg (not_not.2 hr), if_neg (not_le.2 hcp)]
  simp only [hi]

/-- Settles O7: fetch stops at once, whoever gave the sequencer its turn. -/
theorem sequencerRestsOutsideRun : Obligations.SequencerRestsOutsideRun := by
  intro s hr
  refine ⟨fun hp => ?_, fun rest hp => ?_⟩
  · rw [step_of_no_event hp, engineStep_of_not_run hr]
  · rw [step_of_engineTurn hp, engineStep_of_not_run (s := { s with pending := rest }) hr]

/-- Settles O5: both ways to a turn lead to the command at `CP`, which no host event has changed. -/
theorem stepExecutesTheDecodedCommand : Obligations.StepExecutesTheDecodedCommand := by
  intro s i hr hcp hi
  refine ⟨fun hp => ?_, fun rest hp => ?_⟩
  · rw [step_of_no_event hp, engineStep_of_decode hr hcp hi]
  · rw [step_of_engineTurn hp, engineStep_of_decode (s := { s with pending := rest }) hr hcp hi]

/-! ### A run with no host event to come -/

/-- A run is in progress on a legal instance and no host event is to come. -/
structure State.InRun (s : State) : Prop where
  legal : s.params.legal = true
  running : s.regs.state = .run
  alone : s.pending = []

/-- The commands left in `CMD` from `CP` on. -/
def State.commandsLeft (s : State) : Nat := s.params.cmdWords - s.regs.cp.toNat

/-- `CMD` is at most 32768 cells (R8), so `CP` does not wrap before its end. -/
theorem cmdWords_le_of_legal {p : Params} (h : p.legal = true) : p.cmdWords ≤ 32768 := by
  simp only [Params.legal, Bool.and_eq_true, decide_eq_true_eq] at h
  omega

theorem cp_lt_of_commandsLeft {s : State} {n : Nat} (h : s.commandsLeft = n + 1) :
    s.regs.cp.toNat < s.params.cmdWords := by
  unfold State.commandsLeft at h
  omega

theorem commandsLeft_advance {s : State} {n : Nat} (hs : s.InRun) (h : s.commandsLeft = n + 1) :
    s.advance.commandsLeft = n := by
  have hcp := cp_lt_of_commandsLeft h
  have hle := cmdWords_le_of_legal hs.legal
  have hnext : (s.regs.cp + 1).toNat = s.regs.cp.toNat + 1 := by bv_omega
  simp only [State.commandsLeft, State.advance_params, State.advance_regs_cp, hnext] at h ⊢
  omega

/-- The updates of a command leave `CP` and `STATE` to its end (R121). -/
theorem reaches_cp_state {s t : State} (h : Reaches s t) :
    t.regs.cp = s.regs.cp ∧ t.regs.state = s.regs.state := by
  induction h with
  | refl => exact ⟨rfl, rfl⟩
  | tail _ hu ih =>
    obtain ⟨hcp, hstate⟩ := ih
    rw [← hcp, ← hstate]
    cases hu with
    | pass p n accepted => rw [apply_regs]; exact ⟨rfl, rfl⟩
    | writeReg r v => exact ⟨State.writeReg_regs_cp _ r v, State.writeReg_regs_state _ r v⟩
    | _ => exact ⟨rfl, rfl⟩

/-- The updates of a command stay in the run, at the command. -/
theorem State.InRun.reaches {s t : State} (hs : s.InRun) (h : Reaches s t) :
    t.InRun ∧ t.commandsLeft = s.commandsLeft := by
  obtain ⟨hcp, hstate⟩ := reaches_cp_state h
  have hrest := (reaches_frame h).rest
  have hparams : t.params = s.params := by rw [hrest]
  have hpending : t.pending = s.pending := by rw [hrest]
  exact ⟨⟨hparams ▸ hs.legal, hstate.trans hs.running, hpending.trans hs.alone⟩,
    by rw [State.commandsLeft, hparams, hcp, State.commandsLeft]⟩

theorem State.InRun.advance {s : State} (hs : s.InRun) : s.advance.InRun := ⟨hs.legal, hs.running, hs.alone⟩

/-- A command ends the run or leaves one command less to execute. -/
theorem State.InRun.of_exec {s t : State} {i : Instr} {n : Nat} (hs : s.InRun) (hn : s.commandsLeft = n + 1)
    (h : exec i s = .next t) : t.ended = true ∨ (t.InRun ∧ t.commandsLeft = n) := by
  cases exec_commandEnd i h with
  | done hu =>
    obtain ⟨hrun, hleft⟩ := hs.reaches hu
    exact .inr ⟨hrun.advance, commandsLeft_advance hrun (hleft.trans hn)⟩
  | raised _ e info => exact .inl rfl
  | halted => exact .inl rfl

theorem State.InRun.of_step {s t : State} {n : Nat} (hs : s.InRun) (hn : s.commandsLeft = n + 1)
    (h : step s = .next t) : t.ended = true ∨ (t.InRun ∧ t.commandsLeft = n) := by
  have hcp := cp_lt_of_commandsLeft hn
  rw [step_of_no_event hs.alone] at h
  cases hd : decode (s.cmdAt s.regs.cp.toNat) with
  | error e => cases (engineStep_of_illegal hs.running hcp hd).symm.trans h; exact .inl rfl
  | ok i => exact hs.of_exec hn ((engineStep_of_decode hs.running hcp hd).symm.trans h)

/-- With no command left the next step is the fetch past the end (R122). -/
theorem State.InRun.step_past_the_end {s : State} (hs : s.InRun) (hn : s.commandsLeft = 0) :
    step s = .next (s.raise .fetch s.regs.cp) := by
  rw [step_of_no_event hs.alone, engineStep_past_the_end hs.running (Nat.le_of_sub_eq_zero hn)]

theorem run_succ {s t : State} (k : Nat) (h : step s = .next t) :
    Sys2Proof.core.run (k + 1) s = Sys2Proof.core.run k t := by
  have h' : Sys2Proof.core.step s = .next t := h
  simp only [Host.Core.run, h']

theorem run_one {s t : State} (h : step s = .next t) : Sys2Proof.core.run 1 s = .next t := run_succ 0 h

/-- R123, by the number of commands left. -/
theorem State.InRun.ends {s : State} {n : Nat} (hs : s.InRun) (hn : s.commandsLeft = n) :
    ∃ k t, k ≤ n + 1 ∧ Sys2Proof.core.run k s = .next t ∧ t.ended = true := by
  induction n generalizing s with
  | zero => exact ⟨1, _, le_rfl, run_one (hs.step_past_the_end hn), rfl⟩
  | succ n ih =>
    obtain ⟨u, hu⟩ := step_next s
    rcases hs.of_step hn hu with hended | ⟨hrun, hleft⟩
    · exact ⟨1, u, by omega, run_one hu, hended⟩
    · obtain ⟨k, t, hk, hrest, hended⟩ := ih hrun hleft
      exact ⟨k + 1, t, by omega, (run_succ k hu).trans hrest, hended⟩

/-- Settles O8: the commands left count down to the fetch past the end of `CMD`. -/
theorem everyRunEnds : Obligations.EveryRunEnds := by
  intro s hlegal hr hp
  exact State.InRun.ends ⟨hlegal, hr, hp⟩ rfl

end Sys2Proof.Machine
end

section
/-! `START` (`40_sequencer.md` R120) and the sequencer's commands `NOP`, `HALT` and `SETR` (R125 to R127): their words,
their effect on every state, and the corner cases that the rules state. -/

namespace Sys2Proof.Machine

/-! ### START -/

/-- Outside a run a write to index 1 of `REG` is a write of `CTRL` (R26). -/
theorem hostWrite_ctrl {s : State} (hr : s.regs.state ≠ .run) (v : Word) :
    s.hostWrite 0 1 v = s.writeCtrl (v.setWidth 16) := by
  simp only [State.hostWrite, if_neg hr, State.hostWriteReg, if_true]

/-- A write of `CTRL` with `START` and without `RST` (R26). -/
theorem writeCtrl_start (s : State) {v : Word} (hstart : v.getLsbD 0 = true) (hrst : v.getLsbD 1 = false) :
    s.writeCtrl (v.setWidth 16) = s.start := by
  simp only [State.writeCtrl, BitVec.getLsbD_setWidth, hstart, hrst]
  rfl

theorem start_of_stopped {s : State} (h : s.regs.state = .idle ∨ s.regs.state = .halted) :
    s.start = { s with regs.cp := s.regs.cpstart, regs.state := .run } := by
  rcases h with h | h <;> rw [State.start, h]

theorem start_of_fault {s : State} (h : s.regs.state = .fault) : s.start = s := by
  rw [State.start, h]

/-- The step of a `START` that the port does not refuse. -/
theorem step_of_start {s : State} {rest : List HostEvent} {v : Word} (hp : s.pending = .write 0 1 v :: rest)
    (hstart : v.getLsbD 0 = true) (hrst : v.getLsbD 1 = false) (hr : s.regs.state ≠ .run) :
    step s = .next (State.start { s with pending := rest }) := by
  rw [step_of_write hp, hostWrite_ctrl (s := { s with pending := rest }) hr, writeCtrl_start _ hstart hrst]

theorem step_of_start_stopped {s : State} {rest : List HostEvent} {v : Word} (hp : s.pending = .write 0 1 v :: rest)
    (hstart : v.getLsbD 0 = true) (hrst : v.getLsbD 1 = false) (h : s.regs.state = .idle ∨ s.regs.state = .halted) :
    step s = .next { s with pending := rest, regs.cp := s.regs.cpstart, regs.state := .run } := by
  have hr : s.regs.state ≠ .run := by rcases h with h | h <;> simp [h]
  rw [step_of_start hp hstart hrst hr, start_of_stopped (s := { s with pending := rest }) h]

/-- Settles O9: a `START` by the state it meets. -/
theorem startBeginsAtCpstart : Obligations.StartBeginsAtCpstart := by
  intro s rest v hp hstart hrst
  refine ⟨step_of_start_stopped hp hstart hrst, fun hf => ?_, fun hr => ?_⟩
  · rw [step_of_start hp hstart hrst (by simp [hf]), start_of_fault (s := { s with pending := rest }) hf]
  · rw [step_of_write hp, hostWrite_of_run (s := { s with pending := rest }) v hr]
    rfl

/-- Settles O6: the fetch fails where `CP` is past the end of `CMD`, also where a `START` has just put it there. -/
theorem fetchPastTheEndFaults : Obligations.FetchPastTheEndFaults := by
  refine ⟨fun s hp hr hcp => ?_, fun s hp h hcp => ?_⟩
  · rw [step_of_no_event hp, engineStep_past_the_end hr hcp, raise_withFault, ErrCode.code]
  · refine ⟨_, step_of_start_stopped hp (by decide) (by decide) h, ?_⟩
    rw [step_of_no_event rfl, engineStep_past_the_end rfl hcp]
    rfl

/-! ### The words without an operand -/

/-- A command without an operand has one word: any other word of its `op` is illegal (R103 (b), (c)). -/
theorem opDecodesTo_noOperand {i : Instr} (hop : i.op.toNat ∈ [0x00, 0x01, 0x14, 0x15, 0x20, 0x23])
    (hwf : i.wellFormed = true) (hword : encode i = formatC i.op 0) : opDecodesTo i.op.toNat 0 0 fun _ => i := by
  intro w hw
  refine ⟨fun _ hle => decode_eq_ok_iff.2 ⟨hwf, ?_⟩, fun hne => ?_⟩
  · refine BitVec.eq_of_toNat_eq ?_
    rw [hword, formatC_toNat, show (0 : BitVec 8).toNat = 0 from rfl]
    omega
  · rw [decode_error_iff, opField_toNat, hw, illegalFields_noOperand hop, zeroField_toNat, argField_toNat]
    omega

/-! ### NOP -/

theorem exec_nop (s : State) : exec .nop s = .next s.advance := rfl

theorem decode_zero : decode 0x00000000#32 = .ok .nop := decode_eq_ok_iff.2 (by decide)

/-- `CMD` erased: every word is 0. -/
def State.erased (s : State) : Prop := ∀ i < s.params.cmdWords, s.cmdAt i = 0x00000000#32

theorem erased_advance {s : State} (h : s.erased) : s.advance.erased := h

theorem step_of_erased {s : State} {n : Nat} (hs : s.InRun) (he : s.erased) (hn : s.commandsLeft = n + 1) :
    step s = .next s.advance := by
  have hcp := cp_lt_of_commandsLeft hn
  rw [step_of_no_event hs.alone, engineStep_of_decode hs.running hcp (by rw [he _ hcp, decode_zero]), exec_nop]

/-- A run over erased words ends in `E_FETCH` after one step per word and one more (R125). -/
theorem run_of_erased {s : State} {n : Nat} (hs : s.InRun) (he : s.erased) (hn : s.commandsLeft = n) :
    ∃ t, Sys2Proof.core.run (n + 1) s = .next t ∧ t.regs.state = .fault ∧ t.regs.err = 2 := by
  induction n generalizing s with
  | zero => exact ⟨_, run_one (hs.step_past_the_end hn), rfl, rfl⟩
  | succ n ih =>
    rw [run_succ (n + 1) (step_of_erased hs he hn)]
    exact ih hs.advance (erased_advance he) (commandsLeft_advance hs hn)

/-- Settles O10: the one word of `NOP`, its effect, and the run over erased words by the number left. -/
theorem nopOnlyAdvances : Obligations.NopOnlyAdvances := by
  refine ⟨opDecodesTo_noOperand (i := .nop) (by decide) rfl rfl, exec_nop, fun s hlegal hr hp he => ?_⟩
  exact run_of_erased ⟨hlegal, hr, hp⟩ he rfl

/-! ### HALT -/

theorem exec_halt (s : State) : exec .halt s = .next { s with regs.state := .halted } := rfl

/-- Settles O11: `HALT` writes `STATE` only, so in a run `ERR` stays 0 and a `START` finds `CPSTART` as it was. -/
theorem haltEndsTheRunInPlace : Obligations.HaltEndsTheRunInPlace := by
  refine ⟨opDecodesTo_noOperand (i := .halt) (by decide) rfl rfl, exec_halt, fun s t hc hr h => ?_, fun s t h => ?_⟩
  · cases (exec_halt s).symm.trans h
    by_contra herr
    have hfault := ((consistent_iff _).1 hc).fault.2 herr
    simp [hr] at hfault
  · cases (exec_halt s).symm.trans h
    exact step_of_start_stopped rfl (by decide) (by decide) (.inr rfl)

/-! ### SETR -/

theorem exec_setr (reg : WReg) (imm : Half) (s : State) :
    exec (.setr reg imm) s = .next (s.writeReg reg imm).advance := rfl

/-- Cut to a field of `k` bits and read back, a value has lost the bits above the field. -/
theorem setWidth_setWidth_eq_and {k : Nat} (hk : k ≤ 16) (v : Half) :
    (v.setWidth k).setWidth 16 = v &&& BitVec.ofNat 16 (2 ^ k - 1) := by
  have hmask : 2 ^ k - 1 < 2 ^ 16 :=
    lt_of_lt_of_le (Nat.sub_lt (Nat.two_pow_pos k) one_pos) (Nat.pow_le_pow_right two_pos hk)
  have hfield : v.toNat % 2 ^ k < 2 ^ 16 := lt_of_le_of_lt (Nat.mod_le _ _) v.isLt
  refine BitVec.eq_of_toNat_eq ?_
  rw [BitVec.toNat_setWidth, BitVec.toNat_setWidth, Nat.mod_eq_of_lt hfield, BitVec.toNat_and, BitVec.toNat_ofNat,
    Nat.mod_eq_of_lt hmask, Nat.and_two_pow_sub_one_eq_mod]

/-- A register keeps of a written value the bits of its field (R127). -/
theorem readW_writeReg_same (s : State) (reg : WReg) (v : Half) :
    (s.writeReg reg v).regs.readW reg = v &&& fieldMask reg := by
  cases reg with
  | nnodes | lsz | hsz => exact setWidth_setWidth_eq_and (k := 5) (by decide) v
  | hdef => exact setWidth_setWidth_eq_and (k := 8) (by decide) v
  | cpstart | width | height | bsptr | bsend | resptr => exact BitVec.and_allOnes.symm

theorem readW_writeReg (s : State) (reg r : WReg) (v : Half) :
    (s.writeReg reg v).regs.readW r =
      if r = reg then v &&& fieldMask reg else s.regs.readW r := by
  rw [← readW_writeReg_same s reg v]
  cases reg <;> cases r <;> rfl

theorem writeReg_hbuilt (s : State) (reg : WReg) (v : Half) :
    (s.writeReg reg v).regs.hbuilt = if reg = .hdef then s.regs.hbuilt &&& v.setWidth 8 else s.regs.hbuilt := by
  cases reg <;> rfl

/-- A register write changes registers only, and the draw of the unbuilt arrays where it is `HDEF`'s (R36). -/
theorem writeReg_frame (s : State) (reg : WReg) (v : Half) :
    s.writeReg reg v = { s with
      regs := (s.writeReg reg v).regs, staleDraw := if reg = .hdef then s.staleDraw + 1 else s.staleDraw } := by
  cases reg <;> rfl

/-- Of the registers it changes at most the writable ones and `HBUILT`. -/
theorem writeReg_regs_frame (s : State) (reg : WReg) (v : Half) :
    s.regs = { (s.writeReg reg v).regs with
      hbuilt := s.regs.hbuilt, cpstart := s.regs.cpstart, nnodes := s.regs.nnodes
      width := s.regs.width, height := s.regs.height, lsz := s.regs.lsz, hsz := s.regs.hsz
      bsptr := s.regs.bsptr, bsend := s.regs.bsend, hdef := s.regs.hdef, resptr := s.regs.resptr } := by
  cases reg <;> rfl

/-- Settles O12: the register write, clause by clause, and `CP` advanced. -/
theorem setrStoresTheMaskedValue : Obligations.SetrStoresTheMaskedValue := by
  intro s reg imm
  refine ⟨_, exec_setr reg imm s, readW_writeReg_same s reg imm, fun r hr => ?_,
    writeReg_hbuilt s reg imm, ?_, ?_, ?_⟩
  · exact (readW_writeReg s reg r imm).trans (if_neg hr)
  · rw [State.advance_regs_cp, State.writeReg_regs_cp]
  · exact congrArg (fun r : Regs => { r with cp := s.regs.cp }) (writeReg_regs_frame s reg imm)
  · exact congrArg State.advance (writeReg_frame s reg imm)

/-- Outside a run the host's write of a writable register is the same register write (R24). -/
theorem hostWrite_writable {s : State} (hr : s.regs.state ≠ .run) (reg : WReg) (v : Word) :
    s.hostWrite 0 reg.index.toNat v = s.writeReg reg (v.setWidth 16) := by
  have hctrl : reg.index.toNat ≠ 1 := by cases reg <;> decide
  simp only [State.hostWrite, if_neg hr, State.hostWriteReg, if_neg hctrl, WReg.ofIndex_index, if_true]

/-- A register write does not look at `STATE` or at the waiting events. -/
theorem writeReg_withState (s : State) (reg : WReg) (v : Half) (events : List HostEvent) (q : RunState) :
    State.writeReg { s with pending := events, regs.state := q } reg v =
      { s.writeReg reg v with pending := events, regs.state := q } := by
  cases reg <;> rfl

/-- Taking back the advance of `CP` after a register write. -/
theorem advance_writeReg_withCp (s : State) (reg : WReg) (v : Half) :
    { (s.writeReg reg v).advance with regs.cp := s.regs.cp } = s.writeReg reg v := by
  rw [← State.writeReg_regs_cp s reg v]
  rfl

/-- Settles O13: both are one register write, `SETR` before an advance of `CP`. -/
theorem setrEqualsTheHostsWrite : Obligations.SetrEqualsTheHostsWrite := by
  intro s reg imm other hother
  refine ⟨_, exec_setr reg imm s, State.writeReg_regs_state s reg imm, ?_⟩
  have himm : (imm.setWidth 32).setWidth 16 = imm := by
    rw [BitVec.setWidth_setWidth_of_le _ (by decide), BitVec.setWidth_eq]
  rw [step_of_write rfl,
    hostWrite_writable (s := { s with pending := [], regs.state := other }) hother, himm, writeReg_withState]
  refine congrArg Host.Outcome.next ?_
  exact congrArg (fun t : State => { t with pending := [], regs.state := other })
    (advance_writeReg_withCp s reg imm).symm

end Sys2Proof.Machine
end

section
/-! One line of a filter pass (`41_filter_analysis.md` R142 to R147, R153 (a), `42_filter_synthesis.md` R176): where
the extension reads, when a line length is accepted, and what a constant line becomes. -/

namespace Sys2Proof.Machine

/-! ### The extension (R142) -/

theorem sampleAt_eq {seq : List Word} {j : Int} (h : j.toNat < seq.length) : sampleAt seq j = seq[j.toNat] :=
  List.getD_eq_getElem seq 0 h

theorem reflected_eq {seq : List Word} {j : Int} (h : j.toNat < seq.length) (anti : Bool) :
    reflected seq anti j = if anti then fneg seq[j.toNat] else seq[j.toNat] := by
  rw [reflected, sampleAt_eq h]

/-- The index a reflection at the left end reads. -/
def LeftEnd.mirror : LeftEnd → Int → Int
  | .W, k => -k
  | .H, k => -1 - k

/-- The index a reflection at the right end reads, in a sequence of `n` samples. -/
def RightEnd.mirror : RightEnd → Int → Int → Int
  | .W, n, k => 2 * (n - 1) - k
  | .H, n, k => 2 * n - 1 - k
  | .Z, n, k => 2 * n - k

section Extension

variable {seq : List Word} {e : Extension} {k : Int}

theorem ext_inside (h0 : 0 ≤ k) (hk : k ≤ seq.length - 1) : ext seq e k = sampleAt seq k := if_pos ⟨h0, hk⟩

theorem ext_left (hk : k < 0) : ext seq e k = reflected seq e.anti (e.left.mirror k) := by
  obtain ⟨left, right, anti⟩ := e
  simp only [ext, if_neg (show ¬ (0 ≤ k ∧ k ≤ (seq.length : Int) - 1) by omega), if_pos hk]
  cases left <;> rfl

theorem ext_mirror_point (hk : k = seq.length) (hright : e.right = .Z) : ext seq e k = 0x00000000#32 := by
  simp only [ext, if_neg (show ¬ (0 ≤ k ∧ k ≤ (seq.length : Int) - 1) by omega), if_neg (show ¬ k < 0 by omega),
    hright, if_pos hk]

theorem ext_right (hk : seq.length ≤ k) (hZ : e.right = .Z → seq.length < k) :
    ext seq e k = reflected seq e.anti (e.right.mirror seq.length k) := by
  obtain ⟨left, right, anti⟩ := e
  simp only [ext, if_neg (show ¬ (0 ≤ k ∧ k ≤ (seq.length : Int) - 1) by omega), if_neg (show ¬ k < 0 by omega)]
  cases right with
  | W | H => rfl
  | Z => exact if_neg (hZ rfl).ne'

/-- Inside the window a reflection at the left end lands in the sequence. -/
theorem leftMirror_lt (hne : seq ≠ []) (hlo : windowLo seq.length e ≤ k) (hk : k < 0) :
    (e.left.mirror k).toNat < seq.length := by
  have hpos := List.length_pos_of_ne_nil hne
  unfold windowLo at hlo
  cases hl : e.left <;> simp only [hl, LeftEnd.mirror] at hlo ⊢ <;> omega

/-- Inside the window a reflection at the right end lands in the sequence. -/
theorem rightMirror_lt (hne : seq ≠ []) (hhi : k ≤ windowHi seq.length e) (hk : seq.length ≤ k)
    (hZ : e.right = .Z → seq.length < k) : (e.right.mirror seq.length k).toNat < seq.length := by
  have hpos := List.length_pos_of_ne_nil hne
  unfold windowHi at hhi
  cases hr : e.right <;> simp only [hr, RightEnd.mirror, true_implies] at hhi hZ ⊢ <;> omega

end Extension

/-- Settles O18: a sample of the sequence itself, its mirror image at either end, or the mirror point of type Z. -/
theorem extensionReadsInsideTheSequence : Obligations.ExtensionReadsInsideTheSequence := by
  intro seq e k hne hlo hhi
  have left (b : LeftEnd) (hk : k < 0) (he : e.left = b) : ∃ h : (b.mirror k).toNat < seq.length,
      ext seq e k = if e.anti then fneg seq[(b.mirror k).toNat] else seq[(b.mirror k).toNat] := by
    subst he
    exact ⟨leftMirror_lt hne hlo hk, (ext_left hk).trans (reflected_eq _ _)⟩
  have right (b : RightEnd) (hk : seq.length ≤ k) (hZ : b = .Z → seq.length < k) (he : e.right = b) :
      ∃ h : (b.mirror seq.length k).toNat < seq.length,
        ext seq e k = if e.anti then fneg seq[(b.mirror seq.length k).toNat]
          else seq[(b.mirror seq.length k).toNat] := by
    subst he
    exact ⟨rightMirror_lt hne hhi hk hZ, (ext_right hk hZ).trans (reflected_eq _ _)⟩
  refine ⟨fun h0 hk => ?_, left .W, left .H, fun hk => right .W hk nofun, fun hk => right .H hk nofun,
    ext_mirror_point, fun hk => right .Z hk.le fun _ => hk⟩
  have hlt : k.toNat < seq.length := by omega
  exact ⟨hlt, (ext_inside h0 hk).trans (sampleAt_eq hlt)⟩

/-! ### Acceptance (R147, R176) -/

theorem lowStart_eq (odd : Bool) (L k : Nat) : lowStart odd L k = lowStart odd L 0 + 2 * (k : Int) := by
  cases odd <;> simp [lowStart] <;> ring

theorem highStart_eq (odd : Bool) (H k : Nat) : highStart odd H k = highStart odd H 0 + 2 * (k : Int) := by
  cases odd <;> simp [highStart] <;> ring

/-- The indexes that `n` outputs with `m` taps read, from `start 0` on and two further for each output, lie between
`lo` and `hi` exactly when the least and the greatest of them do. -/
theorem forall_reads_iff {n m : Nat} (hn : 0 < n) (hm : 0 < m) {start : Nat → Int}
    (hstart : ∀ k, start k = start 0 + 2 * (k : Int)) (lo hi : Int) :
    (∀ k < n, ∀ i < m, lo ≤ start k + i ∧ start k + i ≤ hi) ↔
      lo ≤ start 0 ∧ start 0 + 2 * ((n : Int) - 1) + (m - 1) ≤ hi := by
  constructor
  · intro h
    have hfirst := h 0 hn 0 hm
    have hlast := h (n - 1) (by omega) (m - 1) (by omega)
    rw [hstart (n - 1)] at hlast
    omega
  · intro h k hk i hi
    rw [hstart k]
    omega

/-- How many taps, `l` lowpass and `h` highpass, a line of `N` samples bears: the bounds of R147, and with the two
halves' taps exchanged those of R176. -/
def tapsFit (l h N : Nat) : Prop :=
  2 ≤ N ∧ if l % 2 = 1 then l / 2 < N ∧ h / 2 < 2 * llen N else l / 2 ≤ 2 * hlen N + 1 ∧ h / 2 ≤ N + 1

theorem tapsFit_mono {l h N M : Nat} (hNM : N ≤ M) (hN : tapsFit l h N) : tapsFit l h M := by
  unfold tapsFit llen hlen at *
  split_ifs at * <;> omega

theorem anaOk_iff_tapsFit {L H : Nat} (hpar : L % 2 = H % 2) (N : Nat) : anaOk L H N = true ↔ tapsFit L H N := by
  unfold anaOk tapsFit llen hlen
  by_cases hN : N < 2
  · simp [hN]
  rcases Nat.mod_two_eq_zero_or_one L with hL | hL <;> simp [hN, hL] <;> omega

theorem synOk_iff_tapsFit {L H : Nat} (hpar : L % 2 = H % 2) (N : Nat) : synOk L H N = true ↔ tapsFit H L N := by
  unfold synOk tapsFit lowExt highExt synFL synCH llen hlen
  by_cases hN : N < 2
  · simp [hN]
  rcases Nat.mod_two_eq_zero_or_one L with hL | hL <;> rcases Nat.mod_two_eq_zero_or_one N with hN2 | hN2 <;>
    simp [hN, hL, hN2, ← hpar, windowLo, windowHi] <;> omega

/-- Settles O19: for each output half the least and the greatest index decide. -/
theorem anaOkIsTheWindowOfR145 : Obligations.AnaOkIsTheWindowOfR145 := by
  intro L H N hL _ hH _ hpar
  rw [anaOk_iff_tapsFit hpar, tapsFit]
  refine and_congr_right fun hN => ?_
  have hlow : 0 < llen N := by unfold llen; omega
  have hhigh : 0 < hlen N := by unfold hlen; omega
  rw [forall_reads_iff hlow (by omega) (lowStart_eq _ L), forall_reads_iff hhigh (by omega) (highStart_eq _ H)]
  unfold lowStart highStart inputExt windowLo windowHi llen hlen
  rcases Nat.mod_two_eq_zero_or_one L with hodd | hodd <;> simp [hodd] <;> omega

/-- Settles O22: with parities equal, both acceptances are bounds on the taps' reach that a longer line only widens. -/
theorem acceptanceIsMonotone : Obligations.AcceptanceIsMonotone := by
  intro L H N M _ _ _ _ hpar hNM
  simp only [anaOk_iff_tapsFit hpar, synOk_iff_tapsFit hpar]
  exact ⟨tapsFit_mono hNM, tapsFit_mono hNM⟩

/-! ### A constant line (R153 (a)) -/

theorem hiEff_length (b : Bank) : b.hiEff.length = b.hi.length := by
  unfold Bank.hiEff
  split_ifs <;> simp

/-- Inside the window, an extension that is not antisymmetric and has no zero sample repeats a constant. -/
theorem ext_replicate {n : Nat} {c : Word} {e : Extension} {k : Int} (hn : 0 < n) (hanti : e.anti = false)
    (hZ : e.right ≠ .Z) (hlo : windowLo n e ≤ k) (hhi : k ≤ windowHi n e) : ext (List.replicate n c) e k = c := by
  have hne : List.replicate n c ≠ [] := List.ne_nil_of_length_pos (by simpa using hn)
  have hlo' : windowLo (List.replicate n c).length e ≤ k := by rwa [List.length_replicate]
  have hhi' : k ≤ windowHi (List.replicate n c).length e := by rwa [List.length_replicate]
  have mirrored {j : Int} (h : j.toNat < (List.replicate n c).length) :
      reflected (List.replicate n c) e.anti j = c := by
    rw [reflected_eq h, hanti, List.getElem_replicate]
    rfl
  rcases lt_or_ge k 0 with hneg | hpos
  · rw [ext_left hneg, mirrored (leftMirror_lt hne hlo' hneg)]
  rcases lt_or_ge k (List.replicate n c).length with hin | hbeyond
  · rw [ext_inside hpos (by omega), sampleAt_eq (by omega), List.getElem_replicate]
  · rw [ext_right hbeyond (absurd · hZ), mirrored (rightMirror_lt hne hhi' hbeyond (absurd · hZ))]

/-- Where every sample under the taps is `c`, the inner product is that of the taps with `c`. -/
theorem correlate_const {sample : Int → Word} {taps : List Word} {a : Int} {c : Word}
    (h : ∀ i < taps.length, sample (a + i) = c) : correlate sample taps a = sumChain (taps.map (fmul c)) := by
  unfold correlate
  congr 1
  refine List.ext_getElem (by simp) fun i hi _ => ?_
  have hlt : i < taps.length := by simpa using hi
  simp [h i hlt]

/-- Settles O23: acceptance keeps every index in the window (O19), where the extension of a constant is constant. -/
theorem constantLineFiltersToConstantHalves : Obligations.ConstantLineFiltersToConstantHalves := by
  intro b N c hL hL16 hH hH16 hpar hok
  obtain ⟨hN, hlow, hhigh⟩ := (anaOkIsTheWindowOfR145 _ _ N hL hL16 hH hH16 hpar).1 hok
  have hext {k : Int} : windowLo N (inputExt b.odd) ≤ k ∧ k ≤ windowHi N (inputExt b.odd) →
      ext (List.replicate N c) (inputExt b.odd) k = c := fun ⟨hlo, hhi⟩ =>
    ext_replicate (by omega) (by cases b.odd <;> rfl) (by cases b.odd <;> nofun) hlo hhi
  have constant {n : Nat} {f : Nat → Word} {v : Word} (h : ∀ k < n, f k = v) :
      (List.range n).map f = List.replicate n v := by
    rw [List.map_congr_left fun k hk => h k (List.mem_range.1 hk), List.map_const', List.length_range]
  unfold anaLine
  simp only [List.length_replicate, Prod.mk.injEq]
  refine ⟨constant fun k hk => correlate_const fun i hi => hext (hlow k hk i hi),
    constant fun k hk => correlate_const fun i hi => hext (hhigh k hk i ?_)⟩
  rwa [← hiEff_length]

end Sys2Proof.Machine
end

section
/-! The single-node passes as commands (`41_filter_analysis.md` R150, R151, R153 (b)): their words, what an accepted
pass writes where, what a refused one raises, and what a pass reads. -/

namespace Sys2Proof.Machine

/-! ### The words with an operand -/

/-- A command with an operand from `lo` to `hi` has one word for each: the other words of its `op` are illegal. -/
theorem opDecodesTo_operand {op : BitVec 8} {lo hi : Nat} {command : BitVec 8 → Instr} (hhi : hi < 256)
    (hwf : ∀ arg, lo ≤ arg.toNat → arg.toNat ≤ hi → (command arg).wellFormed = true)
    (hword : ∀ arg, encode (command arg) = formatC op arg)
    (hillegal : ∀ spare arg reg, IllegalFields op.toNat spare arg reg ↔ spare ≠ 0 ∨ ¬ (lo ≤ arg ∧ arg ≤ hi)) :
    opDecodesTo op.toNat lo hi command := by
  intro w hw
  refine ⟨fun hlo hle => decode_eq_ok_iff.2 ?_, fun hne => ?_⟩
  · have harg : (BitVec.ofNat 8 w.toNat).toNat = w.toNat % 2 ^ 24 := by rw [BitVec.toNat_ofNat]; omega
    refine ⟨hwf _ (by omega) (by omega), BitVec.eq_of_toNat_eq ?_⟩
    rw [hword, formatC_toNat, harg]
    omega
  · rw [decode_error_iff, opField_toNat, hw, hillegal, zeroField_toNat, argField_toNat]
    omega

theorem opDecodesTo_node {op : BitVec 8} {command : BitVec 8 → Instr} (hop : op.toNat ∈ [0x10, 0x11, 0x12, 0x13])
    (hwf : ∀ arg, (command arg).wellFormed = nodeLegal arg) (hword : ∀ arg, encode (command arg) = formatC op arg) :
    opDecodesTo op.toNat 0 19 command :=
  opDecodesTo_operand (by decide) (fun arg _ h => (hwf arg).trans ((nodeLegal_iff arg).2 h)) hword
    fun spare arg reg => by rw [illegalFields_node hop]; omega

/-! ### A pass as a command -/

/-- The command of a pass (R102). -/
def Pass.command : Pass → BitVec 8 → Instr
  | .frow => .frow
  | .fcol => .fcol
  | .icol => .icol
  | .irow => .irow

/-- The memory a pass writes. -/
def Pass.target (p : Pass) (s : State) : Memory 32 := if p.fromPlane then s.scr else s.plane

/-- The state with another content of the memory a pass writes. -/
def Pass.withTarget (p : Pass) (s : State) (m : Memory 32) : State :=
  if p.fromPlane then { s with scr := m } else { s with plane := m }

theorem target_withTarget (p : Pass) (s : State) (m : Memory 32) : p.target (p.withTarget s m) = m := by
  cases p <;> rfl

theorem target_advance (p : Pass) (s : State) : p.target s.advance = p.target s := rfl

theorem apply_eq_withTarget (p : Pass) (s : State) (e : Node) :
    p.apply s e = p.withTarget s ((p.target s).storeAll (p.writes s e)) := by
  cases p <;> rfl

section Command

variable (p : Pass) {s : State} {node : BitVec 8}

theorem exec_command (hnode : node.toNat ≤ 19) : exec (p.command node) s = finish (p.run node.toNat s) := by
  have hlegal := (nodeLegal_iff node).2 hnode
  cases p <;> exact congrArg finish (withNode_legal _ _ _ _ hlegal)

theorem exec_command_accepted (hnode : node.toNat ≤ 19) (h : p.check node.toNat s = none) :
    exec (p.command node) s = .next (p.apply s (s.node node.toNat)).advance := by
  rw [exec_command p hnode, Pass.run, h, finish_done]

theorem exec_command_refused (hnode : node.toNat ≤ 19) {e : ErrCode} {info : Half}
    (h : p.check node.toNat s = some (e, info)) : exec (p.command node) s = .next (s.raise e info) := by
  rw [exec_command p hnode, Pass.run, h, finish_raised]

/-- The first failing check, in the terms claims use (R256, R257, R261). -/
theorem exec_command_filterFault (hnode : node.toNat ≤ 19) {code : BitVec 8} {info : Half}
    (h : s.filterFault node.toNat
      (p.accepts s.regs.lsz.toNat s.regs.hsz.toNat (p.lineLength (s.node node.toNat))) = some (code, info)) :
    exec (p.command node) s = .next (s.withFault code info) := by
  obtain ⟨e, rfl, hcheck⟩ := filterFault_check p _ s code info h
  rw [exec_command_refused p hnode hcheck, raise_withFault]

/-- An accepted pass writes its lines' outputs into the region in its target memory, and changes nothing else but
`CP`. -/
theorem exec_command_transforms (hnode : node.toNat ≤ 19) (h : p.check node.toNat s = none) :
    ∃ t, exec (p.command node) s = .next t ∧
      (∀ m < p.lineCount (s.node node.toNat), ∀ j < p.lineLength (s.node node.toNat),
        (p.target t).lookup (p.cellIndex s.regs.width.toNat (s.node node.toNat) m j) =
          (p.output s (s.node node.toNat) m)[j]?) ∧
      (∀ i, ¬ s.inRegion node.toNat i → (p.target t).lookup i = (p.target s).lookup i) ∧
      t = (p.withTarget s (p.target t)).advance := by
  obtain ⟨-, hinside, -⟩ := (check_none_iff p _ s).1 h
  refine ⟨_, exec_command_accepted p hnode h, ?_⟩
  rw [apply_eq_withTarget, target_advance, target_withTarget]
  exact ⟨fun m hm j hj => lookup_writes p s _ _ hinside m j hm hj, lookup_writes_out p s _ _, rfl⟩

end Command

/-! ### Rows and columns -/

theorem cellIndex_row {p : Pass} (hp : p.alongRows = true) (s : State) (n m j : Nat) :
    p.cellIndex s.regs.width.toNat (s.node n) m j = s.rowCell n m j := by
  rw [Pass.cellIndex, if_pos hp, planeIndex, State.rowCell, Nat.add_assoc]

theorem cellIndex_col {p : Pass} (hp : p.alongRows = false) (s : State) (n m j : Nat) :
    p.cellIndex s.regs.width.toNat (s.node n) m j = s.colCell n m j := by
  rw [Pass.cellIndex, if_neg (Bool.eq_false_iff.1 hp), planeIndex, State.colCell, Nat.add_assoc]

theorem frow_input (s : State) (n m : Nat) : Pass.frow.input s (s.node n) m = s.planeRow n m :=
  List.map_congr_left fun j _ => congrArg s.planeAt (cellIndex_row rfl s n m j)

theorem fcol_input (s : State) (n m : Nat) : Pass.fcol.input s (s.node n) m = s.scrCol n m :=
  List.map_congr_left fun j _ => congrArg s.scrAt (cellIndex_col rfl s n m j)

theorem frow_output (s : State) (n m : Nat) :
    Pass.frow.output s (s.node n) m = place (s.node n).irw (anaLine s.bank (s.planeRow n m)) :=
  congrArg (forwardLine s.bank (s.node n).irw) (frow_input s n m)

theorem fcol_output (s : State) (n m : Nat) :
    Pass.fcol.output s (s.node n) m = place (s.node n).icl (anaLine s.bank (s.scrCol n m)) :=
  congrArg (forwardLine s.bank (s.node n).icl) (fcol_input s n m)

/-- Settles O24: the pass out of `PLANE` along rows. -/
theorem frowTransformsTheRows : Obligations.FrowTransformsTheRows := by
  refine ⟨opDecodesTo_node (op := 0x10) (by decide) (fun _ => rfl) fun _ => rfl, fun s node hnode => ⟨?_, ?_⟩⟩
  · intro hbank hinside hlength
    have h := exec_command_transforms .frow hnode ((check_none_iff .frow _ s).2 ⟨hbank, hinside, hlength⟩)
    simp only [cellIndex_row (p := .frow) rfl, frow_output] at h
    exact h
  · exact fun c info => exec_command_filterFault .frow hnode

/-- Settles O25: the pass out of `SCR` along columns. -/
theorem fcolTransformsTheColumns : Obligations.FcolTransformsTheColumns := by
  refine ⟨opDecodesTo_node (op := 0x11) (by decide) (fun _ => rfl) fun _ => rfl, fun s node hnode => ⟨?_, ?_⟩⟩
  · intro hbank hinside hlength
    have h := exec_command_transforms .fcol hnode ((check_none_iff .fcol _ s).2 ⟨hbank, hinside, hlength⟩)
    simp only [cellIndex_col (p := .fcol) rfl, fcol_output] at h
    exact h
  · exact fun c info => exec_command_filterFault .fcol hnode

/-! ### What a pass reads (R153 (b)) -/

theorem writes_congr {p : Pass} {s s' : State} {e : Node} (hregs : s'.regs = s.regs) (hbank : s'.bank = s.bank)
    (h : ∀ m < p.lineCount e, p.input s' e m = p.input s e m) : p.writes s' e = p.writes s e := by
  unfold Pass.writes Pass.lineWrites Pass.output
  rw [hregs, hbank]
  refine List.flatMap_congr fun m hm => ?_
  rw [h m (List.mem_range.1 hm)]

theorem planeRow_congr {s : State} {n m : Nat} {plane : Memory 32} (hm : m < (s.node n).ly)
    (h : ∀ i, s.inRegion n i → State.planeAt { s with plane := plane } i = s.planeAt i) :
    State.planeRow { s with plane := plane } n m = s.planeRow n m :=
  List.map_congr_left fun j hj => h _ ⟨m, hm, j, List.mem_range.1 hj, rfl⟩

theorem check_withPlane (p : Pass) (n : Nat) (s : State) (plane : Memory 32) :
    p.check n { s with plane := plane } = p.check n s := rfl

theorem frow_apply_scr (s : State) (e : Node) :
    (Pass.frow.apply s e).scr = s.scr.storeAll (Pass.frow.writes s e) := rfl

theorem frow_writes_congr {s : State} {n : Nat} {plane : Memory 32}
    (h : ∀ i, s.inRegion n i → State.planeAt { s with plane := plane } i = s.planeAt i) :
    Pass.frow.writes { s with plane := plane } (s.node n) = Pass.frow.writes s (s.node n) :=
  writes_congr rfl rfl fun m hm =>
    calc Pass.frow.input { s with plane := plane } (s.node n) m
      _ = State.planeRow { s with plane := plane } n m := frow_input { s with plane := plane } n m
      _ = s.planeRow n m := planeRow_congr hm h
      _ = Pass.frow.input s (s.node n) m := (frow_input s n m).symm

/-- Settles O33: the checks of `FROW` do not look at `PLANE`, and its lines are the region's rows. -/
theorem frowReadsOnlyItsRegion : Obligations.FrowReadsOnlyItsRegion := by
  intro s node plane hnode h
  have hsame := check_withPlane .frow node.toNat s plane
  cases hcheck : Pass.frow.check node.toNat s with
  | some r =>
    exact ⟨_, _, exec_command_refused .frow hnode hcheck,
      exec_command_refused .frow hnode (hsame.trans hcheck), rfl, rfl⟩
  | none =>
    refine ⟨_, _, exec_command_accepted .frow hnode hcheck,
      exec_command_accepted .frow hnode (hsame.trans hcheck), ?_, ?_⟩
    · rw [State.advance_scr, State.advance_scr, frow_apply_scr, frow_apply_scr]
      exact congrArg s.scr.storeAll (frow_writes_congr h)
    · rw [State.advance, State.advance, apply_regs, apply_regs]

end Sys2Proof.Machine
end

section
/-! The whole-tree loop (`30_encoding.md` R106, `41_filter_analysis.md` R152, `42_filter_synthesis.md` R182) and the
command list it stands for: they run the same passes, but the list advances `CP` between them. -/

namespace Sys2Proof.Machine

/-! ### `CP` and the passes -/

/-- The state with another `CP`. -/
def State.withCp (s : State) (c : Half) : State := { s with regs.cp := c }

@[simp] theorem withCp_self (s : State) : s.withCp s.regs.cp = s := rfl

theorem advance_withCp (s : State) (c : Half) : (s.withCp c).advance = s.withCp (c + 1) := rfl

theorem check_withCp (p : Pass) (n : Nat) (s : State) (c : Half) : p.check n (s.withCp c) = p.check n s := rfl

theorem writes_withCp (p : Pass) (s : State) (e : Node) (c : Half) : p.writes (s.withCp c) e = p.writes s e := rfl

theorem apply_withCp (p : Pass) (s : State) (e : Node) (c : Half) :
    p.apply (s.withCp c) e = (p.apply s e).withCp c := by
  unfold Pass.apply
  rw [writes_withCp]
  cases p <;> rfl

/-- An accepted pass as a command of a list, at any `CP`. -/
theorem exec_command_withCp {p : Pass} {s : State} {n : Nat} (hn : n < 20) (h : p.check n s = none) (c : Half) :
    exec (p.command (BitVec.ofNat 8 n)) (s.withCp c) = .next ((p.apply s (s.node n)).withCp (c + 1)) := by
  have htoNat : (BitVec.ofNat 8 n).toNat = n := by rw [BitVec.toNat_ofNat]; omega
  rw [exec_command_accepted p (by omega) (by rw [htoNat, check_withCp, h]), htoNat]
  exact congrArg Host.Outcome.next ((congrArg State.advance (apply_withCp p s (s.node n) c)).trans (advance_withCp _ c))

/-! ### The loop and the list -/

/-- The command list that a whole-tree loop over the nodes of `l` stands for (R106). -/
def nodeCommands (first second : Pass) (l : List Nat) : List Instr :=
  l.flatMap fun n => [first.command (BitVec.ofNat 8 n), second.command (BitVec.ofNat 8 n)]

theorem decompList_eq (n : Nat) : decompList n = nodeCommands .frow .fcol (List.range n) := rfl

theorem execList_cons {i : Instr} {rest : List Instr} {s t : State} (h : exec i s = .next t)
    (hrun : t.regs.state ≠ .fault) : execList (i :: rest) s = execList rest t := by
  rw [execList, h]
  exact if_neg hrun

section Loop

variable {first second : Pass} {s : State} {n : Nat}

/-- Both passes over a node are accepted. -/
def State.nodeAccepted (first second : Pass) (s : State) (n : Nat) : Prop :=
  first.check n s = none ∧ second.check n s = none

/-- Both passes over one node. -/
def State.afterNode (first second : Pass) (s : State) (n : Nat) : State :=
  second.apply (first.apply s (s.node n)) (s.node n)

theorem nodeAccepted_afterNode (m : Nat) :
    (s.afterNode first second n).nodeAccepted first second m ↔ s.nodeAccepted first second m := by
  simp only [State.nodeAccepted, State.afterNode, check_apply]

theorem runNodes_cons (l : List Nat) (h : s.nodeAccepted first second n) :
    runNodes first second (n :: l) s = runNodes first second l (s.afterNode first second n) := by
  have hsecond : second.check n (first.apply s (s.node n)) = none := by rw [check_apply, h.2]
  simp only [runNodes, Pass.run, h.1, andThen_done, hsecond, apply_node]
  rfl

theorem execList_node {rest : List Instr} (hn : n < 20) (h : s.nodeAccepted first second n)
    (hrun : s.regs.state ≠ .fault) (c : Half) :
    execList (first.command (BitVec.ofNat 8 n) :: second.command (BitVec.ofNat 8 n) :: rest) (s.withCp c) =
      execList rest ((s.afterNode first second n).withCp (c + 2)) := by
  have hsecond : second.check n (first.apply s (s.node n)) = none := by rw [check_apply, h.2]
  have hcp : c + 1 + 1 = c + 2 := by rw [BitVec.add_assoc]; rfl
  rw [execList_cons (exec_command_withCp hn h.1 c) (by simpa [State.withCp] using hrun),
    execList_cons (exec_command_withCp hn hsecond (c + 1)) (by simpa [State.withCp] using hrun), apply_node, hcp]
  rfl

/-- Where every node is accepted, the loop is done with the planes that the command list leaves. -/
theorem runNodes_execList {l : List Nat} (hl : ∀ n ∈ l, n < 20) (h : ∀ n ∈ l, s.nodeAccepted first second n)
    (hrun : s.regs.state ≠ .fault) (c : Half) :
    ∃ u, runNodes first second l s = .done u ∧ u = { s with plane := u.plane, scr := u.scr } ∧
      execList (nodeCommands first second l) (s.withCp c) = .next (u.withCp (c + BitVec.ofNat 16 (2 * l.length))) := by
  induction l generalizing s c with
  | nil => exact ⟨s, rfl, rfl, by simp [nodeCommands, execList]⟩
  | cons n l ih =>
    simp only [List.forall_mem_cons] at hl h
    obtain ⟨u, hdone, hframe, hlist⟩ := ih (s := s.afterNode first second n) hl.2
      (fun m hm => (nodeAccepted_afterNode m).2 (h.2 m hm)) (by simpa [State.afterNode] using hrun) (c + 2)
    refine ⟨u, (runNodes_cons l h.1).trans hdone, ?_, ?_⟩
    · rw [hframe, State.afterNode, (apply_frame second _ _).1, (apply_frame first _ _).1]
    · have hcp : c + 2 + BitVec.ofNat 16 (2 * l.length) = c + BitVec.ofNat 16 (2 * (l.length + 1)) := by
        rw [BitVec.add_assoc, Nat.mul_succ, Nat.add_comm _ 2, BitVec.ofNat_add]
        rfl
      exact (execList_node hl.1 h.1 hrun c).trans (hlist.trans (by rw [hcp, List.length_cons]))

/-- With a legal configuration, a refused node ends the loop in `E_GEOM` before a word of `PLANE` is written, its first
pass having written `SCR` at most (R152, R257). -/
theorem runNodes_refused (l : List Nat) (hplane : first.fromPlane = true) (hbank : s.bankLegal)
    (h : ¬ s.nodeAccepted first second n) :
    ∃ scr, runNodes first second (n :: l) s = .raised { s with scr := scr } .geom (BitVec.ofNat 16 n) := by
  have refused {p : Pass} {t : State} (ht : t.bankLegal) (hp : p.check n t ≠ none) :
      p.run n t = .raised t .geom (BitVec.ofNat 16 n) := by
    rcases run_cases p n t with ⟨e, info, hcheck, hraised⟩ | ⟨hcheck, -⟩
    · obtain ⟨rfl, rfl⟩ := check_geom p n t ht e info hcheck
      exact hraised
    · exact absurd hcheck hp
  by_cases hfirst : first.check n s = none
  · have hsecond : second.check n (first.apply s (s.node n)) ≠ none := fun hs =>
      h ⟨hfirst, (check_apply first second s _ n).symm.trans hs⟩
    have hlegal : (first.apply s (s.node n)).bankLegal := by simpa [State.bankLegal] using hbank
    refine ⟨(first.apply s (s.node n)).scr, ?_⟩
    rw [runNodes, Pass.run, hfirst, andThen_done, refused hlegal hsecond, andThen_raised, Pass.apply, if_pos hplane]
  · exact ⟨s.scr, by rw [runNodes, refused hbank hfirst, andThen_raised, andThen_raised]⟩

/-- A loop whose first refused node is `n` ends there with the planes of the nodes before it. -/
theorem runNodes_stops {l : List Nat} {u : State} (rest : List Nat) (hplane : first.fromPlane = true)
    (hdone : runNodes first second l s = .done u) (hframe : u = { s with plane := u.plane, scr := u.scr })
    (hbank : s.bankLegal) (h : ¬ s.nodeAccepted first second n) :
    ∃ scr, runNodes first second (l ++ n :: rest) s = .raised { u with scr := scr } .geom (BitVec.ofNat 16 n) := by
  have hbank' : u.bankLegal := by rw [hframe]; exact hbank
  have hrefused : ¬ u.nodeAccepted first second n := by rw [hframe]; exact h
  rw [runNodes_append, hdone, andThen_done]
  exact runNodes_refused rest hplane hbank' hrefused

end Loop

/-! ### `DECOMP` (R152) -/

theorem exec_decomp {s : State} (h : s.regs.nnodes.toNat ≤ 20) :
    exec .decomp s = finish (runNodes .frow .fcol (List.range s.regs.nnodes.toNat) s) := by
  refine congrArg finish (if_neg ?_)
  simpa [Config.nTree] using h

/-- Under a legal configuration a node is accepted by its place and the lengths of its lines (R141, R147). -/
theorem nodeAccepted_forward_iff {s : State} (hbank : s.bankLegal) (n : Nat) :
    s.nodeAccepted .frow .fcol n ↔ s.nodeInside n ∧ s.anaAccepts (s.node n).lx ∧ s.anaAccepts (s.node n).ly := by
  have hrow : Pass.frow.check n s = none ↔ s.bankLegal ∧ s.nodeInside n ∧ s.anaAccepts (s.node n).lx :=
    check_none_iff .frow n s
  have hcol : Pass.fcol.check n s = none ↔ s.bankLegal ∧ s.nodeInside n ∧ s.anaAccepts (s.node n).ly :=
    check_none_iff .fcol n s
  rw [State.nodeAccepted, hrow, hcol]
  tauto

/-- The first `k` nodes of `DECOMP`, where they are accepted: the loop's planes are those of the command list. -/
theorem runNodes_range {s : State} {k : Nat} (hk : k ≤ 20) (h : ∀ n ∈ List.range k, s.nodeAccepted .frow .fcol n)
    (hrun : s.regs.state = .run) :
    ∃ u, runNodes .frow .fcol (List.range k) s = .done u ∧ u = { s with plane := u.plane, scr := u.scr } ∧
      execList (decompList k) s = .next (u.withCp (s.regs.cp + BitVec.ofNat 16 (2 * k))) := by
  have hlist := runNodes_execList (fun n hn => (List.mem_range.1 hn).trans_le hk) h (by simp [hrun]) s.regs.cp
  rwa [withCp_self, List.length_range, ← decompList_eq] at hlist

/-- Settles O28: loop and command list, node by node. -/
theorem decompIsItsPassesInOrder : Obligations.DecompIsItsPassesInOrder := by
  intro s hrun hnodes hbank h
  have haccepted : ∀ n ∈ List.range s.regs.nnodes.toNat, s.nodeAccepted .frow .fcol n := fun n hn => by
    have hlt := List.mem_range.1 hn
    exact (nodeAccepted_forward_iff (hbank (by omega)) n).2 (h n hlt)
  obtain ⟨u, hdone, hframe, hlist⟩ := runNodes_range hnodes haccepted hrun
  refine ⟨_, hlist, ?_, ?_⟩
  · rw [exec_decomp hnodes, hdone, finish_done, hframe]
    rfl
  · rw [hframe]
    rfl

theorem range_split {k n : Nat} (h : k < n) : ∃ rest, List.range n = List.range k ++ k :: rest := by
  obtain ⟨d, rfl⟩ := Nat.exists_eq_add_of_le (Nat.succ_le_of_lt h)
  exact ⟨_, by rw [List.range_add, List.range_succ, List.append_assoc, List.singleton_append]⟩

/-- Settles O30: the loop over the nodes before `k` is the command list's, and node `k` does not reach `PLANE`. -/
theorem decompStopsAtTheFirstBadNode : Obligations.DecompStopsAtTheFirstBadNode := by
  intro s k hrun hnodes hk hbank h hbad
  obtain ⟨u, hdone, hframe, hlist⟩ := runNodes_range (hk.le.trans hnodes)
    (fun n hn => (nodeAccepted_forward_iff hbank n).2 (h n (List.mem_range.1 hn))) hrun
  obtain ⟨rest, hrange⟩ := range_split hk
  obtain ⟨scr, hraised⟩ :=
    runNodes_stops rest rfl hdone hframe hbank ((nodeAccepted_forward_iff hbank k).not.2 hbad)
  have hexec : exec .decomp s = .next (State.raise { u with scr := scr } .geom (BitVec.ofNat 16 k)) := by
    rw [exec_decomp hnodes, hrange, hraised, finish_raised]
  refine ⟨_, _, hlist, hexec, rfl, ?_, ?_⟩ <;> rw [hframe] <;> rfl

end Sys2Proof.Machine
end

section
/-! The lengths an inverse line accepts (`42_filter_synthesis.md` R175, R176): the least and the greatest index it reads
decide, and they bound the taps as those of the forward line do. -/

namespace Sys2Proof.Machine

/-- Tap `i` meets output `n` where `i - shift + n` is even, at half of that sum. With two outputs at least, one of the
two outermost sums at either end is even: the least index read is half of `-shift` rounded up, the greatest half of the
greatest sum rounded down, and all indexes lie between `lo` and `hi` exactly when these two do. -/
theorem forall_synReads_iff {N taps : Nat} (hN : 2 ≤ N) (htaps : 0 < taps) (shift : Nat) (lo hi : Int) :
    (∀ n < N, ∀ i < taps, ((i : Int) - shift + n) % 2 = 0 →
      lo ≤ ((i : Int) - shift + n) / 2 ∧ ((i : Int) - shift + n) / 2 ≤ hi) ↔
      lo ≤ - ((shift : Int) / 2) ∧ ((taps : Int) - 1 - shift + N - 1) / 2 ≤ hi := by
  constructor
  · intro h
    have hfirst := h (shift % 2) (by omega) 0 htaps (by omega)
    have hlast := h (N - 1 - (taps + shift + N) % 2) (by omega) (taps - 1) (by omega) (by omega)
    omega
  · intro h n hn i hi _
    omega

/-- Settles O20: for each half the least and the greatest index decide. -/
theorem synOkIsTheWindowOfR175 : Obligations.SynOkIsTheWindowOfR175 := by
  intro L H N hL _ hH _ _
  by_cases hN : N < 2
  · simp [synOk, hN, Nat.not_le.2 hN]
  · rw [Nat.not_lt] at hN
    rw [forall_synReads_iff hN (by omega), forall_synReads_iff hN (by omega), synOk, if_neg (by omega)]
    simp only [Bool.and_eq_true, decide_eq_true_eq, hN, true_and, and_assoc]

/-- Settles O21: both acceptances are the one bound on the taps' reach, the lowpass count of the one filter in the place
of the highpass count of the other. -/
theorem forwardAndInverseAcceptTheSameLengths : Obligations.ForwardAndInverseAcceptTheSameLengths := by
  intro l h N _ _ _ _ hpar
  rw [Bool.eq_iff_iff, synOk_iff_tapsFit hpar.symm, anaOk_iff_tapsFit hpar]

end Sys2Proof.Machine
end

section
/-! The inverse passes as commands (`42_filter_synthesis.md` R171, R180, R181). -/

namespace Sys2Proof.Machine

theorem icol_input (s : State) (n m : Nat) : Pass.icol.input s (s.node n) m = s.planeCol n m :=
  List.map_congr_left fun j _ => congrArg s.planeAt (cellIndex_col rfl s n m j)

theorem irow_input (s : State) (n m : Nat) : Pass.irow.input s (s.node n) m = s.scrRow n m :=
  List.map_congr_left fun j _ => congrArg s.scrAt (cellIndex_row rfl s n m j)

/-- The output of an inverse pass, with the line's length as the node gives it (R171, R175). -/
theorem inverse_output {p : Pass} (hp : p.forward = false) (s : State) (e : Node) (m : Nat) :
    p.output s e m = synLine s.bank (p.lineLength e) (unplace (p.inverted e) (p.input s e m)) := by
  rw [Pass.output, Pass.line, if_neg (Bool.eq_false_iff.1 hp), inverseLine, input_length]

theorem icol_output (s : State) (n m : Nat) :
    Pass.icol.output s (s.node n) m =
      synLine s.bank (s.node n).ly (unplace (s.node n).icl (s.planeCol n m)) := by
  rw [inverse_output rfl, icol_input]
  rfl

theorem irow_output (s : State) (n m : Nat) :
    Pass.irow.output s (s.node n) m =
      synLine s.bank (s.node n).lx (unplace (s.node n).irw (s.scrRow n m)) := by
  rw [inverse_output rfl, irow_input]
  rfl

/-- Settles O26: the pass out of `PLANE` along columns. -/
theorem icolReconstructsTheColumns : Obligations.IcolReconstructsTheColumns := by
  refine ⟨opDecodesTo_node (op := 0x12) (by decide) (fun _ => rfl) fun _ => rfl, fun s node hnode => ⟨?_, ?_⟩⟩
  · intro hbank hinside hlength
    have h := exec_command_transforms .icol hnode ((check_none_iff .icol _ s).2 ⟨hbank, hinside, hlength⟩)
    simp only [cellIndex_col (p := .icol) rfl, icol_output] at h
    exact h
  · exact fun c info => exec_command_filterFault .icol hnode

/-- Settles O27: the pass out of `SCR` along rows. -/
theorem irowReconstructsTheRows : Obligations.IrowReconstructsTheRows := by
  refine ⟨opDecodesTo_node (op := 0x13) (by decide) (fun _ => rfl) fun _ => rfl, fun s node hnode => ⟨?_, ?_⟩⟩
  · intro hbank hinside hlength
    have h := exec_command_transforms .irow hnode ((check_none_iff .irow _ s).2 ⟨hbank, hinside, hlength⟩)
    simp only [cellIndex_row (p := .irow) rfl, irow_output] at h
    exact h
  · exact fun c info => exec_command_filterFault .irow hnode

end Sys2Proof.Machine
end

section
/-! `RECON` (`30_encoding.md` R106, `42_filter_synthesis.md` R182): the whole-tree loop from the last node down. -/

namespace Sys2Proof.Machine

theorem reconList_eq (n : Nat) : reconList n = nodeCommands .icol .irow (List.range n).reverse := rfl

theorem reconAbove_eq (k n : Nat) :
    reconAbove k n = nodeCommands .icol .irow (List.range' (k + 1) (n - (k + 1))).reverse := rfl

theorem exec_recon {s : State} (h : s.regs.nnodes.toNat ≤ 20) :
    exec .recon s = finish (runNodes .icol .irow (List.range s.regs.nnodes.toNat).reverse s) := by
  refine congrArg finish (if_neg ?_)
  simpa [Config.nTree] using h

/-- Under a legal configuration a node is accepted by its place and the lengths of its lines (R141, R176). -/
theorem nodeAccepted_inverse_iff {s : State} (hbank : s.bankLegal) (n : Nat) :
    s.nodeAccepted .icol .irow n ↔ s.nodeInside n ∧ s.synAccepts (s.node n).lx ∧ s.synAccepts (s.node n).ly := by
  have hcol : Pass.icol.check n s = none ↔ s.bankLegal ∧ s.nodeInside n ∧ s.synAccepts (s.node n).ly :=
    check_none_iff .icol n s
  have hrow : Pass.irow.check n s = none ↔ s.bankLegal ∧ s.nodeInside n ∧ s.synAccepts (s.node n).lx :=
    check_none_iff .irow n s
  rw [State.nodeAccepted, hcol, hrow]
  tauto

/-- The loop and the command list over accepted nodes, both from the state itself. -/
theorem runNodes_execList_self {first second : Pass} {s : State} {l : List Nat} (hl : ∀ n ∈ l, n < 20)
    (h : ∀ n ∈ l, s.nodeAccepted first second n) (hrun : s.regs.state = .run) :
    ∃ u, runNodes first second l s = .done u ∧ u = { s with plane := u.plane, scr := u.scr } ∧
      execList (nodeCommands first second l) s =
        .next (u.withCp (s.regs.cp + BitVec.ofNat 16 (2 * l.length))) := by
  have hlist := runNodes_execList hl h (by simp [hrun]) s.regs.cp
  rwa [withCp_self] at hlist

/-- Where every node is accepted: loop and command list, node by node. -/
theorem exec_recon_accepted {s : State} (hrun : s.regs.state = .run) (hnodes : s.regs.nnodes.toNat ≤ 20)
    (h : ∀ n < s.regs.nnodes.toNat, s.nodeAccepted .icol .irow n) :
    ∃ u, execList (reconList s.regs.nnodes.toNat) s = .next u ∧
      exec .recon s = .next { u with regs := { s.regs with cp := s.regs.cp + 1 } } ∧
      u = { s with plane := u.plane, scr := u.scr,
                   regs := { s.regs with cp := s.regs.cp + BitVec.ofNat 16 (2 * s.regs.nnodes.toNat) } } := by
  have hmem {n : Nat} (hn : n ∈ (List.range s.regs.nnodes.toNat).reverse) : n < s.regs.nnodes.toNat := by
    simpa using hn
  obtain ⟨u, hdone, hframe, hlist⟩ :=
    runNodes_execList_self (fun n hn => (hmem hn).trans_le hnodes) (fun n hn => h n (hmem hn)) hrun
  rw [← reconList_eq, List.length_reverse, List.length_range] at hlist
  refine ⟨_, hlist, ?_, ?_⟩
  · rw [exec_recon hnodes, hdone, finish_done, hframe]
    rfl
  · rw [hframe]
    rfl

theorem range_reverse_split {k n : Nat} (h : k < n) :
    (List.range n).reverse = (List.range' (k + 1) (n - (k + 1))).reverse ++ k :: (List.range k).reverse := by
  have hsplit : List.range n = List.range k ++ k :: List.range' (k + 1) (n - (k + 1)) := by
    obtain ⟨d, rfl⟩ := Nat.exists_eq_add_of_le (Nat.succ_le_of_lt h)
    rw [Nat.add_sub_cancel_left, List.range_add, List.range_succ, List.append_assoc, List.singleton_append,
      ← List.range'_eq_map_range]
  rw [hsplit, List.reverse_append, List.reverse_cons, List.append_assoc, List.singleton_append]

/-- Where node `k` is the first refused one: the loop over the nodes above it is the command list's, and node `k` does
not reach `PLANE`. -/
theorem exec_recon_refused {s : State} {k : Nat} (hrun : s.regs.state = .run) (hnodes : s.regs.nnodes.toNat ≤ 20)
    (hk : k < s.regs.nnodes.toNat) (hbank : s.bankLegal)
    (h : ∀ n, k < n → n < s.regs.nnodes.toNat → s.nodeAccepted .icol .irow n)
    (hbad : ¬ s.nodeAccepted .icol .irow k) :
    ∃ u t, execList (reconAbove k s.regs.nnodes.toNat) s = .next u ∧ exec .recon s = .next t ∧
      t.plane = u.plane ∧ t.regs = { s.regs with err := 4, errinfo := BitVec.ofNat 16 k, state := .fault } ∧
      t = { s with plane := t.plane, scr := t.scr, regs := t.regs } := by
  have hmem {n : Nat} (hn : n ∈ (List.range' (k + 1) (s.regs.nnodes.toNat - (k + 1))).reverse) :
      k < n ∧ n < s.regs.nnodes.toNat := by
    rw [List.mem_reverse, List.mem_range'_1] at hn
    omega
  obtain ⟨u, hdone, hframe, hlist⟩ := runNodes_execList_self (fun n hn => (hmem hn).2.trans_le hnodes)
    (fun n hn => h n (hmem hn).1 (hmem hn).2) hrun
  rw [← reconAbove_eq] at hlist
  obtain ⟨scr, hraised⟩ := runNodes_stops (List.range k).reverse rfl hdone hframe hbank hbad
  have hexec : exec .recon s = .next (State.raise { u with scr := scr } .geom (BitVec.ofNat 16 k)) := by
    rw [exec_recon hnodes, range_reverse_split hk, hraised, finish_raised]
  refine ⟨_, _, hlist, hexec, rfl, ?_, ?_⟩ <;> rw [hframe] <;> rfl

/-- Settles O29: acceptance node by node, in the terms of the passes' checks. -/
theorem reconIsItsPassesInReverse : Obligations.ReconIsItsPassesInReverse := by
  refine ⟨fun s hrun hnodes hbank h => ?_, fun s k hrun hnodes hk hbank h hbad => ?_⟩
  · exact exec_recon_accepted hrun hnodes fun n hn => (nodeAccepted_inverse_iff (hbank (by omega)) n).2 (h n hn)
  · exact exec_recon_refused hrun hnodes hk hbank (fun n hkn hn => (nodeAccepted_inverse_iff hbank n).2 (h n hkn hn))
      ((nodeAccepted_inverse_iff hbank k).not.2 hbad)

end Sys2Proof.Machine
end

section
/-! The canonical code (`43_huffman_decoder.md` R215): the length of a symbol's code by the count of the symbols up to
that length, and the code itself as the first code of its length plus the symbol's place among those of that length. -/

namespace Sys2Proof.Machine

variable {n : Nat → Nat}

/-! ### The length of a code -/

theorem mem_codeLengths {l : Nat} : l ∈ (List.range Config.maxBits).map (· + 1) ↔ 1 ≤ l ∧ l ≤ 16 := by
  simp only [List.mem_map, List.mem_range, Config.maxBits]
  exact ⟨fun ⟨i, hi, h⟩ => by omega, fun h => ⟨l - 1, by omega, by omega⟩⟩

/-- The symbol lies behind all shorter codes and before the end of its own length's. -/
structure HasSize (n : Nat → Nat) (j l : Nat) : Prop where
  pos : 1 ≤ l
  le : l ≤ 16
  lower : countsUpTo n (l - 1) ≤ j
  upper : j < countsUpTo n l

theorem hasSize_codeSize {j : Nat} (hj : j < countsUpTo n 16) : HasSize n j (codeSize n j) := by
  have hfound : (((List.range Config.maxBits).map (· + 1)).find? fun l => decide (j < countsUpTo n l)).isSome = true :=
    List.find?_isSome.2 ⟨16, mem_codeLengths.2 (by decide), by simpa using hj⟩
  obtain ⟨l, hl⟩ := Option.isSome_iff_exists.1 hfound
  have hsize : codeSize n j = l := by rw [codeSize, hl, Option.getD_some]
  obtain ⟨h1, h16⟩ := mem_codeLengths.1 (List.mem_of_find?_eq_some hl)
  refine hsize ▸ ⟨h1, h16, ?_, by simpa using List.find?_some hl⟩
  rcases Nat.eq_or_lt_of_le h1 with rfl | h1
  · exact Nat.zero_le j
  · obtain ⟨_, i, hi, hil, hbefore⟩ := List.find?_eq_some_iff_getElem.1 hl
    have hi2 : i + 1 = l := by simpa using hil
    have := hbefore (i - 1) (by omega)
    simp only [List.getElem_map, List.getElem_range, Bool.not_eq_true', decide_eq_false_iff_not] at this
    rw [show i - 1 + 1 = l - 1 by omega] at this
    omega

/-- Later symbols have no shorter codes. -/
theorem HasSize.mono {i j l k : Nat} (hi : HasSize n i l) (hj : HasSize n j k) (h : i ≤ j) : l ≤ k := by
  by_contra hlt
  have hle := countsUpTo_mono n k (l - 1) (by omega)
  have hlower := hi.lower
  have hupper := hj.upper
  omega

theorem HasSize.codeSize_eq {j l : Nat} (h : HasSize n j l) : codeSize n j = l := by
  have hj := hasSize_codeSize (n := n) (h.upper.trans_le (countsUpTo_mono n l 16 h.le))
  exact Nat.le_antisymm (hj.mono h (le_refl j)) (h.mono hj (le_refl j))

theorem codeSize_mono {i j : Nat} (h : i ≤ j) (hj : j < countsUpTo n 16) : codeSize n i ≤ codeSize n j :=
  (hasSize_codeSize (h.trans_lt hj)).mono (hasSize_codeSize hj) h

theorem countsUpTo_pred {l : Nat} (h : 1 ≤ l) : countsUpTo n l = countsUpTo n (l - 1) + n l := by
  obtain ⟨l, rfl⟩ := Nat.exists_eq_add_of_le' h
  exact countsUpTo_succ n l

/-- The last symbol of a length that has codes. -/
theorem hasSize_last {l : Nat} (h1 : 1 ≤ l) (h16 : l ≤ 16) (hn : n l ≠ 0) : HasSize n (countsUpTo n l - 1) l := by
  have hpred := countsUpTo_pred (n := n) h1
  exact ⟨h1, h16, by omega, by omega⟩

/-! ### The code -/

/-- From one symbol's code to a later one's: one more at least, with zeros appended where the code is longer. -/
theorem succ_codeOf_le {i j : Nat} (hij : i < j) (hj : j < countsUpTo n 16) :
    (codeOf n i + 1) * 2 ^ (codeSize n j - codeSize n i) ≤ codeOf n j := by
  induction j, hij using Nat.le_induction with
  | base => exact le_refl _
  | succ j hij ih =>
    have hi : codeSize n i ≤ codeSize n j := codeSize_mono (Nat.le_of_succ_le hij) (by omega)
    have hstep : codeSize n j ≤ codeSize n (j + 1) := codeSize_mono (Nat.le_succ j) hj
    calc (codeOf n i + 1) * 2 ^ (codeSize n (j + 1) - codeSize n i)
      _ = (codeOf n i + 1) * 2 ^ (codeSize n j - codeSize n i) * 2 ^ (codeSize n (j + 1) - codeSize n j) := by
          rw [mul_assoc, ← pow_add]
          congr 2
          omega
      _ ≤ (codeOf n j + 1) * 2 ^ (codeSize n (j + 1) - codeSize n j) :=
          Nat.mul_le_mul_right _ ((ih (by omega)).trans (Nat.le_succ _))
      _ = codeOf n (j + 1) := rfl

/-- The first code after a length whose next codes are longer: the end of that length's codes, zeros appended. -/
theorem firstCode_of_gap {l k : Nat} (hl : 1 ≤ l) (hk : l < k) (hgap : countsUpTo n (k - 1) = countsUpTo n l) :
    firstCode n k = (firstCode n l + n l) * 2 ^ (k - l) := by
  induction k, hk using Nat.le_induction with
  | base => rw [firstCode_succ n l hl, Nat.succ_sub (le_refl l), Nat.sub_self, pow_one, Nat.mul_comm]
  | succ k hk ih =>
    have hpred := countsUpTo_pred (n := n) (l := k) (by omega)
    have hle := countsUpTo_mono n l (k - 1) (by omega)
    rw [Nat.add_sub_cancel] at hgap
    rw [firstCode_succ n k (by omega), ih (by omega), Nat.succ_sub (by omega), pow_succ]
    have hzero : n k = 0 := by omega
    rw [hzero]
    ring

/-- The code of a symbol is the first of its length plus the symbol's place there (R215). -/
theorem HasSize.codeOf_eq {j l : Nat} (h : HasSize n j l) :
    codeOf n j = firstCode n l + (j - countsUpTo n (l - 1)) := by
  induction j generalizing l with
  | zero =>
    have hlower := h.lower
    rcases Nat.eq_or_lt_of_le h.pos with rfl | hl
    · rfl
    · have hgap : countsUpTo n (l - 1) = countsUpTo n 1 := by
        have := countsUpTo_mono n 1 (l - 1) (by omega)
        omega
      have hone : n 1 = 0 := by
        have : countsUpTo n 1 = 0 + n 1 := rfl
        omega
      rw [firstCode_of_gap (le_refl 1) hl hgap, firstCode_one, hone, codeOf]
      omega
  | succ j ih =>
    have hprev := hasSize_codeSize (n := n) (j := j)
      ((Nat.lt_succ_self j).trans (h.upper.trans_le (countsUpTo_mono n l 16 h.le)))
    have hcode := ih hprev
    have hle := hprev.mono h (Nat.le_succ j)
    have hlower := h.lower
    have hupper := hprev.upper
    have hplower := hprev.lower
    rw [codeOf, h.codeSize_eq, hcode]
    generalize codeSize n j = m at *
    rcases Nat.eq_or_lt_of_le hle with rfl | hlt
    · rw [Nat.sub_self, pow_zero]
      omega
    · have hmono := countsUpTo_mono n m (l - 1) (by omega)
      have hpred := countsUpTo_pred (n := n) hprev.pos
      rw [firstCode_of_gap hprev.pos hlt (by omega), show j + 1 - countsUpTo n (l - 1) = 0 by omega,
        show firstCode n m + (j - countsUpTo n (m - 1)) + 1 = firstCode n m + n m by omega, Nat.add_zero]

/-- Settles O44: a later symbol's code cut to an earlier one's length is larger than that one's code. -/
theorem canonicalCodeIsPrefixFree : Obligations.CanonicalCodeIsPrefixFree := by
  intro n _ i hi j hj hne hsize heq
  rcases Nat.lt_or_gt_of_ne hne with hij | hji
  · have hle := (Nat.le_div_iff_mul_le (Nat.two_pow_pos _)).2 (succ_codeOf_le hij hj)
    omega
  · have hsame : codeSize n j = codeSize n i := Nat.le_antisymm (codeSize_mono hji.le hi) hsize
    have hle := succ_codeOf_le hji hi
    rw [hsame, Nat.sub_self, pow_zero] at hle heq
    omega

/-! ### Validity -/

theorem tableValid_iff (n : Nat → Nat) :
    tableValid n = true ↔ countsUpTo n 16 ≤ 256 ∧ ∀ l, 1 ≤ l → l ≤ 16 → firstCode n l + n l ≤ 2 ^ l := by
  rw [tableValid, Bool.and_eq_true, decide_eq_true_eq, codesFit_iff]

/-- Settles O45: a symbol's code is below the end of its length's codes, and the last symbol of a length reaches it. -/
theorem tableIsValidWhenEveryCodeFits : Obligations.TableIsValidWhenEveryCodeFits := by
  intro n
  rw [tableValid_iff]
  refine and_congr_right fun _ => ⟨fun hfit j hj => ?_, fun hcodes => ?_⟩
  · have h := hasSize_codeSize hj
    have hend := hfit _ h.pos h.le
    have hpred := countsUpTo_pred (n := n) h.pos
    have hlower := h.lower
    have hupper := h.upper
    rw [h.codeOf_eq]
    omega
  · refine (codesFit_iff n 16).1 (codesFit_of_used n 16 fun l h1 h16 => or_iff_not_imp_left.2 fun hn => ?_)
    have h := hasSize_last h1 h16 hn
    have hlt := hcodes _ (h.upper.trans_le (countsUpTo_mono n l 16 h16))
    have hpred := countsUpTo_pred (n := n) h1
    rw [h.codeOf_eq, h.codeSize_eq] at hlt
    omega

/-! ### The derived arrays of a valid table -/

section Exact

variable {s : State} {t l : Nat} (hexact : s.derivedExact t = true) (h1 : 1 ≤ l) (h16 : l ≤ 16)
include hexact h1 h16

theorem mincodeAt_of_exact : s.mincodeAt t l = BitVec.ofNat 16 (derivedOf (s.count t) l).1 :=
  s.cell_of_lookup _ _ _ _ ((derivedExact_iff s t).1 hexact .mincode l h1 h16)

theorem maxcodeAt_of_exact : s.maxcodeAt t l = BitVec.ofNat 16 (derivedOf (s.count t) l).2.1 :=
  s.cell_of_lookup _ _ _ _ ((derivedExact_iff s t).1 hexact .maxcode l h1 h16)

theorem valptrAt_of_exact : s.valptrAt t l = BitVec.ofNat 16 (derivedOf (s.count t) l).2.2 :=
  s.cell_of_lookup _ _ _ _ ((derivedExact_iff s t).1 hexact .valptr l h1 h16)

/-- A length without codes holds the filler (R221). -/
theorem derivedAt_of_unused (hn : s.count t l = 0) :
    s.mincodeAt t l = 0 ∧ s.maxcodeAt t l = 0xFFFF ∧ s.valptrAt t l = 0 := by
  rw [mincodeAt_of_exact hexact h1 h16, maxcodeAt_of_exact hexact h1 h16, valptrAt_of_exact hexact h1 h16, derivedOf,
    if_pos hn]
  exact ⟨rfl, rfl, rfl⟩

/-- A length with codes holds their first, their last and the symbols before them, none of them cut to its cell. -/
theorem toNat_derivedAt_of_used (hvalid : tableValid (s.count t) = true) (hn : s.count t l ≠ 0) :
    (s.mincodeAt t l).toNat = firstCode (s.count t) l ∧
    (s.maxcodeAt t l).toNat = firstCode (s.count t) l + s.count t l - 1 ∧
    (s.valptrAt t l).toNat = countsUpTo (s.count t) (l - 1) := by
  obtain ⟨hsum, hfit⟩ := (tableValid_iff _).1 hvalid
  have hcodes := (hfit l h1 h16).trans (Nat.pow_le_pow_right two_pos h16)
  have hptr := (countsUpTo_mono (s.count t) (l - 1) 16 (by omega)).trans hsum
  rw [mincodeAt_of_exact hexact h1 h16, maxcodeAt_of_exact hexact h1 h16, valptrAt_of_exact hexact h1 h16, derivedOf,
    if_neg hn]
  simp only [BitVec.toNat_ofNat]
  omega

/-- The match test finds exactly the codes of the length (R223). -/
theorem codeMatches_iff (hvalid : tableValid (s.count t) = true) (code : Nat) :
    s.codeMatches t l code = true ↔
      firstCode (s.count t) l ≤ code ∧ code < firstCode (s.count t) l + s.count t l := by
  have hcount : s.hbitsAt t l ≠ 0 ↔ s.count t l ≠ 0 := not_congr BitVec.toNat_eq
  simp only [State.codeMatches, Bool.and_eq_true, decide_eq_true_eq, hcount]
  by_cases hn : s.count t l = 0
  · exact iff_of_false (fun h => h.1.1 hn) (by omega)
  · obtain ⟨hmin, hmax, -⟩ := toNat_derivedAt_of_used hexact h1 h16 hvalid hn
    rw [hmin, hmax]
    omega

/-- The symbol index of a code is its place among its length's, behind the symbols of all shorter codes (R223). -/
theorem lookupIndex_eq (hvalid : tableValid (s.count t) = true) {code : Nat} (hmatch : s.codeMatches t l code = true) :
    (s.valptrAt t l).toNat + code - (s.mincodeAt t l).toNat =
      countsUpTo (s.count t) (l - 1) + (code - firstCode (s.count t) l) := by
  obtain ⟨hmin, hmax⟩ := (codeMatches_iff hexact h1 h16 hvalid code).1 hmatch
  obtain ⟨hfirst, -, hptr⟩ := toNat_derivedAt_of_used hexact h1 h16 hvalid (by omega)
  rw [hfirst, hptr]
  omega

end Exact

/-- Settles O46: the place of a match lies before the end of its length's symbols. -/
theorem lookupIndexStaysInTheTable : Obligations.LookupIndexStaysInTheTable := by
  intro s t l code hvalid hexact h1 h16 hmatch
  obtain ⟨hmin, hmax⟩ := (codeMatches_iff hexact h1 h16 hvalid code).1 hmatch
  obtain ⟨hsum, -⟩ := (tableValid_iff _).1 hvalid
  have hpred := countsUpTo_pred (n := s.count t) h1
  have hmono := countsUpTo_mono (s.count t) l 16 h16
  rw [lookupIndex_eq hexact h1 h16 hvalid hmatch]
  omega

end Sys2Proof.Machine
end

section
/-! The bit reader (`43_huffman_decoder.md` R210): its cases, what a bit read leaves unchanged, and that it neither sees
nor changes the valid flags. -/

namespace Sys2Proof.Machine

/-! ### `GetByte` and `NextBit` -/

/-- A byte can be read at `BSPTR` (R33). -/
def State.byteLeft (s : State) : Prop :=
  s.regs.bsptr.toNat < s.regs.bsend.toNat ∧ s.regs.bsptr.toNat < s.params.bsBytes

/-- `BSPTR` past one byte. -/
def State.skipByte (s : State) : State := { s with regs.bsptr := s.regs.bsptr + 1 }

theorem getByte_of_byteLeft {s : State} (h : s.byteLeft) :
    s.getByte = .byte (s.bsAt s.regs.bsptr.toNat) s.skipByte := by
  obtain ⟨hend, hbytes⟩ := h
  rcases getByte_cases s with ⟨hno, -⟩ | ⟨-, -, hbyte⟩
  · omega
  · exact hbyte

theorem getByte_of_not_byteLeft {s : State} (h : ¬ s.byteLeft) : s.getByte = .bounds s s.regs.bsptr := by
  rcases getByte_cases s with ⟨-, hbounds⟩ | ⟨hend, hbytes, -⟩
  · exact hbounds
  · exact absurd ⟨hend, hbytes⟩ h

/-- Below `BSEND` the pointer does not wrap. -/
theorem toNat_bsptr_succ {s : State} (h : s.byteLeft) : (s.regs.bsptr + 1).toNat = s.regs.bsptr.toNat + 1 := by
  have hend := h.1
  bv_omega

theorem takeBit_eq {s : State} (h : s.regs.bitcnt ≠ 0) :
    s.takeBit =
      .bit (s.regs.bitbuf.getLsbD (s.regs.bitcnt.toNat - 1)) { s with regs.bitcnt := s.regs.bitcnt - 1 } := by
  rw [State.takeBit, toNat_sub_one h]

/-- The first bit of a byte is its highest. -/
theorem takeBit_loadByte (s : State) (b : Byte) :
    (s.loadByte b).takeBit = .bit (b.getLsbD 7) { s with regs.bitbuf := b, regs.bitcnt := 7 } := by
  have hcnt : (s.loadByte b).regs.bitcnt - 1 = 7#4 := by rw [State.loadByte_regs_bitcnt]; decide
  rw [State.takeBit, hcnt]
  rfl

/-- The marker's word as a sum (R35). -/
theorem setMarker_eq (s : State) (b : Byte) :
    s.setMarker b = { s with regs.mkf := true, regs.marker := 0xFF00#16 + b.setWidth 16 } := by
  have hword : (0xFF#8 ++ b : BitVec (8 + 8)) = 0xFF00#16 + b.setWidth 16 := by
    have hb := b.isLt
    refine BitVec.eq_of_toNat_eq ?_
    rw [BitVec.toNat_append, ← Nat.shiftLeft_add_eq_or_of_lt hb, BitVec.toNat_add, BitVec.toNat_setWidth]
    simp only [BitVec.toNat_ofNat, Nat.shiftLeft_eq]
    omega
  rw [State.setMarker, hword]

section EmptyAccumulator

variable {s : State} (h0 : s.regs.bitcnt = 0)
include h0

theorem nextBit_of_no_byte (h : ¬ s.byteLeft) : s.nextBit = .bounds s s.regs.bsptr := by
  simp only [State.nextBit, if_pos h0, getByte_of_not_byteLeft h]

theorem nextBit_of_data_byte (h : s.byteLeft) (hb : s.bsAt s.regs.bsptr.toNat ≠ 0xFF#8) :
    s.nextBit = (s.skipByte.loadByte (s.bsAt s.regs.bsptr.toNat)).takeBit := by
  simp only [State.nextBit, if_pos h0, getByte_of_byteLeft h, if_neg hb]

variable (h : s.byteLeft) (hb : s.bsAt s.regs.bsptr.toNat = 0xFF#8)
include h hb

theorem nextBit_of_all_ones_at_end (hno : ¬ s.skipByte.byteLeft) :
    s.nextBit = .bounds s.skipByte s.skipByte.regs.bsptr := by
  simp only [State.nextBit, if_pos h0, getByte_of_byteLeft h, if_pos hb, getByte_of_not_byteLeft hno]

theorem nextBit_of_stuffed_byte (h2 : s.skipByte.byteLeft)
    (hzero : s.skipByte.bsAt s.skipByte.regs.bsptr.toNat = 0x00#8) :
    s.nextBit = (s.skipByte.skipByte.loadByte 0xFF#8).takeBit := by
  simp only [State.nextBit, if_pos h0, getByte_of_byteLeft h, if_pos hb, getByte_of_byteLeft h2, if_pos hzero]
  rw [hb]

theorem nextBit_of_marker (h2 : s.skipByte.byteLeft)
    (hmarker : s.skipByte.bsAt s.skipByte.regs.bsptr.toNat ≠ 0x00#8) :
    s.nextBit = .marker (s.skipByte.skipByte.setMarker (s.skipByte.bsAt s.skipByte.regs.bsptr.toNat)) := by
  simp only [State.nextBit, if_pos h0, getByte_of_byteLeft h, if_pos hb, getByte_of_byteLeft h2, if_neg hmarker]

end EmptyAccumulator

/-- Settles O35: by the accumulator, then by the byte at `BSPTR`, then by the one after it. -/
theorem nextBitFollowsR210 : Obligations.NextBitFollowsR210 := by
  intro s
  refine ⟨fun hcnt => ?_, fun h0 => ⟨nextBit_of_no_byte h0, fun hend hbytes => ?_⟩⟩
  · rw [State.nextBit, if_neg hcnt, takeBit_eq hcnt]
  · have hleft : s.byteLeft := ⟨hend, hbytes⟩
    have hsucc := toNat_bsptr_succ hleft
    have hptr : s.regs.bsptr + 1 + 1 = s.regs.bsptr + 2 := by rw [BitVec.add_assoc]; rfl
    refine ⟨fun hb => ?_, fun hb => ?_⟩
    · rw [nextBit_of_data_byte h0 hleft hb, takeBit_loadByte]
      rfl
    · rw [← hsucc, ← hptr]
      refine ⟨nextBit_of_all_ones_at_end h0 hleft hb, fun hend2 hbytes2 => ⟨fun hzero => ?_, fun hmarker => ?_⟩⟩
      · rw [nextBit_of_stuffed_byte h0 hleft hb ⟨hend2, hbytes2⟩ hzero, takeBit_loadByte]
        rfl
      · rw [nextBit_of_marker h0 hleft hb ⟨hend2, hbytes2⟩ hmarker, setMarker_eq]
        rfl

/-! ### Reading several bits -/

/-- Two states that differ at most in the accumulator and the pointer: what reading bits changes where it meets no
marker. -/
def sameButAccumulator (s t : State) : Prop :=
  t = { s with regs.bsptr := t.regs.bsptr, regs.bitbuf := t.regs.bitbuf, regs.bitcnt := t.regs.bitcnt }

theorem sameButAccumulator_trans {s t u : State} (hst : sameButAccumulator s t) (htu : sameButAccumulator t u) :
    sameButAccumulator s u := by
  unfold sameButAccumulator at *
  rw [htu, hst]

theorem getByte_sameButAccumulator {s t : State} {b : Byte} (h : s.getByte = .byte b t) : sameButAccumulator s t := by
  rcases getByte_cases s with ⟨-, h'⟩ | ⟨-, -, h'⟩ <;> rw [h'] at h <;> cases h
  rfl

theorem nextBit_sameButAccumulator {s t : State} {b : Bool} (h : s.nextBit = .bit b t) : sameButAccumulator s t := by
  rcases nextBit_cases s with ⟨-, h'⟩ | ⟨-, ⟨_, _, -, h'⟩ | ⟨_, u, h1, -, h'⟩ | ⟨_, _, _, -, -, h'⟩ |
    ⟨u, v, h1, h2, h'⟩ | ⟨_, _, _, -, -, -, h'⟩⟩ <;> rw [h'] at h <;> cases h
  · rfl
  · exact sameButAccumulator_trans (getByte_sameButAccumulator h1) rfl
  · exact sameButAccumulator_trans (getByte_sameButAccumulator h1)
      (sameButAccumulator_trans (getByte_sameButAccumulator h2) rfl)

theorem nextBit_eq_same {s : State} {r : BitResult} (h : s.nextBit = r) : sameButReader s r.state := h ▸ nextBit_same s

theorem readBits_eq_same {s : State} {n v : Nat} {r : BitsResult} (h : s.readBits n v = r) : sameButReader s r.state :=
  h ▸ readBits_same s n v

/-- Where a bit more is read, the first comes from `NextBit` and the others are read after it. -/
theorem readBits_succ_eq_value {s u : State} {n v x : Nat} (h : s.readBits (n + 1) v = .value x u) :
    ∃ b t, s.nextBit = .bit b t ∧ t.readBits n (2 * v + b.toNat) = .value x u := by
  unfold State.readBits at h
  cases hb : s.nextBit with
  | bit b t => exact ⟨b, t, rfl, by simpa only [hb] using h⟩
  | marker t => simp [hb] at h
  | bounds t info => simp [hb] at h

theorem readBits_sameButAccumulator {s u : State} {n v x : Nat} (h : s.readBits n v = .value x u) :
    sameButAccumulator s u := by
  induction n generalizing s v with
  | zero => cases h; rfl
  | succ n ih =>
    obtain ⟨b, t, hbit, hrest⟩ := readBits_succ_eq_value h
    exact sameButAccumulator_trans (nextBit_sameButAccumulator hbit) (ih hrest)

/-- The last of several bits is the lowest of the value (R224). -/
theorem readBits_last {s u : State} {n v x : Nat} (h : s.readBits (n + 1) v = .value x u) :
    ∃ w b, s.readBits n v = .value (x / 2) w ∧ w.nextBit = .bit b u ∧ 2 * (x / 2) + b.toNat = x := by
  induction n generalizing s v with
  | zero =>
    obtain ⟨b, t, hbit, hrest⟩ := readBits_succ_eq_value h
    simp only [State.readBits, BitsResult.value.injEq] at hrest
    obtain ⟨rfl, rfl⟩ := hrest
    have hb := b.toNat_lt
    refine ⟨s, b, ?_, hbit, by omega⟩
    rw [State.readBits, show (2 * v + b.toNat) / 2 = v by omega]
  | succ n ih =>
    obtain ⟨b, t, hbit, hrest⟩ := readBits_succ_eq_value h
    obtain ⟨w, c, hw, hlast, hx⟩ := ih hrest
    exact ⟨w, c, (readBits_succ s t n v b hbit).trans hw, hlast, hx⟩

/-! ### What the reader does not see -/

/-! A result with an update of the state it carries. -/

def ByteResult.map (f : State → State) : ByteResult → ByteResult
  | .byte b s => .byte b (f s)
  | .bounds s info => .bounds (f s) info

def BitResult.map (f : State → State) : BitResult → BitResult
  | .bit b s => .bit b (f s)
  | .marker s => .marker (f s)
  | .bounds s info => .bounds (f s) info

def BitsResult.map (f : State → State) : BitsResult → BitsResult
  | .value v s => .value v (f s)
  | .marker s => .marker (f s)
  | .bounds s info => .bounds (f s) info

/-- An update of the state that each part of the bit reader neither sees nor disturbs. -/
structure ReaderBlind (f : State → State) : Prop where
  bitcnt (s : State) : (f s).regs.bitcnt = s.regs.bitcnt
  getByte (s : State) : (f s).getByte = s.getByte.map f
  takeBit (s : State) : (f s).takeBit = s.takeBit.map f
  loadByte (s : State) (b : Byte) : (f s).loadByte b = f (s.loadByte b)
  setMarker (s : State) (b : Byte) : (f s).setMarker b = f (s.setMarker b)

/-- `GetByte` reads whether a byte is left, that byte, and `BSPTR`. -/
theorem getByte_map {f : State → State} {s : State} (hleft : (f s).byteLeft ↔ s.byteLeft)
    (hbyte : (f s).bsAt (f s).regs.bsptr.toNat = s.bsAt s.regs.bsptr.toNat)
    (hptr : (f s).regs.bsptr = s.regs.bsptr) (hskip : (f s).skipByte = f s.skipByte) :
    (f s).getByte = s.getByte.map f := by
  by_cases h : s.byteLeft
  · rw [getByte_of_byteLeft h, getByte_of_byteLeft (hleft.2 h), hbyte, hskip, ByteResult.map]
  · rw [getByte_of_not_byteLeft h, getByte_of_not_byteLeft (hleft.not.2 h), hptr, ByteResult.map]

theorem readerBlind_clearSymv : ReaderBlind State.clearSymv where
  bitcnt _ := rfl
  getByte _ := getByte_map Iff.rfl rfl rfl rfl
  takeBit _ := rfl
  loadByte _ _ := rfl
  setMarker _ _ := rfl

theorem readerBlind_clearBitv : ReaderBlind State.clearBitv where
  bitcnt _ := rfl
  getByte _ := getByte_map Iff.rfl rfl rfl rfl
  takeBit _ := rfl
  loadByte _ _ := rfl
  setMarker _ _ := rfl

section ReaderBlind

variable {f : State → State} (hf : ReaderBlind f)
include hf

theorem ReaderBlind.nextBit (s : State) : (f s).nextBit = s.nextBit.map f := by
  unfold State.nextBit
  rw [hf.bitcnt, hf.getByte, hf.takeBit]
  split_ifs
  · cases s.getByte with
    | bounds t info => rfl
    | byte b t =>
      simp only [ByteResult.map, hf.getByte, hf.loadByte, hf.takeBit]
      split_ifs
      · cases t.getByte with
        | bounds u info => rfl
        | byte b2 u =>
          simp only [hf.loadByte, hf.takeBit, hf.setMarker]
          split_ifs <;> rfl
      · rfl
  · rfl

theorem ReaderBlind.readBits (s : State) (n v : Nat) : (f s).readBits n v = (s.readBits n v).map f := by
  induction n generalizing s v with
  | zero => rfl
  | succ n ih =>
    unfold State.readBits
    rw [hf.nextBit]
    cases s.nextBit with
    | bit b t => exact ih t _
    | marker t => rfl
    | bounds t info => rfl

end ReaderBlind

end Sys2Proof.Machine
end

section
/-! `BSINIT`, `HBUILD` and `HSEL` (`43_huffman_decoder.md` R220 to R222): their words and their effect. -/

namespace Sys2Proof.Machine

theorem opDecodesTo_table {op : BitVec 8} {command : BitVec 8 → Instr} (hop : op.toNat ∈ [0x21, 0x22])
    (hwf : ∀ arg, (command arg).wellFormed = tableLegal arg) (hword : ∀ arg, encode (command arg) = formatC op arg) :
    opDecodesTo op.toNat 0 7 command :=
  opDecodesTo_operand (by decide) (fun arg _ h => (hwf arg).trans ((tableLegal_iff arg).2 h)) hword
    fun spare arg reg => by rw [illegalFields_table hop]; omega

/-- Settles O36: the one word of `BSINIT` and its effect. -/
theorem bsinitClearsTheReader : Obligations.BsinitClearsTheReader :=
  ⟨opDecodesTo_noOperand (i := .bsinit) (by decide) rfl rfl, fun _ => rfl⟩

/-! ### HSEL -/

theorem exec_hsel {id : BitVec 8} (hid : id.toNat ≤ 7) (s : State) :
    exec (.hsel id) s = finish (hselTable id.toNat s) :=
  congrArg finish (withTable_legal _ _ _ _ ((tableLegal_iff id).2 hid))

/-- `HSELR` of a valid selection: the table's number under the `VALID` bit (R39). -/
theorem hselrWord_of_valid {r : Regs} {id : BitVec 8} (hid : id.toNat ≤ 7) (hr : r.hselId = BitVec.ofNat 3 id.toNat)
    (hvalid : r.hselValid = true) : r.hselrWord = 0x0100#16 ||| id.setWidth 16 := by
  refine BitVec.eq_of_toNat_eq ?_
  rw [Regs.hselrWord, hr, hvalid, BitVec.toNat_append, BitVec.toNat_append, BitVec.toNat_append, BitVec.toNat_or,
    BitVec.toNat_setWidth, BitVec.toNat_ofNat id.toNat 3, Nat.mod_eq_of_lt (show id.toNat < 2 ^ 3 by omega),
    Nat.mod_eq_of_lt (show id.toNat < 2 ^ 16 by omega)]
  simp

/-- Settles O38: by the table's bit in `HBUILT`. -/
theorem hselSelectsABuiltTable : Obligations.HselSelectsABuiltTable := by
  refine ⟨opDecodesTo_table (op := 0x22) (by decide) (fun _ => rfl) fun _ => rfl, fun s id hid => ?_⟩
  rw [exec_hsel hid, hselTable]
  refine ⟨fun hb => ?_, fun hb => ?_⟩
  · rw [if_pos hb]
    exact ⟨_, finish_done _, hselrWord_of_valid hid rfl rfl, rfl⟩
  · rw [if_neg (by simp [hb]), finish_raised, raise_withFault, BitVec.ofNat_toNat]
    rfl

/-! ### HBUILD -/

theorem exec_hbuild {id : BitVec 8} (hid : id.toNat ≤ 7) (s : State) :
    exec (.hbuild id) s = finish (hbuildTable id.toNat s) :=
  congrArg finish (withTable_legal _ _ _ _ ((tableLegal_iff id).2 hid))

/-- Writes to one table's derived cells leave the other tables' alone (R70). -/
theorem lookup_storeAll_other_table {m : Memory 16} {ws : List (Nat × Half)} {t i : Nat} (hws : ∀ c ∈ ws, c.1 / 64 = t)
    (hi : i / 64 ≠ t) : (m.storeAll ws).lookup i = m.lookup i := by
  refine Memory.lookup_storeAll_other _ _ _ fun hmem => ?_
  obtain ⟨c, hc, rfl⟩ := List.mem_map.1 hmem
  exact hi (hws c hc)

/-- The table unbuilt and some of its derived cells stored: where `HBUILD` stands at the end of its loop (R221). -/
def State.unbuiltWith (s : State) (t : Nat) (ws : List (Nat × Half)) : State :=
  { s.unbuild (~~~ (tableBit t)) with hder := s.hder.storeAll ws }

/-- The end of an `HBUILD` of a valid table: every derived cell stored, the flags written, `CP` advanced (R221). -/
def State.builtWith (s : State) (t : Nat) : State :=
  ((s.unbuiltWith t (loopWrites t (s.count t) 16 1)).markBuilt t (hasAllOnes (s.count t))).advance

section Ends

variable {s : State} {id : BitVec 8} (hid : id.toNat ≤ 7)
include hid

theorem exec_hbuild_undefined (hd : s.regs.hdef.getLsbD id.toNat = false) :
    exec (.hbuild id) s = .next (s.withFault 6 (id.setWidth 16)) := by
  rcases hbuildTable_cases id.toNat s with ⟨-, h⟩ | ⟨hd', -⟩ | ⟨hd', -⟩
  · rw [exec_hbuild hid, h, finish_raised, raise_withFault, BitVec.ofNat_toNat]
    rfl
  · exact nomatch hd.symm.trans hd'
  · exact nomatch hd.symm.trans hd'

theorem exec_hbuild_invalid (hd : s.regs.hdef.getLsbD id.toNat = true) (hv : tableValid (s.count id.toNat) = false) :
    ∃ ws, (∀ c ∈ ws, c.1 / 64 = id.toNat) ∧
      exec (.hbuild id) s = .next ((s.unbuiltWith id.toNat ws).withFault 7 (id.setWidth 16)) := by
  rcases hbuildTable_cases id.toNat s with ⟨hd', -⟩ | ⟨-, -, ws, hws, h⟩ | ⟨-, hv', -⟩
  · exact nomatch hd.symm.trans hd'
  · refine ⟨ws, hws, ?_⟩
    rw [exec_hbuild hid, h, finish_raised, raise_withFault, BitVec.ofNat_toNat]
    rfl
  · exact nomatch hv.symm.trans hv'

theorem exec_hbuild_valid (hd : s.regs.hdef.getLsbD id.toNat = true) (hv : tableValid (s.count id.toNat) = true) :
    exec (.hbuild id) s = .next (s.builtWith id.toNat) := by
  rcases hbuildTable_cases id.toNat s with ⟨hd', -⟩ | ⟨-, hv', -⟩ | ⟨-, -, h⟩
  · exact nomatch hd.symm.trans hd'
  · exact nomatch hv.symm.trans hv'
  · rw [exec_hbuild hid, h, finish_done]
    rfl

end Ends

theorem getLsbD_hbuilt_unbuiltWith (s : State) (t : Nat) (ws : List (Nat × Half)) (i : Nat) :
    (s.unbuiltWith t ws).regs.hbuilt.getLsbD i = (s.regs.hbuilt.getLsbD i && decide (i ≠ t)) :=
  getLsbD_and_not_tableBit _ t i

theorem getLsbD_hbuilt_builtWith (s : State) (t : Nat) {i : Nat} (hi : i < 8) :
    (s.builtWith t).regs.hbuilt.getLsbD i = (s.regs.hbuilt.getLsbD i || decide (i = t)) := by
  rw [State.builtWith, State.advance_regs_hbuilt, State.markBuilt_regs_hbuilt, getLsbD_setTableBit,
    getLsbD_hbuilt_unbuiltWith]
  rcases eq_or_ne i t with rfl | hit
  · simp [hi]
  · simp [hit]

theorem getLsbD_hwarn_builtWith (s : State) (t : Nat) {i : Nat} (hi : i < 8) :
    (s.builtWith t).regs.hwarn.getLsbD i = if i = t then hasAllOnes (s.count t) else s.regs.hwarn.getLsbD i := by
  rw [State.builtWith, State.advance_regs_hwarn, State.markBuilt_regs_hwarn]
  cases hasAllOnes (s.count t)
  · rw [if_neg Bool.false_ne_true, clearTableBit, getLsbD_and_not_tableBit]
    rcases eq_or_ne i t with rfl | hit
    · simp
    · simp [hit, State.unbuiltWith]
  · rw [if_pos rfl, getLsbD_setTableBit]
    rcases eq_or_ne i t with rfl | hit
    · simp [hi]
    · simp [hit, State.unbuiltWith]

theorem markBuilt_regs_frame (s : State) (t : Nat) (ws : List (Nat × Half)) (allones : Bool) :
    let u := ((s.unbuiltWith t ws).markBuilt t allones).advance
    u.regs = { s.regs with
      cp := s.regs.cp + 1, hbuilt := u.regs.hbuilt, hwarn := u.regs.hwarn, warn := u.regs.warn } := rfl

theorem markBuilt_frame (s : State) (t : Nat) (ws : List (Nat × Half)) (allones : Bool) :
    let u := ((s.unbuiltWith t ws).markBuilt t allones).advance
    u = { s with regs := u.regs, hder := u.hder, staleDraw := u.staleDraw } := rfl

theorem builtWith_hder (s : State) (t : Nat) :
    (s.builtWith t).hder = s.hder.storeAll (loopWrites t (s.count t) 16 1) := by
  rw [State.builtWith, State.advance_hder, State.markBuilt_hder, State.unbuiltWith]

theorem lookup_builtWith_other_table (s : State) (t i : Nat) (hi : i / 64 ≠ t) :
    (s.builtWith t).hder.lookup i = s.hder.lookup i := by
  rw [builtWith_hder, lookup_storeAll_other_table (loopWrites_table t _ 16 (le_refl 16)) hi]

theorem builtWith_count (s : State) (t : Nat) : (s.builtWith t).count = s.count := rfl

theorem derivedExact_builtWith (s : State) (t : Nat) : (s.builtWith t).derivedExact t = true :=
  derivedExact_of_loopWrites (congrFun (builtWith_count s t) t) (builtWith_hder s t)

/-- Settles O37: the three ends of the command; the arrays a valid table gets are exact, so they are those of R221. -/
theorem hbuildBuildsTheCanonicalCode : Obligations.HbuildBuildsTheCanonicalCode := by
  refine ⟨opDecodesTo_table (op := 0x21) (by decide) (fun _ => rfl) fun _ => rfl,
    fun s id hid => ⟨exec_hbuild_undefined hid, fun hd hv => ?_, fun hd hv => ?_⟩⟩
  · obtain ⟨ws, hws, h⟩ := exec_hbuild_invalid hid hd hv
    exact ⟨_, h, fun i _ => getLsbD_hbuilt_unbuiltWith s _ ws i, fun i => lookup_storeAll_other_table hws, rfl, rfl⟩
  · have hexact := derivedExact_builtWith s id.toNat
    refine ⟨_, exec_hbuild_valid hid hd hv, fun l h1 h16 => ?_, lookup_builtWith_other_table s id.toNat,
      fun i => getLsbD_hbuilt_builtWith s _, fun i => getLsbD_hwarn_builtWith s _, rfl, markBuilt_regs_frame s _ _ _,
      markBuilt_frame s _ _ _⟩
    have hunused := derivedAt_of_unused hexact h1 h16
    have hused := toNat_derivedAt_of_used hexact h1 h16
    rw [builtWith_count] at hunused hused
    exact ⟨hunused, hused hv⟩

end Sys2Proof.Machine
end

section
/-! `HDEC` and `GETB` (`43_huffman_decoder.md` R223, R224): the checks before the first bit, then the reading, bit after
bit where `HDEC` looks for a match. -/

namespace Sys2Proof.Machine

/-! ### The checks before the first bit (R211) -/

theorem readerReady_of_mkf {s : State} (h : s.regs.mkf = true) (k : State → CmdResult) :
    readerReady s k = .done s := if_pos h

theorem readerReady_of_full {s : State} (hm : s.regs.mkf = false) (h : s.params.resWords ≤ s.regs.resptr.toNat)
    (k : State → CmdResult) : readerReady s k = .raised s .bounds s.regs.resptr := by
  rw [readerReady, if_neg (by simp [hm]), if_pos h]

theorem readerReady_of_ready {s : State} (h : s.readReady) (k : State → CmdResult) : readerReady s k = k s := by
  obtain ⟨hm, hroom⟩ := h
  rw [readerReady, if_neg (by simp [hm]), if_neg (by omega)]

/-! ### HDEC -/

/-- A built table is selected (R222). -/
def State.tableSelected (s : State) : Prop :=
  s.regs.hselValid = true ∧ s.regs.hbuilt.getLsbD s.regs.hselId.toNat = true

theorem exec_hdec_of_selected {s : State} (h : s.tableSelected) :
    exec .hdec s =
      finish (readerReady s.clearSymv fun u => u.decodeLoop s.regs.hselId.toNat Config.maxBits 1 0) := by
  obtain ⟨hvalid, hbuilt⟩ := h
  simp only [exec, execHdec, hvalid, hbuilt, Bool.true_eq_false, if_false]

theorem exec_hdec_of_ready {s : State} (h : s.tableSelected) (hready : s.readReady) :
    exec .hdec s = finish (s.clearSymv.decodeLoop s.regs.hselId.toNat 16 1 0) := by
  rw [exec_hdec_of_selected h, readerReady_of_ready (s := s.clearSymv) hready]

/-- Settles O40: the checks in their order. -/
theorem hdecWithoutABit : Obligations.HdecWithoutABit := by
  intro s
  refine ⟨fun hvalid => ?_, fun hvalid hbuilt => ?_, fun hvalid hbuilt hm => ?_, fun hvalid hbuilt hm hfull => ?_⟩
  · simp only [exec, execHdec, hvalid, if_true]
    rfl
  · simp only [exec, execHdec, hvalid, hbuilt, Bool.true_eq_false, if_false, if_true, BitVec.ofNat_toNat]
    rfl
  · rw [exec_hdec_of_selected ⟨hvalid, hbuilt⟩, readerReady_of_mkf (s := s.clearSymv) hm]
    rfl
  · rw [exec_hdec_of_selected ⟨hvalid, hbuilt⟩, readerReady_of_full (s := s.clearSymv) hm hfull]
    rfl

/-- The match test reads nothing that the bit reader changes. -/
theorem codeMatches_congr {s u : State} (h : sameButReader s u) (t l code : Nat) :
    u.codeMatches t l code = s.codeMatches t l code := by
  rw [h]
  rfl

/-- Cutting what is read to its first bits gives what was read up to there. -/
theorem readBits_div {s u : State} {n v x : Nat} (h : s.readBits n v = .value x u) : x / 2 ^ n = v := by
  obtain ⟨hlower, hupper⟩ := readBits_bound s u n v x h
  exact Nat.div_eq_of_lt_le hlower hupper

/-- Over `k` bits without a match the loop goes on (R223). -/
theorem decodeLoop_of_no_match {s u : State} {t k m l code v : Nat} (hread : s.readBits k code = .value v u)
    (hno : ∀ i < k, s.codeMatches t (l + i) (v / 2 ^ (k - (i + 1))) = false) :
    s.decodeLoop t (k + m) l code = u.decodeLoop t m (l + k) v := by
  induction k generalizing s l code with
  | zero =>
    cases hread
    rw [Nat.zero_add, Nat.add_zero]
  | succ k ih =>
    obtain ⟨b, w, hbit, hrest⟩ := readBits_succ_eq_value hread
    have hsame : sameButReader s w := nextBit_eq_same hbit
    have hfirst : w.codeMatches t l (2 * code + b.toNat) = false := by
      have h0 := hno 0 (Nat.succ_pos k)
      rwa [Nat.zero_add, Nat.add_sub_cancel, readBits_div hrest, Nat.add_zero, ← codeMatches_congr hsame] at h0
    have hothers : ∀ i < k, w.codeMatches t (l + 1 + i) (v / 2 ^ (k - (i + 1))) = false := fun i hi => by
      have hi' := hno (i + 1) (Nat.succ_lt_succ hi)
      rwa [Nat.add_sub_add_right, ← codeMatches_congr hsame, ← Nat.add_assoc, Nat.add_right_comm] at hi'
    rw [Nat.add_right_comm, State.decodeLoop, hbit]
    simp only [hfirst, Bool.false_eq_true, if_false]
    rw [ih hrest hothers, Nat.add_assoc, Nat.add_comm 1 k]

theorem sameButReader_cp {s t : State} (h : sameButReader s t) : t.regs.cp = s.regs.cp := by rw [h]

/-- Settles O41: the loop goes on over the bits without a match, and then it meets what ends it. -/
theorem hdecWithoutASymbol : Obligations.HdecWithoutASymbol := by
  rintro s u _ k v rfl hvalid hbuilt hm hroom hk hread hno
  have hloop (m : Nat) (hkm : k + m = 16) :
      exec .hdec s = finish (u.decodeLoop s.regs.hselId.toNat m (1 + k) v) := by
    rw [exec_hdec_of_ready ⟨hvalid, hbuilt⟩ ⟨hm, hroom⟩, ← hkm]
    refine congrArg finish (decodeLoop_of_no_match hread fun i hi => ?_)
    rw [Nat.add_comm 1 i]
    exact hno (i + 1) (Nat.succ_pos i) hi
  refine ⟨fun h16 => ?_, fun hlt w hw => ?_, fun hlt w info hw => ?_⟩
  · exact hloop 0 h16
  · have hcp : w.regs.cp = s.regs.cp :=
      (sameButReader_cp (nextBit_eq_same hw)).trans (sameButReader_cp (s := s.clearSymv) (readBits_eq_same hread))
    rw [hloop (15 - k + 1) (by omega), State.decodeLoop, hw, ← hcp]
    rfl
  · rw [hloop (15 - k + 1) (by omega), State.decodeLoop, hw]
    rfl

/-- The code of a symbol, cut to a shorter length, lies past the codes of that length (R215). -/
theorem HasSize.cut_code_ge {n : Nat → Nat} {j k l : Nat} (h : HasSize n j k) (h1 : 1 ≤ l) (hl : l < k) (hn : n l ≠ 0) :
    firstCode n l + n l ≤ codeOf n j / 2 ^ (k - l) := by
  have hlast := hasSize_last h1 (hl.le.trans h.le) hn
  have hpred := countsUpTo_pred (n := n) h1
  have hmono := countsUpTo_mono n l (k - 1) (by omega)
  have hlower := h.lower
  have hle := succ_codeOf_le (i := countsUpTo n l - 1) (by omega) (h.upper.trans_le (countsUpTo_mono n k 16 h.le))
  rw [h.codeSize_eq, hlast.codeSize_eq, hlast.codeOf_eq] at hle
  refine le_trans ?_ ((Nat.le_div_iff_mul_le (Nat.two_pow_pos _)).2 hle)
  omega

/-- A symbol's code matches at its own length and there gives its index. -/
theorem codeMatches_codeOf {s : State} {t j : Nat} (hvalid : tableValid (s.count t) = true)
    (hexact : s.derivedExact t = true) (hj : j < countsUpTo (s.count t) 16) :
    s.codeMatches t (codeSize (s.count t) j) (codeOf (s.count t) j) = true ∧
    s.symbolOf t (codeSize (s.count t) j) (codeOf (s.count t) j) = s.hvalAt t j := by
  have h := hasSize_codeSize hj
  have hpred := countsUpTo_pred (n := s.count t) h.pos
  have hlower := h.lower
  have hupper := h.upper
  have hmatch : s.codeMatches t (codeSize (s.count t) j) (codeOf (s.count t) j) = true := by
    rw [codeMatches_iff hexact h.pos h.le hvalid, h.codeOf_eq]
    omega
  refine ⟨hmatch, ?_⟩
  rw [State.symbolOf, lookupIndex_eq hexact h.pos h.le hvalid hmatch, h.codeOf_eq, Nat.add_sub_cancel_left,
    Nat.add_sub_cancel' hlower]

/-- No shorter beginning of a symbol's code matches. -/
theorem codeMatches_cut_codeOf {s : State} {t j l : Nat} (hvalid : tableValid (s.count t) = true)
    (hexact : s.derivedExact t = true) (hj : j < countsUpTo (s.count t) 16) (h1 : 1 ≤ l)
    (hl : l < codeSize (s.count t) j) :
    s.codeMatches t l (codeOf (s.count t) j / 2 ^ (codeSize (s.count t) j - l)) = false := by
  have h := hasSize_codeSize hj
  rw [Bool.eq_false_iff, ne_eq, codeMatches_iff hexact h1 (hl.le.trans h.le) hvalid]
  rintro ⟨hmin, hmax⟩
  have hcut := h.cut_code_ge h1 hl (by omega)
  omega

/-- Where the bits of a symbol's code come next, the loop delivers the symbol after the last of them (R223). -/
theorem decodeLoop_of_code {s u : State} {t j : Nat} (hvalid : tableValid (s.count t) = true)
    (hexact : s.derivedExact t = true) (hj : j < countsUpTo (s.count t) 16)
    (hread : s.readBits (codeSize (s.count t) j) 0 = .value (codeOf (s.count t) j) u) :
    s.decodeLoop t 16 1 0 = .done (u.deliverSymbol (s.hvalAt t j)) := by
  have hsize := hasSize_codeSize hj
  obtain ⟨hmatch, hsymbol⟩ := codeMatches_codeOf hvalid hexact hj
  have hcut := fun l => codeMatches_cut_codeOf (l := l) hvalid hexact hj
  have hpos := hsize.pos
  have hle := hsize.le
  have hframe := readBits_sameButAccumulator hread
  generalize codeOf (s.count t) j = code at *
  obtain ⟨k, hk⟩ := Nat.exists_eq_add_of_le' hpos
  rw [hk] at hread hmatch hsymbol hcut hle
  obtain ⟨w, b, hw, hbit, hcode⟩ := readBits_last hread
  have hno : ∀ i < k, s.codeMatches t (1 + i) (code / 2 / 2 ^ (k - (i + 1))) = false := fun i hi => by
    have h := hcut (1 + i) (Nat.le_add_right 1 i) (by omega)
    rwa [show k + 1 - (1 + i) = k - (i + 1) + 1 by omega, pow_succ', ← Nat.div_div_eq_div_mul] at h
  have hmatchu : u.codeMatches t (1 + k) code = true := by
    rw [hframe, Nat.add_comm 1 k]
    exact hmatch
  have hsymbolu : u.symbolOf t (1 + k) code = s.hvalAt t j := by
    rw [hframe, Nat.add_comm 1 k]
    exact hsymbol
  rw [show 16 = k + (15 - k + 1) by omega, decodeLoop_of_no_match hw hno, State.decodeLoop, hbit]
  simp only [hcode, hmatchu, if_true, hsymbolu]

/-- Settles O39: the code's bits are read one by one, match at its last bit only, and there give the symbol. -/
theorem hdecRecoversEverySymbol : Obligations.HdecRecoversEverySymbol := by
  rintro s u _ j rfl hsel hbuilt hvalid hexact hm hroom hj hread
  have hreadc := (readerBlind_clearSymv.readBits s _ 0).trans (congrArg _ hread)
  have hframe := readBits_sameButAccumulator hread
  rw [exec_hdec_of_ready ⟨hsel, hbuilt⟩ ⟨hm, hroom⟩, decodeLoop_of_code (s := s.clearSymv) hvalid hexact hj hreadc,
    finish_done, hframe]
  rfl

/-! ### GETB -/

theorem exec_getb {n : BitVec 8} (h1 : 1 ≤ n.toNat) (h16 : n.toNat ≤ 16) (s : State) :
    exec (.getb n) s = finish (getbCount n.toNat s) :=
  congrArg finish (withCount_legal _ _ _ _ ((countLegal_iff n).2 ⟨h1, h16⟩))

theorem getbCount_of_marker {s u : State} {n : Nat} (hs : s.readReady) (h : s.clearBitv.readBits n 0 = .marker u) :
    getbCount n s = .done u := by
  rw [getbCount, readerReady_of_ready (s := s.clearBitv) hs, h]

theorem getbCount_of_bounds {s u : State} {n : Nat} {info : Half} (hs : s.readReady)
    (h : s.clearBitv.readBits n 0 = .bounds u info) : getbCount n s = .raised u .bounds info := by
  rw [getbCount, readerReady_of_ready (s := s.clearBitv) hs, h]

/-- Settles O42: the checks in their order, then the three ends of the reading. -/
theorem getbReadsRawBits : Obligations.GetbReadsRawBits := by
  refine ⟨opDecodesTo_operand (op := 0x24) (by decide) (fun arg h1 h16 => (countLegal_iff arg).2 ⟨h1, h16⟩)
    (fun _ => rfl) fun spare arg reg => ?_, fun s n h1 h16 => ?_⟩
  · rw [show (0x24 : BitVec 8).toNat = 0x24 from rfl, illegalFields_count]
    omega
  rw [exec_getb h1 h16]
  refine ⟨fun hm => ?_, fun hm hfull => ?_, fun hm hroom => ?_⟩
  · rw [getbCount, readerReady_of_mkf (s := s.clearBitv) hm]
    rfl
  · rw [getbCount, readerReady_of_full (s := s.clearBitv) hm hfull]
    rfl
  · have hready : s.readReady := ⟨hm, hroom⟩
    have hclear (r : BitsResult) (hread : s.readBits n.toNat 0 = r) :
        s.clearBitv.readBits n.toNat 0 = r.map State.clearBitv :=
      (readerBlind_clearBitv.readBits s _ 0).trans (congrArg _ hread)
    refine ⟨fun v u hread => ⟨?_, ?_⟩, fun u hread => ?_, fun u info hread => ?_⟩
    · simpa using (readBits_bound s u _ 0 v hread).2
    · rw [getbCount_of_value hready (hclear _ hread), readBits_sameButAccumulator hread]
      rfl
    · have hcp : u.regs.cp = s.regs.cp := sameButReader_cp (readBits_eq_same hread)
      rw [getbCount_of_marker hready (hclear _ hread), ← hcp]
      rfl
    · rw [getbCount_of_bounds hready (hclear _ hread)]
      rfl

end Sys2Proof.Machine
end

section
/-! The faults a command raises (`60_exceptions.md` R251 to R253, R256, R257): what each part of a command can raise,
then each command by its row of the table under R252. -/

namespace Sys2Proof.Machine

/-! ### What the parts of a command raise -/

/-- What a failed check of a pass reports: `E_CFG` with a sub-code 1 to 5 (R256), or `E_GEOM` (R257). -/
def filterRaise (e : ErrCode) (info : Half) : Prop :=
  (e = .cfg ∧ 1 ≤ info.toNat ∧ info.toNat ≤ 5) ∨ e = .geom

section Raised

variable {s u : State} {e : ErrCode} {info : Half}

/-- A refused pass has changed nothing (R261). -/
theorem run_raised {p : Pass} {n : Nat} (h : p.run n s = .raised u e info) : u = s ∧ filterRaise e info := by
  by_cases hbank : s.bankLegal
  · rcases run_cases p n s with ⟨_, _, hcheck, h'⟩ | ⟨-, h'⟩ <;> cases h'.symm.trans h
    exact ⟨rfl, .inr (check_geom p n s hbank _ _ hcheck).1⟩
  · obtain ⟨k, h1, h5, hcfg, -⟩ := checkCfg_of_not_bankLegal hbank
    cases (run_of_checkCfg hcfg p n).symm.trans h
    have hk : (BitVec.ofNat 16 k).toNat = k := by rw [BitVec.toNat_ofNat]; omega
    exact ⟨rfl, .inl ⟨rfl, by omega, by omega⟩⟩

theorem runNodes_raised {first second : Pass} {l : List Nat} (h : runNodes first second l s = .raised u e info) :
    filterRaise e info := by
  induction l generalizing s with
  | nil => cases h
  | cons n l ih =>
    rw [runNodes, andThen_eq_raised, andThen_eq_raised] at h
    rcases h with (h | ⟨v, -, h⟩) | ⟨v, -, h⟩
    · exact (run_raised h).2
    · exact (run_raised h).2
    · exact ih h

theorem wholeTree_raised {k : State → CmdResult} (h : wholeTree s k = .raised u e info) :
    (e = .cfg ∧ info = 6) ∨ k s = .raised u e info := by
  unfold wholeTree at h
  split at h
  · cases h; exact .inl ⟨rfl, rfl⟩
  · exact .inr h

theorem readerReady_raised {k : State → CmdResult} (h : readerReady s k = .raised u e info) :
    e = .bounds ∨ k s = .raised u e info := by
  unfold readerReady at h
  split_ifs at h
  · cases h; exact .inl rfl
  · exact .inr h

theorem decodeLoop_raised {t k l code : Nat} (h : s.decodeLoop t k l code = .raised u e info) :
    e = .bounds ∨ e = .hcode := by
  induction k generalizing s l code with
  | zero => cases h; exact .inr rfl
  | succ k ih =>
    unfold State.decodeLoop at h
    cases hb : s.nextBit with
    | marker w => simp [hb] at h
    | bounds w info' => rw [hb] at h; cases h; exact .inl rfl
    | bit b w =>
      simp only [hb] at h
      split at h
      · cases h
      · exact ih h

theorem getbCount_raised {n : Nat} (h : getbCount n s = .raised u e info) : e = .bounds := by
  rcases readerReady_raised h with he | h
  · exact he
  · cases hb : s.clearBitv.readBits n 0 with
    | value v w => simp [hb] at h
    | marker w => simp [hb] at h
    | bounds w info' => rw [hb] at h; cases h; rfl

/-- `HBUILD` of an undefined table has changed nothing (R221). -/
theorem hbuildTable_raised {t : Nat} (h : hbuildTable t s = .raised u e info) : (e = .undef ∧ u = s) ∨ e = .htable := by
  rcases hbuildTable_cases t s with ⟨-, h'⟩ | ⟨-, -, _, -, h'⟩ | ⟨-, -, h'⟩ <;> cases h'.symm.trans h
  · exact .inl ⟨rfl, rfl⟩
  · exact .inr rfl

theorem hselTable_raised {t : Nat} (h : hselTable t s = .raised u e info) : e = .undef ∧ u = s := by
  unfold hselTable at h
  split at h <;> cases h
  exact ⟨rfl, rfl⟩

end Raised

/-! ### The commands -/

/-- The rules on a fault that command `i`, begun in `s`, raises in `u`: its row of the table under R252, the sub-codes
of R256, and what R253 leaves untouched. -/
structure OwnRaise (i : Instr) (s u : State) (e : ErrCode) (info : Half) : Prop where
  listed : e.code ∈ mayRaise i
  subCode : e = .cfg → 1 ≤ info.toNat ∧ (info.toNat ≤ 5 ∨ (info.toNat = 6 ∧ (i = .decomp ∨ i = .recon)))
  untouched : e = .undef ∨ singlePass i = true → u = s

/-- A command ends in a fault of its own. -/
def FaultEntry (i : Instr) (s t : State) : Prop := ∃ u e info, t = u.raise e info ∧ OwnRaise i s u e info

section Commands

variable {i : Instr} {s t u : State} {e : ErrCode} {info : Half}

/-- `E_UNDEF` comes before the first effect. -/
theorem OwnRaise.of_undef (h : 6 ∈ mayRaise i) : OwnRaise i s s .undef info := ⟨h, nofun, fun _ => rfl⟩

/-- The other faults of the Huffman commands. -/
theorem OwnRaise.of_huffman (h : e.code ∈ mayRaise i) (hsingle : singlePass i = false)
    (he : e = .bounds ∨ e = .htable ∨ e = .hcode) : OwnRaise i s u e info where
  listed := h
  subCode := by rcases he with rfl | rfl | rfl <;> exact nofun
  untouched := by rcases he with rfl | rfl | rfl <;> simp [hsingle]

/-- A failed check of a filter command; a single-node one has made no effect by then. -/
theorem OwnRaise.of_filter (h : filterRaise e info) (hlisted : mayRaise i = [3, 4])
    (huntouched : singlePass i = true → u = s) : OwnRaise i s u e info := by
  rcases h with ⟨rfl, h1, h5⟩ | rfl
  · exact ⟨by simp [hlisted, ErrCode.code], fun _ => ⟨h1, .inl h5⟩, fun h => huntouched (h.resolve_left nofun)⟩
  · exact ⟨by simp [hlisted, ErrCode.code], nofun, fun h => huntouched (h.resolve_left nofun)⟩

/-- Done, a command has stayed in the run (R121). -/
theorem advance_not_fault (hu : Reaches s u) (hrun : s.regs.state = .run) : u.advance.regs.state ≠ .fault := by
  rw [State.advance_regs_state, (reaches_cp_state hu).2, hrun]
  exact nofun

/-- A command whose parts cannot raise does not fault. -/
theorem FaultEntry.of_done (hu : Reaches s u) (hrun : s.regs.state = .run) (h : finish (.done u) = .next t)
    (hf : t.regs.state = .fault) : FaultEntry i s t := by
  cases (finish_done u).symm.trans h
  exact absurd hf (advance_not_fault hu hrun)

/-- A command faults only where its parts raise. -/
theorem FaultEntry.of_finish {r : CmdResult} (hr : Reaches s r.state)
    (hown : ∀ u e info, r = .raised u e info → OwnRaise i s u e info) (hrun : s.regs.state = .run)
    (h : finish r = .next t) (hf : t.regs.state = .fault) : FaultEntry i s t := by
  cases r with
  | done u => exact .of_done hr hrun h hf
  | raised u e info =>
    cases (finish_raised u e info).symm.trans h
    exact ⟨u, e, info, rfl, hown u e info rfl⟩

theorem faultEntry_pass (p : Pass) {node : BitVec 8} (hnode : nodeLegal node = true) (hrun : s.regs.state = .run)
    (h : exec (p.command node) s = .next t) (hf : t.regs.state = .fault) : FaultEntry (p.command node) s t := by
  rw [exec_command p ((nodeLegal_iff node).1 hnode)] at h
  refine .of_finish (run_reaches p _ s) (fun u e info hr => ?_) hrun h hf
  obtain ⟨hu, hraise⟩ := run_raised hr
  exact .of_filter hraise (by cases p <;> rfl) fun _ => hu

theorem faultEntry_wholeTree (hi : i = .decomp ∨ i = .recon) (hrun : s.regs.state = .run)
    (h : exec i s = .next t) (hf : t.regs.state = .fault) : FaultEntry i s t := by
  have hlisted : mayRaise i = [3, 4] := by rcases hi with rfl | rfl <;> rfl
  have hsingle : singlePass i = false := by rcases hi with rfl | rfl <;> rfl
  obtain ⟨first, second, l, -, he⟩ := exec_wholeTree hi s
  refine .of_finish (wholeTree_reaches (runNodes_reaches first second l s)) (fun u e info hr => ?_) hrun
    (he.symm.trans h) hf
  rcases wholeTree_raised hr with ⟨rfl, rfl⟩ | hr
  · exact ⟨by simp [hlisted, ErrCode.code], fun _ => ⟨by decide, .inr ⟨rfl, hi⟩⟩, by simp [hsingle]⟩
  · exact .of_filter (runNodes_raised hr) hlisted (by simp [hsingle])

theorem faultEntry_hbuild {id : BitVec 8} (hid : tableLegal id = true) (hrun : s.regs.state = .run)
    (h : exec (.hbuild id) s = .next t) (hf : t.regs.state = .fault) : FaultEntry (.hbuild id) s t := by
  have hle := (tableLegal_iff id).1 hid
  rw [exec_hbuild hle] at h
  refine .of_finish (hbuildTable_reaches (Nat.lt_succ_of_le hle) s) (fun u e info hr => ?_) hrun h hf
  rcases hbuildTable_raised hr with ⟨rfl, rfl⟩ | rfl
  · exact .of_undef (by simp [mayRaise])
  · exact .of_huffman (by simp [mayRaise, ErrCode.code]) rfl (by simp)

theorem faultEntry_hsel {id : BitVec 8} (hid : tableLegal id = true) (hrun : s.regs.state = .run)
    (h : exec (.hsel id) s = .next t) (hf : t.regs.state = .fault) : FaultEntry (.hsel id) s t := by
  rw [exec_hsel ((tableLegal_iff id).1 hid)] at h
  refine .of_finish (hselTable_reaches _ s) (fun u e info hr => ?_) hrun h hf
  obtain ⟨rfl, rfl⟩ := hselTable_raised hr
  exact .of_undef (by simp [mayRaise])

/-- Without a built table selected `HDEC` is `E_UNDEF` at once; past that check the bit reader and the match can
fail (R223). -/
theorem faultEntry_hdec (hrun : s.regs.state = .run) (h : exec .hdec s = .next t) (hf : t.regs.state = .fault) :
    FaultEntry .hdec s t := by
  obtain ⟨hnone, hunbuilt, -⟩ := hdecWithoutABit s
  cases hvalid : s.regs.hselValid with
  | false =>
    cases (hnone hvalid).symm.trans h
    exact ⟨s, .undef, _, rfl, .of_undef (by simp [mayRaise])⟩
  | true =>
    cases hbuilt : s.regs.hbuilt.getLsbD s.regs.hselId.toNat with
    | false =>
      cases (hunbuilt hvalid hbuilt).symm.trans h
      exact ⟨s, .undef, _, rfl, .of_undef (by simp [mayRaise])⟩
    | true =>
      rw [exec_hdec_of_selected ⟨hvalid, hbuilt⟩] at h
      refine .of_finish (Update.clearSymv.reaches.trans (readerReady_reaches fun hs => decodeLoop_reaches hs _ _ _ _))
        (fun u e info hr => ?_) hrun h hf
      have he : e = .bounds ∨ e = .hcode := (readerReady_raised hr).elim .inl decodeLoop_raised
      exact .of_huffman (by rcases he with rfl | rfl <;> simp [mayRaise, ErrCode.code]) rfl (he.imp_right .inr)

theorem faultEntry_getb {n : BitVec 8} (hn : countLegal n = true) (hrun : s.regs.state = .run)
    (h : exec (.getb n) s = .next t) (hf : t.regs.state = .fault) : FaultEntry (.getb n) s t := by
  obtain ⟨h1, h16⟩ := (countLegal_iff n).1 hn
  rw [exec_getb h1 h16] at h
  refine .of_finish (getbCount_reaches _ s) (fun u e info hr => ?_) hrun h hf
  obtain rfl := getbCount_raised hr
  exact .of_huffman (by simp [mayRaise, ErrCode.code]) rfl (by simp)

/-- Every fault that a command of a run ends in is one of its own. -/
theorem exec_faultEntry (hwf : i.wellFormed = true) (hrun : s.regs.state = .run) (h : exec i s = .next t)
    (hf : t.regs.state = .fault) : FaultEntry i s t := by
  cases i with
  | nop => exact .of_done .refl hrun h hf
  | halt => cases h; exact nomatch (hf : RunState.halted = .fault)
  | setr reg imm => exact .of_done (Update.writeReg reg imm).reaches hrun h hf
  | frow node => exact faultEntry_pass .frow hwf hrun h hf
  | fcol node => exact faultEntry_pass .fcol hwf hrun h hf
  | icol node => exact faultEntry_pass .icol hwf hrun h hf
  | irow node => exact faultEntry_pass .irow hwf hrun h hf
  | decomp => exact faultEntry_wholeTree (.inl rfl) hrun h hf
  | recon => exact faultEntry_wholeTree (.inr rfl) hrun h hf
  | bsinit => exact .of_done Update.clearReader.reaches hrun h hf
  | hbuild id => exact faultEntry_hbuild hwf hrun h hf
  | hsel id => exact faultEntry_hsel hwf hrun h hf
  | hdec => exact faultEntry_hdec hrun h hf
  | getb n => exact faultEntry_getb hwf hrun h hf

/-- A fault keeps `CP` at its command (R253): only the end of a command moves it. -/
theorem exec_fault_cp (hrun : s.regs.state = .run) (h : exec i s = .next t) (hf : t.regs.state = .fault) :
    t.regs.cp = s.regs.cp := by
  cases exec_commandEnd i h with
  | done hu => exact absurd hf (advance_not_fault hu hrun)
  | raised hu => exact (reaches_cp_state hu).1
  | halted => cases hf

end Commands

theorem ErrCode.code_inj {e e' : ErrCode} (h : e.code = e'.code) : e = e' := by
  revert h
  cases e <;> cases e' <;> decide

/-- Settles O14: the fault entry of each command, by its row of R252. -/
theorem faultsAreTheCommandsOwn : Obligations.FaultsAreTheCommandsOwn := by
  intro i s t hwf hrun h hf
  obtain ⟨u, e, info, rfl, hown⟩ := exec_faultEntry hwf hrun h hf
  exact ⟨hown.listed, fun h3 => hown.subCode (ErrCode.code_inj (e' := .cfg) h3)⟩

/-- Settles O15: the fault entry of each command; a fault raised in the state the command began in is `withFault`. -/
theorem faultEntryIsPrecise : Obligations.FaultEntryIsPrecise := by
  intro i s t hwf hrun h hf
  refine ⟨exec_fault_cp hrun h hf, fun hcase => ?_⟩
  obtain ⟨u, e, info, rfl, hown⟩ := exec_faultEntry hwf hrun h hf
  obtain rfl := hown.untouched (hcase.imp_left fun h6 => ErrCode.code_inj (e' := .undef) h6)
  exact raise_withFault u e info

end Sys2Proof.Machine
end

section
/-! The state `FAULT` (`60_exceptions.md` R259): what every access of the host leaves of the fault record, and that a
reset alone clears it. -/

namespace Sys2Proof.Machine

/-- What R259 protects: `STATE`, `ERR`, `ERRINFO` and `CP`. -/
def Regs.faultRecord (r : Regs) : RunState × BitVec 8 × Half × Half := (r.state, r.err, r.errinfo, r.cp)

theorem faultRecord_eq_iff {r q : Regs} : q.faultRecord = r.faultRecord ↔
    q.state = r.state ∧ q.err = r.err ∧ q.errinfo = r.errinfo ∧ q.cp = r.cp := by
  simp only [Regs.faultRecord, Prod.mk.injEq]

theorem faultRecord_hostRead (s : State) (space index : Nat) :
    (s.hostRead space index).regs.faultRecord = s.regs.faultRecord := by
  rw [hostRead_frame]
  rfl

theorem faultRecord_writeReg (s : State) (r : WReg) (v : Half) :
    (s.writeReg r v).regs.faultRecord = s.regs.faultRecord := by
  simp [faultRecord_eq_iff]

theorem faultRecord_hostWriteMem (s : State) (id : MemId) (i : Nat) (v : Word) :
    (s.hostWriteMem id i v).regs.faultRecord = s.regs.faultRecord := by
  cases id with
  | tree => rw [hostWriteMem_tree_frame]
  | hder => rw [hostWriteMem_hder_frame]; rfl
  | _ => rfl

section InFault

variable {s : State} (hf : s.regs.state = .fault)
include hf

/-- Without `RST` a write of `CTRL` is ignored (R120, R259). -/
theorem writeCtrl_of_fault {v : Half} (h : v.getLsbD 1 = false) : s.writeCtrl v = s := by
  rcases writeCtrl_cases s v with ⟨hrst, -⟩ | ⟨-, h'⟩ | ⟨-, -, hstopped, -⟩
  · exact nomatch h.symm.trans hrst
  · exact h'
  · exact absurd hstopped (by simp [hf])

/-- A host write keeps the fault record or is the soft reset (R259, R281). -/
theorem hostWrite_of_fault (space index : Nat) (v : Word) :
    (s.hostWrite space index v).regs.faultRecord = s.regs.faultRecord ∨
    ((s.hostWrite space index v).regs = Regs.reset ∧ space = 0 ∧ index = 1 ∧ v.getLsbD 1 = true) := by
  rcases hostWrite_cases s space index v with h | ⟨-, h0, h1, h⟩ | ⟨r, -, -, -, h⟩ | ⟨id, -, -, -, h⟩ <;> rw [h]
  · exact .inl rfl
  · have hbit : (v.setWidth 16).getLsbD 1 = v.getLsbD 1 := by simp
    cases hv : v.getLsbD 1
    · rw [writeCtrl_of_fault hf (hbit.trans hv)]
      exact .inl rfl
    · rw [State.writeCtrl, if_pos (hbit.trans hv)]
      exact .inr ⟨rfl, h0, h1, rfl⟩
  · exact .inl (faultRecord_writeReg s r _)
  · exact .inl (faultRecord_hostWriteMem s id index v)

theorem step_of_ctrl_without_rst {rest : List HostEvent} {v : Word} (hp : s.pending = .write 0 1 v :: rest)
    (hv : v.getLsbD 1 = false) : step s = .next { s with pending := rest } := by
  have hr : s.regs.state ≠ .run := by simp [hf]
  rw [step_of_write hp, hostWrite_ctrl (s := { s with pending := rest }) hr,
    writeCtrl_of_fault (s := { s with pending := rest }) hf (by simpa using hv)]

/-- A step in `FAULT` keeps the fault record or is a reset. -/
theorem step_of_fault {t : State} (h : step s = .next t) :
    t.regs.faultRecord = s.regs.faultRecord ∨
    (t.regs = Regs.reset ∧
      ((∃ rest, s.pending = .hardReset :: rest) ∨
       (∃ v rest, s.pending = .write 0 1 v :: rest ∧ v.getLsbD 1 = true))) := by
  obtain ⟨hidle, hturn⟩ := sequencerRestsOutsideRun s (by simp [hf])
  rcases step_cases s with ⟨hp, -⟩ | ⟨rest, hp, -⟩ | ⟨rest, space, index, -, e⟩ | ⟨rest, space, index, v, hp, e⟩ |
    ⟨rest, hp, e⟩
  · cases (hidle hp).symm.trans h; exact .inl rfl
  · cases (hturn rest hp).symm.trans h; exact .inl rfl
  · cases e.symm.trans h; exact .inl (faultRecord_hostRead { s with pending := rest } space index)
  · cases e.symm.trans h
    rcases hostWrite_of_fault (s := { s with pending := rest }) hf space index v with hkept | ⟨hreset, rfl, rfl, hv⟩
    · exact .inl hkept
    · exact .inr ⟨hreset, .inr ⟨v, rest, hp, hv⟩⟩
  · cases e.symm.trans h; exact .inr ⟨rfl, .inl ⟨rest, hp⟩⟩

end InFault

/-- Settles O16: the sequencer rests, and of the host's accesses only a reset reaches the fault record. -/
theorem faultIsLeftOnlyByReset : Obligations.FaultIsLeftOnlyByReset := by
  intro s hf
  refine ⟨(sequencerRestsOutsideRun s (by simp [hf])).1, fun rest v => step_of_ctrl_without_rst hf, fun t h => ?_⟩
  refine (step_of_fault hf h).imp_left fun hkept => ?_
  obtain ⟨hstate, hrecord⟩ := faultRecord_eq_iff.1 hkept
  exact ⟨hstate.trans hf, hrecord⟩

end Sys2Proof.Machine
end

section
/-! Scratch that is overwritten and cells that nothing has written (`70_reset_and_hazards.md` R282, R283,
`93_implementation_defined.md` U1). -/

namespace Sys2Proof.Machine

/-! ### What `SCR` held before a pair of passes (R282, R283 (a)) -/

section OldScratch

variable {s : State} {n : Nat}

/-- `FROW` leaves the same in its region, whatever `SCR` held there. -/
theorem lookup_frow_writes_inRegion (hinside : s.nodeInside n) (m m' : Memory 32) {i : Nat} (hi : s.inRegion n i) :
    (m.storeAll (Pass.frow.writes s (s.node n))).lookup i = (m'.storeAll (Pass.frow.writes s (s.node n))).lookup i := by
  obtain ⟨y, hy, x, hx, rfl⟩ := hi
  rw [← cellIndex_row (p := .frow) rfl, lookup_writes .frow s n m hinside y x hy hx,
    lookup_writes .frow s n m' hinside y x hy hx]

/-- The region's columns are made of the region's cells. -/
theorem scrCol_congr {m : Nat} {scr : Memory 32} (hm : m < (s.node n).lx)
    (h : ∀ i, s.inRegion n i → State.scrAt { s with scr := scr } i = s.scrAt i) :
    State.scrCol { s with scr := scr } n m = s.scrCol n m :=
  List.map_congr_left fun j hj => h _ ⟨j, List.mem_range.1 hj, m, hm, rfl⟩

/-- `FCOL` reads of `SCR` its region only. -/
theorem fcol_writes_congr {scr : Memory 32}
    (h : ∀ i, s.inRegion n i → State.scrAt { s with scr := scr } i = s.scrAt i) :
    Pass.fcol.writes { s with scr := scr } (s.node n) = Pass.fcol.writes s (s.node n) :=
  writes_congr rfl rfl fun m hm =>
    calc Pass.fcol.input { s with scr := scr } (s.node n) m
      _ = State.scrCol { s with scr := scr } n m := fcol_input { s with scr := scr } n m
      _ = s.scrCol n m := scrCol_congr hm h
      _ = Pass.fcol.input s (s.node n) m := (fcol_input s n m).symm

/-- The pair over a node writes the same into `PLANE`, whatever `SCR` held before: `FCOL` reads back what `FROW` has
just written. -/
theorem fcol_writes_after_frow (hinside : s.nodeInside n) (scr : Memory 32) :
    Pass.fcol.writes (Pass.frow.apply { s with scr := scr } (s.node n)) (s.node n) =
      Pass.fcol.writes (Pass.frow.apply s (s.node n)) (s.node n) :=
  fcol_writes_congr (s := Pass.frow.apply s (s.node n)) fun _ hi =>
    congrArg (Option.getD · _) (lookup_frow_writes_inRegion hinside scr s.scr hi)

theorem afterNode_plane_withScr (hinside : s.nodeInside n) (scr : Memory 32) :
    (State.afterNode .frow .fcol { s with scr := scr } n).plane = (s.afterNode .frow .fcol n).plane :=
  congrArg s.plane.storeAll (fcol_writes_after_frow hinside scr)

theorem afterNode_regs (first second : Pass) (s : State) (n : Nat) : (s.afterNode first second n).regs = s.regs := by
  rw [State.afterNode, apply_regs, apply_regs]

theorem apply_advance (p : Pass) (s : State) (e : Node) : p.apply s.advance e = (p.apply s e).advance := by
  have hwrites : p.writes s.advance e = p.writes s e := writes_withCp p s e (s.regs.cp + 1)
  unfold Pass.apply
  rw [hwrites]
  cases p <;> rfl

theorem check_advance (p : Pass) (n : Nat) (s : State) : p.check n s.advance = p.check n s := rfl

theorem node_advance (s : State) (n : Nat) : s.advance.node n = s.node n := rfl

/-- An accepted pair of passes as commands. -/
theorem exec_frow_fcol {node : BitVec 8} (hnode : node.toNat ≤ 19) (h : s.nodeAccepted .frow .fcol node.toNat) :
    ∃ u, exec (.frow node) s = .next u ∧
      exec (.fcol node) u = .next (s.afterNode .frow .fcol node.toNat).advance.advance := by
  obtain ⟨hrow, hcol⟩ := h
  refine ⟨_, exec_command_accepted .frow hnode hrow, ?_⟩
  have hfcol := exec_command_accepted .fcol (s := (Pass.frow.apply s (s.node node.toNat)).advance) hnode
    (by rw [check_advance, check_apply, hcol])
  rwa [node_advance, apply_node, apply_advance] at hfcol

end OldScratch

/-- Settles O32: `FCOL` finds in its region what `FROW` has left there, and reads nothing else of `SCR`. -/
theorem pairedPassesIgnoreOldScratch : Obligations.PairedPassesIgnoreOldScratch := by
  intro s node scr hnode hbank hinside hrow hcol
  have haccepted := (nodeAccepted_forward_iff hbank node.toNat).2 ⟨hinside, hrow, hcol⟩
  obtain ⟨u, hu, hv⟩ := exec_frow_fcol hnode haccepted
  obtain ⟨u', hu', hv'⟩ := exec_frow_fcol (s := { s with scr := scr }) hnode haccepted
  refine ⟨u, _, u', _, hu, hv, hu', hv', ?_, ?_⟩
  · simp only [State.advance_plane]
    exact afterNode_plane_withScr hinside scr
  · simp only [State.advance, afterNode_regs]

/-! ### The draws of unwritten cells (R282, U1) -/

/-- The state in another power-on period: every unwritten cell has another draw. -/
def State.inPeriod (s : State) (period : Nat) : State := { s with powerOn := period }

section Draws

variable {s : State} {n : Nat} {period : Nat}

/-- A written cell has no draw. -/
theorem cell_inPeriod {w : Nat} (id : MemId) {m : Memory w} {i : Nat} (h : (m.lookup i).isSome = true) :
    (s.inPeriod period).cell id m i = s.cell id m i := by
  obtain ⟨v, hv⟩ := Option.isSome_iff_exists.1 h
  rw [State.cell_of_lookup _ id m i v hv, State.cell_of_lookup _ id m i v hv]

theorem node_inPeriod (h : ∀ f < 6, (s.tree.lookup (n * 8 + f)).isSome = true) :
    (s.inPeriod period).node n = s.node n := by
  have field : ∀ f < 6, (s.inPeriod period).treeAt n f = s.treeAt n f := fun f hf => cell_inPeriod .tree (h f hf)
  simp only [State.node, field 0 (by decide), field 1 (by decide), field 2 (by decide), field 3 (by decide),
    field 4 (by decide), field 5 (by decide)]

theorem bank_inPeriod (hlo : ∀ i < s.regs.lsz.toNat, (s.lotap.lookup i).isSome = true)
    (hhi : ∀ i < s.regs.hsz.toNat, (s.hitap.lookup i).isSome = true) : (s.inPeriod period).bank = s.bank :=
  congrArg₂ Bank.mk (List.map_congr_left fun i hi => cell_inPeriod .lotap (hlo i (List.mem_range.1 hi)))
    (List.map_congr_left fun i hi => cell_inPeriod .hitap (hhi i (List.mem_range.1 hi)))

/-- Of the memories, the checks of a pass read the tree entry only (R140, R141, R147). -/
theorem check_inPeriod (p : Pass) (hnode : (s.inPeriod period).node n = s.node n) :
    p.check n (s.inPeriod period) = p.check n s := by
  have hplace : (s.inPeriod period).checkNode n = s.checkNode n := by
    unfold State.checkNode
    rw [hnode]
    rfl
  unfold Pass.check
  rw [hplace, hnode]
  rfl

/-- The lines of `FROW` are the region's rows of `PLANE`. -/
theorem frow_input_inPeriod (h : ∀ i, s.inRegion n i → (s.plane.lookup i).isSome = true) {m : Nat}
    (hm : m < (s.node n).ly) :
    Pass.frow.input (s.inPeriod period) (s.node n) m = Pass.frow.input s (s.node n) m :=
  List.map_congr_left fun j hj =>
    cell_inPeriod .plane (h _ ⟨m, hm, j, List.mem_range.1 hj, cellIndex_row (p := .frow) rfl s n m j⟩)

theorem frow_apply_inPeriod (hbank : (s.inPeriod period).bank = s.bank)
    (h : ∀ i, s.inRegion n i → (s.plane.lookup i).isSome = true) :
    Pass.frow.apply (s.inPeriod period) (s.node n) = (Pass.frow.apply s (s.node n)).inPeriod period := by
  have hwrites : Pass.frow.writes (s.inPeriod period) (s.node n) = Pass.frow.writes s (s.node n) :=
    writes_congr rfl hbank fun m hm => frow_input_inPeriod h hm
  rw [apply_eq_withTarget, hwrites, apply_eq_withTarget]
  rfl

end Draws

/-- Settles O34: a pass reads the tree entry, the taps and its lines' cells, and here each of these is written. -/
theorem frowOfWrittenCellsIsDrawFree : Obligations.FrowOfWrittenCellsIsDrawFree := by
  intro s t node period hnode htree hlo hhi hplane h
  have hentry := node_inPeriod (period := period) htree
  have hsame := check_inPeriod .frow hentry
  cases hcheck : Pass.frow.check node.toNat s with
  | some r =>
    cases (exec_command_refused .frow hnode hcheck).symm.trans h
    exact exec_command_refused .frow hnode (hsame.trans hcheck)
  | none =>
    cases (exec_command_accepted .frow hnode hcheck).symm.trans h
    refine (exec_command_accepted .frow hnode (hsame.trans hcheck)).trans ?_
    rw [hentry, frow_apply_inPeriod (bank_inPeriod hlo hhi) hplane]
    rfl

end Sys2Proof.Machine
end

section
/-! Soft reset and the sticky flags (`70_reset_and_hazards.md` R281): the reset by its two cases, and what no other step
takes back. -/

namespace Sys2Proof.Machine

/-! ### The reset -/

/-- A write of `CTRL` with `RST` outside a run (R26, R281). -/
theorem step_of_softReset {s : State} {rest : List HostEvent} {v : Word} (hp : s.pending = .write 0 1 v :: rest)
    (hrst : v.getLsbD 1 = true) (hr : s.regs.state ≠ .run) :
    step s = .next (State.softReset { s with pending := rest }) := by
  rw [step_of_write hp, hostWrite_ctrl (s := { s with pending := rest }) hr, State.writeCtrl,
    if_pos (by simpa using hrst)]

/-- A host write during a run is refused (R29, R78). -/
theorem step_of_write_in_run {s : State} {rest : List HostEvent} {space index : Nat} {v : Word}
    (hp : s.pending = .write space index v :: rest) (hr : s.regs.state = .run) :
    step s = .next { s with pending := rest, regs.hosterr := true } := by
  rw [step_of_write hp, hostWrite_of_run (s := { s with pending := rest }) v hr]
  rfl

/-! ### The sticky flags -/

/-- Nothing sticky in `r` is gone in `q`: neither `WARN`, `HOSTERR` and `ERR` nor the state `FAULT` (R281). -/
structure Regs.StickyTo (r q : Regs) : Prop where
  warn : r.warn = true → q.warn = true
  hosterr : r.hosterr = true → q.hosterr = true
  err : r.err ≠ 0 → q.err ≠ 0
  fault : r.state = .fault → q.state = .fault

theorem Regs.StickyTo.refl (r : Regs) : r.StickyTo r := ⟨id, id, id, id⟩

theorem Regs.StickyTo.trans {r q p : Regs} (h1 : r.StickyTo q) (h2 : q.StickyTo p) : r.StickyTo p where
  warn := h2.warn ∘ h1.warn
  hosterr := h2.hosterr ∘ h1.hosterr
  err := h2.err ∘ h1.err
  fault := h2.fault ∘ h1.fault

/-- Register writes reach no flag (R24, R127). -/
theorem stickyTo_writeReg (s : State) (r : WReg) (v : Half) : s.regs.StickyTo (s.writeReg r v).regs :=
  ⟨by simp, by simp, by simp, by simp⟩

theorem stickyTo_setHosterr (s : State) : s.regs.StickyTo s.setHosterr.regs := ⟨id, fun _ => rfl, id, id⟩

/-- A state that is not `FAULT` may be left. -/
theorem stickyTo_withState {r : Regs} (hr : r.state ≠ .fault) (cp : Half) (q : RunState) :
    r.StickyTo { r with cp := cp, state := q } := ⟨id, id, id, fun h => absurd h hr⟩

/-- A fault records a code of R251, none of them 0. -/
theorem stickyTo_raise (s : State) (e : ErrCode) (info : Half) : s.regs.StickyTo (s.raise e info).regs :=
  ⟨id, id, fun _ => e.code_range.1, fun _ => rfl⟩

theorem Update.stickyTo {s t : State} (h : Update s t) : s.regs.StickyTo t.regs := by
  cases h with
  | pass p n accepted => rw [apply_regs]; exact .refl _
  | writeReg r v => exact stickyTo_writeReg s r v
  | markBuilt t allones => exact ⟨fun hw => by simp [hw], id, id, id⟩
  | _ => exact ⟨id, id, id, id⟩

theorem stickyTo_keptByEngine (r : Regs) : KeptByEngine fun s => r.StickyTo s.regs where
  update h hs := hs.trans h.stickyTo
  advance hs := hs.trans ⟨id, id, id, id⟩
  raise {s} e info hs := hs.trans (stickyTo_raise s e info)
  halt {s} running hs := hs.trans (stickyTo_withState (by simp [running]) s.regs.cp .halted)

theorem stickyTo_hostRead (s : State) (space index : Nat) : s.regs.StickyTo (s.hostRead space index).regs := by
  unfold State.hostRead
  cases s.hostValue space index with
  | some v => exact .refl _
  | none => exact stickyTo_setHosterr s

theorem stickyTo_hostWriteMem (s : State) (mem : MemId) (i : Nat) (v : Word) :
    s.regs.StickyTo (s.hostWriteMem mem i v).regs := by
  cases mem with
  | tree => rw [hostWriteMem_tree_frame]; exact .refl _
  | hder =>
    unfold State.hostWriteMem
    dsimp only
    split
    · exact .refl _
    · exact stickyTo_setHosterr s
  | scr => exact stickyTo_setHosterr s
  | _ => exact ⟨id, id, id, id⟩

/-- Without `RST` a write of `CTRL` starts a run at most, and none out of `FAULT` (R120). -/
theorem stickyTo_writeCtrl (s : State) {v : Half} (h : v.getLsbD 1 = false) :
    s.regs.StickyTo (s.writeCtrl v).regs := by
  rcases writeCtrl_cases s v with ⟨hrst, -⟩ | ⟨-, e⟩ | ⟨-, -, hstopped, e⟩
  · exact nomatch h.symm.trans hrst
  · rw [e]; exact .refl _
  · rw [e]; exact stickyTo_withState (by rcases hstopped with h | h <;> simp [h]) _ _

/-- A host write that is no soft reset takes back nothing sticky. -/
theorem stickyTo_hostWrite (s : State) (space index : Nat) (v : Word)
    (hkeep : space = 0 → index = 1 → v.getLsbD 1 = false ∨ s.regs.state = .run) :
    s.regs.StickyTo (s.hostWrite space index v).regs := by
  rcases hostWrite_cases s space index v with h | ⟨hr, h0, h1, h⟩ | ⟨r, -, -, -, h⟩ | ⟨id, -, -, -, h⟩ <;> rw [h]
  · exact stickyTo_setHosterr s
  · exact stickyTo_writeCtrl s (by simpa using (hkeep h0 h1).resolve_right hr)
  · exact stickyTo_writeReg s r _
  · exact stickyTo_hostWriteMem s id index v

/-- A step that is no reset takes back nothing sticky. -/
theorem stickyTo_step {s t : State} (h : step s = .next t) (hhard : ∀ rest, s.pending ≠ .hardReset :: rest)
    (hsoft : ∀ v rest, s.pending = .write 0 1 v :: rest → v.getLsbD 1 = false ∨ s.regs.state = .run) :
    s.regs.StickyTo t.regs := by
  rcases step_cases s with ⟨-, e⟩ | ⟨rest, -, e⟩ | ⟨rest, space, index, -, e⟩ | ⟨rest, space, index, v, hp, e⟩ |
    ⟨rest, hp, -⟩
  · exact (stickyTo_keptByEngine s.regs).engineStep (.refl _) (e.symm.trans h)
  · exact (stickyTo_keptByEngine s.regs).engineStep (s := { s with pending := rest }) (.refl _) (e.symm.trans h)
  · cases e.symm.trans h
    exact stickyTo_hostRead { s with pending := rest } space index
  · cases e.symm.trans h
    exact stickyTo_hostWrite { s with pending := rest } space index v fun h0 h1 => hsoft v rest (by rw [hp, h0, h1])
  · exact absurd hp (hhard rest)

/-- Settles O56: the write of `RST` by the run state, and the flags over every step that is no reset. -/
theorem softResetKeepsTheMemories : Obligations.SoftResetKeepsTheMemories := by
  refine ⟨fun s rest v hp hrst => ⟨fun hr => ⟨_, step_of_softReset hp hrst hr⟩, step_of_write_in_run hp⟩, ?_⟩
  intro s t h hhard hsoft
  obtain ⟨hwarn, hhosterr, herr, hfault⟩ := stickyTo_step h hhard hsoft
  exact ⟨hwarn, hhosterr, herr, hfault⟩

end Sys2Proof.Machine
end
